-- ==== Sys2Proof/Word.lean ====
section
/-! DEFINITION. Sys2Proof/Word.lean: the two widths of the block's data.

Every register, buffer word and table entry is an unsigned 64-bit word (R7, R10); the host bus numbers bytes (R58). -/

namespace Sys2Proof

/-- A 64-bit word, the spec's `u64` (R10). -/
abbrev Word := BitVec 64

/-- One byte of the host bus (R58). -/
abbrev Byte := BitVec 8

end Sys2Proof
end

