-- ==== Sys2Proof/Config.lean ====
section
/-! DEFINITION. Sys2Proof/Config.lean: the implementation parameters (R7) and the free values.

The parameters are plain data; State carries the instance's own (log 1). The two free values are constants with no
body: no proof can learn anything about them. -/

namespace Sys2Proof

/-- `OOR_MODE` (R7): whether a pass whose input words break its range records it in the model's fault record. -/
inductive OorMode where
  | formula
  | fault
  deriving DecidableEq, Repr

/-- `BUF_UNWRITTEN` (R7): what a read of a buffer word never written since reset gives (R57). -/
inductive BufUnwritten where
  | fault
  | draw
  deriving DecidableEq, Repr

/-- The parameters of R7, fixed for a model instance. `N_MAX` is derived. -/
structure Params where
  logNMin : Nat
  logNMax : Nat
  base : Nat
  oorMode : OorMode
  bufUnwritten : BufUnwritten
  deriving DecidableEq, Repr

/-- `N_MAX = 2^LOG_N_MAX`: the words of the coefficient buffer (R7, R38). -/
def Params.nMax (p : Params) : Nat := 2 ^ p.logNMax

/-- The defaults of R7. `BASE` is OPEN in the spec: 0 is a DESIGN CHOICE (log 1). -/
def Params.default : Params where
  logNMin := 1
  logNMax := 17
  base := 0
  oorMode := .formula
  bufUnwritten := .fault

/-- FREE VALUE (log 5): what buffer word `j` holds after reset number `epoch`, until something writes it. R42 leaves it
unspecified, and R57's `fault` mode reads it. -/
opaque Config.storedWord (epoch j : Nat) : Word

/-- FREE VALUE (log 6): the `i`-th free draw from `u64` that R57's `draw` mode takes. -/
opaque Config.drawnWord (i : Nat) : Word

end Sys2Proof
end

