-- ==== Sys2Proof/Syntax.lean ====
section
/-! DEFINITION. Sys2Proof/Syntax.lean: the commands of the block, one constructor per row of spec/opcode_table.json.

A command word carries no immediates and no register numbers (R84), so no constructor has an argument. -/

namespace Sys2Proof

/-- The 25 commands of R85 to R87. -/
inductive Instr where
  /-- TBL_BUILD (R155). -/
  | tblBuild
  /-- CLR_ERR (R230). -/
  | clrErr
  /-- NTT_FWD (R184). -/
  | nttFwd
  /-- NTT_INV (R208). -/
  | nttInv
  /-- TBL_GET_ARRAY.ROOT (R161). -/
  | getRoot
  /-- TBL_GET_ARRAY.SCALED_ROOT (R162). -/
  | getScaledRoot
  /-- TBL_GET_ARRAY.INV_ROOT (R163). -/
  | getInvRoot
  /-- TBL_GET_ARRAY.SCALED_INV_ROOT (R164). -/
  | getScaledInvRoot
  /-- TBL_GET_ARRAY.INV_ROOT_DIV2 (R165). -/
  | getInvRootDiv2
  /-- TBL_GET_ARRAY.SCALED_INV_ROOT_DIV2 (R166). -/
  | getScaledInvRootDiv2
  /-- TBL_GET_SCALAR.INV_DEGREE (R168). -/
  | getInvDegree
  /-- TBL_GET_SCALAR.MODULUS (R169). -/
  | getModulus
  /-- TBL_GET_SCALAR.COEFF_COUNT_POWER (R170). -/
  | getCoeffCountPower
  /-- TBL_GET_SCALAR.COEFF_COUNT (R171). -/
  | getCoeffCount
  /-- TBL_GET_SCALAR.IS_INITIALIZED (R172). -/
  | getIsInitialized
  /-- MUL_HI (R110). -/
  | mulHi
  /-- MUL_MOD (R111). -/
  | mulMod
  /-- SHOUP_RATIO (R112). -/
  | shoupRatio
  /-- DIV128_BY_64 (R113). -/
  | div128By64
  /-- DIV2_MOD (R114). -/
  | div2Mod
  /-- SHOUP_MUL (R115). -/
  | shoupMul
  /-- BIT_REVERSE (R116). -/
  | bitReverse
  /-- BFLY_FWD (R182). -/
  | bflyFwd
  /-- BFLY_INV (R204). -/
  | bflyInv
  /-- BFLY_INV_FINAL (R205). -/
  | bflyInvFinal
  deriving DecidableEq, Repr

end Sys2Proof
end

