-- ==== Sys2Proof/WellFormed.lean ====
section
/-! DEFINITION. Sys2Proof/WellFormed.lean: which commands, command words and parameters are well formed.

Legality of a command word is written here from R88, apart from the decoder, which is written from R91. -/

namespace Sys2Proof

/-- Every command is well formed: it has no operand that could be out of range (R84). -/
def Instr.wellFormed (_ : Instr) : Bool := true

/-- The opcodes of R85 that take no selector. -/
def plainOpcodes : List Nat :=
  [0x01, 0x02, 0x10, 0x11, 0x30, 0x31, 0x32, 0x33, 0x34, 0x35, 0x38, 0x40, 0x41, 0x42]

/-- `RSVD = 0` (R83). -/
def CmdWord.reservedClear (w : Word) : Bool := w.toNat / 2 ^ 16 == 0

/-- `OP` is listed in R85 (R81). -/
def CmdWord.opcodeListed (w : Word) : Bool :=
  w.toNat % 2 ^ 8 ∈ plainOpcodes ∨ w.toNat % 2 ^ 8 = 0x20 ∨ w.toNat % 2 ^ 8 = 0x21

/-- `SEL` is one the opcode has: up to 5 for TBL_GET_ARRAY, up to 4 for TBL_GET_SCALAR, else 0 (R82, R86, R87). -/
def CmdWord.selectorFits (w : Word) : Bool :=
  w.toNat / 2 ^ 8 % 2 ^ 8 ≤
    (if w.toNat % 2 ^ 8 = 0x20 then 5 else if w.toNat % 2 ^ 8 = 0x21 then 4 else 0)

/-- A command word is legal when none of R88's conditions holds. -/
def CmdWord.wellFormed (w : Word) : Bool :=
  CmdWord.reservedClear w && CmdWord.opcodeListed w && CmdWord.selectorFits w

/-- The ranges R7 gives the degree bounds. -/
def Params.boundsOk (p : Params) : Bool := 1 ≤ p.logNMin ∧ p.logNMin ≤ p.logNMax ∧ p.logNMax ≤ 17

/-- `BASE` is aligned to `2^21` (R51). -/
def Params.baseAligned (p : Params) : Bool := p.base % 2 ^ 21 = 0

/-- The parameters an instance may have (R7, R51). -/
def Params.wellFormed (p : Params) : Bool := p.boundsOk && p.baseAligned

end Sys2Proof
end

