-- ==== Sys2Proof/Decode.lean ====
section
/-! DEFINITION. Sys2Proof/Decode.lean: the byte order of a word (R58), the decoder (R91) and, after it, the encoder
(R80, R85 to R87). -/

namespace Sys2Proof

/-- The eight bytes of a word, the byte at the lowest address first (R58: byte `b` is bits `[8b+7 : 8b]`). -/
def bytesOfWord (w : Word) : List Byte :=
  (List.range 8).map fun b => BitVec.ofNat 8 (w.toNat / 2 ^ (8 * b))

/-- The number whose little-endian bytes are these. -/
def natOfBytes : List Byte → Nat
  | [] => 0
  | b :: rest => b.toNat + 2 ^ 8 * natOfBytes rest

/-- The word whose bytes, lowest address first, are these (R58). -/
def wordOfBytes (bs : List Byte) : Word := BitVec.ofNat 64 (natOfBytes bs)

/-- Why a word or a list of bytes is no command. The first three are R88's conditions; the last is R90's one length. -/
inductive Reject where
  | reservedBitsSet
  | opcodeNotListed
  | selectorNotListed
  | notOneWord
  deriving DecidableEq, Repr

/-- `OP = w[7:0]` (R80). -/
def opField (w : Word) : Nat := w.toNat % 2 ^ 8

/-- `SEL = w[15:8]` (R80). -/
def selField (w : Word) : Nat := w.toNat / 2 ^ 8 % 2 ^ 8

/-- `RSVD = w[63:16]` (R80). -/
def rsvdField (w : Word) : Nat := w.toNat / 2 ^ 16

/-- The TBL_GET_ARRAY command a selector names (R86). -/
def arrayCommand : Nat → Except Reject Instr
  | 0 => .ok .getRoot
  | 1 => .ok .getScaledRoot
  | 2 => .ok .getInvRoot
  | 3 => .ok .getScaledInvRoot
  | 4 => .ok .getInvRootDiv2
  | 5 => .ok .getScaledInvRootDiv2
  | _ => .error .selectorNotListed

/-- The TBL_GET_SCALAR command a selector names (R87). -/
def scalarCommand : Nat → Except Reject Instr
  | 0 => .ok .getInvDegree
  | 1 => .ok .getModulus
  | 2 => .ok .getCoeffCountPower
  | 3 => .ok .getCoeffCount
  | 4 => .ok .getIsInitialized
  | _ => .error .selectorNotListed

/-- The command of an opcode that takes no selector (R85). -/
def plainCommand : Nat → Except Reject Instr
  | 0x01 => .ok .tblBuild
  | 0x02 => .ok .clrErr
  | 0x10 => .ok .nttFwd
  | 0x11 => .ok .nttInv
  | 0x30 => .ok .mulHi
  | 0x31 => .ok .mulMod
  | 0x32 => .ok .shoupRatio
  | 0x33 => .ok .div128By64
  | 0x34 => .ok .div2Mod
  | 0x35 => .ok .shoupMul
  | 0x38 => .ok .bitReverse
  | 0x40 => .ok .bflyFwd
  | 0x41 => .ok .bflyInv
  | 0x42 => .ok .bflyInvFinal
  | _ => .error .opcodeNotListed

/-- The decoder of R91, total on every 64-bit word. -/
def decodeWord (w : Word) : Except Reject Instr :=
  if rsvdField w ≠ 0 then .error .reservedBitsSet
  else if opField w = 0x20 then arrayCommand (selField w)
  else if opField w = 0x21 then scalarCommand (selField w)
  else
    match plainCommand (opField w) with
    | .error e => .error e
    | .ok i => if selField w = 0 then .ok i else .error .selectorNotListed

/-- Decoding the bytes of one host write to `CMD`: a command is exactly one 64-bit word (R90). -/
def decode (bs : List Byte) : Except Reject Instr :=
  if bs.length = 8 then decodeWord (wordOfBytes bs) else .error .notOneWord

/-- `OP` of a command (R85). -/
def Instr.opcode : Instr → Nat
  | .tblBuild => 0x01
  | .clrErr => 0x02
  | .nttFwd => 0x10
  | .nttInv => 0x11
  | .getRoot => 0x20
  | .getScaledRoot => 0x20
  | .getInvRoot => 0x20
  | .getScaledInvRoot => 0x20
  | .getInvRootDiv2 => 0x20
  | .getScaledInvRootDiv2 => 0x20
  | .getInvDegree => 0x21
  | .getModulus => 0x21
  | .getCoeffCountPower => 0x21
  | .getCoeffCount => 0x21
  | .getIsInitialized => 0x21
  | .mulHi => 0x30
  | .mulMod => 0x31
  | .shoupRatio => 0x32
  | .div128By64 => 0x33
  | .div2Mod => 0x34
  | .shoupMul => 0x35
  | .bitReverse => 0x38
  | .bflyFwd => 0x40
  | .bflyInv => 0x41
  | .bflyInvFinal => 0x42

/-- `SEL` of a command: the array or scalar a TBL_GET reads (R86, R87), else 0 (R82). -/
def Instr.selector : Instr → Nat
  | .getRoot => 0
  | .getScaledRoot => 1
  | .getInvRoot => 2
  | .getScaledInvRoot => 3
  | .getInvRootDiv2 => 4
  | .getScaledInvRootDiv2 => 5
  | .getInvDegree => 0
  | .getModulus => 1
  | .getCoeffCountPower => 2
  | .getCoeffCount => 3
  | .getIsInitialized => 4
  | .tblBuild | .clrErr | .nttFwd | .nttInv | .mulHi | .mulMod | .shoupRatio | .div128By64 | .div2Mod
  | .shoupMul | .bitReverse | .bflyFwd | .bflyInv | .bflyInvFinal => 0

/-- The word of a command, `OP + 256 · SEL` (R91). -/
def encodeWord (i : Instr) : Word := BitVec.ofNat 64 (i.opcode + 256 * i.selector)

/-- The bytes of a command's word, lowest address first (R58, R80). -/
def encode (i : Instr) : List Byte := bytesOfWord (encodeWord i)

/-- How many bytes an instruction of `nbits` bits takes on the bus: no command is shorter than one word (R90). -/
def fetchBytes (nbits : Nat) : Nat := max 8 ((nbits + 7) / 8)

/-- The command read from an instruction whose low `nbits` bits are `w` and whose other bits are 0, laid out as the host
port's byte lanes carry it (R58). -/
def decodeTableWord (nbits w : Nat) : Option Instr :=
  match decode ((List.range (fetchBytes nbits)).map fun b => BitVec.ofNat 8 (w % 2 ^ nbits / 2 ^ (8 * b))) with
  | .ok i => some i
  | .error _ => none

end Sys2Proof
end

