-- ==== Sys2Proof/Machine/State.lean ====
section
/-! DEFINITION. Sys2Proof/Machine/State.lean: the state of the block (R20), plain data, and its value after reset (R42).

Fields marked MODEL'S OWN are not the spec's state; INVENTORY.md lists them with their log entries. -/

namespace Sys2Proof.Machine

/-- The status codes of R24. `CODE` only ever holds one of them (R23, log 14). -/
inductive StatusCode where
  | ok
  | invalidParameters
  | unsuitableModulus
  | notInitialized
  | indexOutOfRange
  | domainError
  | illegalCommand
  deriving DecidableEq, Repr

/-- The record of an initialized table (R30). The arrays have `coeffCount` entries (R37). -/
structure Table where
  coeffCountPower : Word
  coeffCount : Word
  modulus : Word
  invDegreeModulo : Word
  rootPowers : List Word
  scaledRootPowers : List Word
  invRootPowers : List Word
  scaledInvRootPowers : List Word
  invRootPowersDivTwo : List Word
  scaledInvRootPowersDivTwo : List Word
  deriving DecidableEq, Repr

/-- The model's fault record (R41, R250): the set of reasons recorded so far, one flag for each of the two
reasons (log 14). -/
structure FaultRecord where
  unwrittenRead : Bool
  inputOutOfRange : Bool
  deriving DecidableEq, Repr

/-- The empty fault record (R41). -/
def FaultRecord.empty : FaultRecord where
  unwrittenRead := false
  inputOutOfRange := false

/-- What happens at the block's edge, one at a time (R14, R61, R270): a host read or write of `size` bytes at a byte
address of the host bus, or a reset by the platform. -/
inductive HostEvent where
  | read (addr size : Nat)
  | write (addr size : Nat) (value : Word)
  | reset
  deriving DecidableEq, Repr

/-- What the host gets back from an access (R69). -/
inductive Reply where
  /-- The word a read returns. -/
  | data (value : Word)
  /-- A write completed normally. -/
  | written
  /-- The bus-error response of R54 and R55. -/
  | busError
  /-- The block does not answer: the address is not in its range (log 3). -/
  | unclaimed
  deriving DecidableEq, Repr

/-- Reasons the model stops. -/
inductive Fault where
  /-- SAFE (log 8). Raised by NTT_FWD, NTT_INV and TBL_GET_ARRAY when the table's arrays do not have `coeff_count`
  entries or `coeff_count` is not `2^coeff_count_power`, which no table built by TBL_BUILD shows (R36, R37). -/
  | tableIncoherent
  deriving DecidableEq, Repr

/-- Reasons the model gives an instruction no meaning. -/
inductive Refusal where
  /-- SAFE. Only for an instruction exec has no meaning for; no instruction of this model is left so. -/
  | notModelled (mnemonic : String)
  deriving DecidableEq, Repr

/-- The state of the block (R20). `CMD` holds nothing (R26), `CAPS` is a constant of the parameters (R27), `STATUS.INIT`
is no storage of its own (R23), and `written[j]` says whether the bytes of `BUF[j]` are listed in `mem` (R39, log 4). -/
@[ext]
structure State where
  /-- MODEL'S OWN (log 1): the parameters of this instance (R7). No step writes them. -/
  params : Params
  /-- `ARG[0]` (R21). -/
  arg0 : Word
  /-- `ARG[1]` (R21). -/
  arg1 : Word
  /-- `ARG[2]` (R21). -/
  arg2 : Word
  /-- `ARG[3]` (R21). -/
  arg3 : Word
  /-- `ARG[4]` (R21). -/
  arg4 : Word
  /-- `RES[0]` (R22). -/
  res0 : Word
  /-- `RES[1]` (R22). -/
  res1 : Word
  /-- `STATUS.CODE` (R23). -/
  code : StatusCode
  /-- `STATUS.ERR` (R23, R25). -/
  err : Bool
  /-- `TBL` (R30): `none` is the uninitialized state of R31. -/
  tbl : Option Table
  /-- The bytes of `BUF` (R38) by their offset in the block (R51, R58), those never written since reset not listed. -/
  mem : List Host.Cell
  /-- The spec's model-only fault record (R41). -/
  faults : FaultRecord
  /-- MODEL'S OWN (log 2): what the host and the platform still do, in port order (R61). -/
  inbox : List HostEvent
  /-- MODEL'S OWN (log 2): what the host got back (R69), newest first. -/
  replies : List Reply
  /-- MODEL'S OWN (log 5): how many times the platform reset the block; names `BUF`'s unspecified contents (R42). -/
  resetEpoch : Nat
  /-- MODEL'S OWN (log 6): how many free draws R57 has taken. -/
  draws : Nat
  deriving DecidableEq, Repr

/-- The state right after the first reset (R42, R270), with the default parameters of R7 and nothing at the port. -/
def State.reset : State where
  params := Params.default
  arg0 := 0
  arg1 := 0
  arg2 := 0
  arg3 := 0
  arg4 := 0
  res0 := 0
  res1 := 0
  code := .ok
  err := false
  tbl := none
  mem := []
  faults := FaultRecord.empty
  inbox := []
  replies := []
  resetEpoch := 0
  draws := 0

end Sys2Proof.Machine
end

