-- ==== Sys2Proof/Machine/Flags.lean ====
section
/-! DEFINITION. Sys2Proof/Machine/Flags.lean: the status register (R23 to R25) and the capability register (R27).

The block has no other flags (R29). -/

namespace Sys2Proof.Machine

/-- The value of a status code (R24). -/
def StatusCode.number : StatusCode → Nat
  | .ok => 0
  | .invalidParameters => 1
  | .unsuitableModulus => 2
  | .notInitialized => 3
  | .indexOutOfRange => 4
  | .domainError => 5
  | .illegalCommand => 6

/-- `TBL.initialized` (R30, R31). -/
def State.initialized (s : State) : Bool := s.tbl.isSome

/-- `STATUS` as a 64-bit word: `CODE` in bits 7:0, `INIT` in bit 8, `ERR` in bit 9, the rest 0 (R23). -/
def State.statusWord (s : State) : Word :=
  BitVec.ofNat 64 (s.code.number + 2 ^ 8 * s.initialized.toNat + 2 ^ 9 * s.err.toNat)

/-- `CAPS`: `LOG_N_MIN` in bits 7:0, `LOG_N_MAX` in bits 15:8, the rest 0 (R27). -/
def capsWord (p : Params) : Word := BitVec.ofNat 64 (p.logNMin % 2 ^ 8 + 2 ^ 8 * (p.logNMax % 2 ^ 8))

/-- `ERR` after a command completes with code `c`: set by any code but `OK`, otherwise kept (R15, R25). -/
def errAfter (c : StatusCode) (err : Bool) : Bool := if c = .ok then err else true

end Sys2Proof.Machine
end

