-- ==== Sys2Proof/Machine/Ops.lean ====
section
/-! DEFINITION. Sys2Proof/Machine/Ops.lean: the shared operations: completing and failing a command (R15, R240), the byte
memory, and the coefficient buffer over it (R38, R57).

A failing command is the block's only exception: there is no trap entry and no return (R247, R248). -/

namespace Sys2Proof.Machine

/-- What a meaning answers. -/
abbrev Result := Host.Outcome State Fault Refusal

/-- `complete(c)` (R15). -/
def State.complete (c : StatusCode) (s : State) : State :=
  { s with code := c, err := errAfter c s.err }

/-- `raise E`: the command ends with code `c` and writes nothing else (R15, R240, R241). -/
def raise (c : StatusCode) (s : State) : Result := .next (s.complete c)

/-- A `CMD` write of a word that decodes to nothing (R231). -/
def illegalCommand (s : State) : Result := raise .illegalCommand s

/-- The byte at an address, if it has been written since reset (R39). -/
def Memory.readByte : (m : List Host.Cell) → (a : Nat) → Option Byte
  | [], _ => none
  | c :: rest, a => if c.1 = a then some c.2 else Memory.readByte rest a

/-- Write one byte, keeping addresses rising. -/
def Memory.writeByte : (m : List Host.Cell) → (a : Nat) → (v : Byte) → List Host.Cell
  | [], a, v => [(a, v)]
  | c :: rest, a, v =>
    if a < c.1 then (a, v) :: c :: rest
    else if a = c.1 then (a, v) :: rest
    else c :: Memory.writeByte rest a v

/-- The canonical form of memory: addresses strictly rising. An unlisted address has no value, so no entry can equal what
an unlisted one reads as (log 4). -/
abbrev Memory.wf (m : List Host.Cell) : Prop := m.Pairwise fun c d => c.1 < d.1

/-- The `count` bytes from an address up, if all of them have been written. -/
def Memory.readBytes (m : List Host.Cell) : (count a : Nat) → Option (List Byte)
  | 0, _ => some []
  | count + 1, a =>
    match Memory.readByte m a, Memory.readBytes m count (a + 1) with
    | some b, some rest => some (b :: rest)
    | _, _ => none

/-- Write bytes from an address up. -/
def Memory.writeBytes : (m : List Host.Cell) → (a : Nat) → List Byte → List Host.Cell
  | m, _, [] => m
  | m, a, b :: rest => Memory.writeBytes (Memory.writeByte m a b) (a + 1) rest

/-- The offset of `BUF[j]` in the block (R51). -/
def bufOffset (j : Nat) : Nat := 0x100000 + 8 * j

/-- `BUF[j]`, if it has been written since reset (R39, R58). -/
def Memory.bufWord (m : List Host.Cell) (j : Nat) : Option Word :=
  (Memory.readBytes m 8 (bufOffset j)).map wordOfBytes

/-- `BUF[j] <- v`, which also sets `written[j]` (R13, R39, R58). -/
def Memory.setBufWord (m : List Host.Cell) (j : Nat) (v : Word) : List Host.Cell :=
  Memory.writeBytes m (bufOffset j) (bytesOfWord v)

/-- `written[j]` (R39). -/
def State.written (s : State) (j : Nat) : Bool := (Memory.bufWord s.mem j).isSome

/-- Record a read of an unwritten word (R250). -/
def State.recordUnwrittenRead (s : State) : State :=
  { s with faults := { s.faults with unwrittenRead := true } }

/-- Record an input outside a pass's range (R250). -/
def State.recordInputOutOfRange (s : State) : State :=
  { s with faults := { s.faults with inputOutOfRange := true } }

/-- A read of `BUF[j]` by the host or a pass: its value, and the state with what the read records (R57, R185, R209). An
unwritten word gives a free value: the stored word, recorded, or a fresh draw, as `BUF_UNWRITTEN` says (log 5, 6). -/
def readBuf (j : Nat) (s : State) : Word × State :=
  match Memory.bufWord s.mem j with
  | some v => (v, s)
  | none =>
    match s.params.bufUnwritten with
    | .fault => (Config.storedWord s.resetEpoch j, s.recordUnwrittenRead)
    | .draw => (Config.drawnWord s.draws, { s with draws := s.draws + 1 })

/-- Read `BUF[j]`, `BUF[j + 1]`, … (`count` of them), in rising order. -/
def readBufs : (count j : Nat) → State → List Word × State
  | 0, _, s => ([], s)
  | count + 1, j, s =>
    let first := readBuf j s
    let rest := readBufs count (j + 1) first.2
    (first.1 :: rest.1, rest.2)

/-- `BUF[j] <- v`. -/
def writeBuf (j : Nat) (v : Word) (s : State) : State := { s with mem := Memory.setBufWord s.mem j v }

/-- Write words to `BUF[j]`, `BUF[j + 1]`, …, in rising order. -/
def writeBufs : (j : Nat) → List Word → State → State
  | _, [], s => s
  | j, v :: rest, s => writeBufs (j + 1) rest (writeBuf j v s)

/-- A reset by the platform (R270): every piece of the spec's state takes its value of R42. The parameters stay, what the
host has still to do and has got back stays with the host, and `BUF` gets new unspecified contents (log 5, 9). -/
def platformReset (s : State) : State :=
  { State.reset with
    params := s.params
    inbox := s.inbox
    replies := s.replies
    resetEpoch := s.resetEpoch + 1
    draws := s.draws }

end Sys2Proof.Machine
end

