-- ==== Sys2Proof/Machine/Operands.lean ====
section
/-! DEFINITION. Sys2Proof/Machine/Operands.lean: how commands read operands and write results (R84).

A command reads fixed `ARG` registers as full 64-bit values and writes fixed `RES` registers; it never writes `ARG`
(R21), and it writes `RES` only when it completes with `OK` (R22). -/

namespace Sys2Proof.Machine

/-- `ARG[i]` (R13, R21). -/
def State.arg (s : State) : Fin 5 → Word
  | 0 => s.arg0
  | 1 => s.arg1
  | 2 => s.arg2
  | 3 => s.arg3
  | 4 => s.arg4

/-- A host write of `ARG[i]` (R21, R69). -/
def State.setArg (s : State) (i : Fin 5) (v : Word) : State :=
  match i with
  | 0 => { s with arg0 := v }
  | 1 => { s with arg1 := v }
  | 2 => { s with arg2 := v }
  | 3 => { s with arg3 := v }
  | 4 => { s with arg4 := v }

/-- `RES[0] <- v; complete(OK)` (R22). -/
def State.finishOne (s : State) (v : Word) : State := State.complete .ok { s with res0 := v }

/-- `(RES[0], RES[1]) <- vs; complete(OK)` (R22). -/
def State.finishTwo (s : State) (vs : Word × Word) : State :=
  State.complete .ok { s with res0 := vs.1, res1 := vs.2 }

/-- The template of a command with a domain and one result (R108). -/
def withinDomain (inDomain : Bool) (v : Word) (s : State) : Result :=
  if inDomain then .next (s.finishOne v) else raise .domainError s

/-- The template of a command with a domain and two results (R108, R205). -/
def withinDomainTwo (inDomain : Bool) (vs : Word × Word) (s : State) : Result :=
  if inDomain then .next (s.finishTwo vs) else raise .domainError s

end Sys2Proof.Machine
end

