-- ==== Sys2Proof/Machine/Control.lean ====
section
/-! DEFINITION. Sys2Proof/Machine/Control.lean: CLR_ERR (R230). -/

namespace Sys2Proof.Machine

/-- CLR_ERR (R230): the only command that clears `ERR` (R25). -/
def execClrErr (s : State) : Result := .next (State.complete .ok { s with err := false })

end Sys2Proof.Machine
end

