-- ==== Sys2Proof/Machine/Arith.lean ====
section
/-! DEFINITION. Sys2Proof/Machine/Arith.lean: the functions of the commands, the table and the passes: the
scaled-arithmetic primitives (R100 to R106) and the butterflies (R180, R200, R202).

Where the spec says `wrap64`, the operators here are those of 64-bit words, which wrap (R11); everything else is computed
exactly on naturals and narrowed once. -/

namespace Sys2Proof.Machine

/-- `mul_hi(a, b)` (R100). -/
def mulHi (a b : Word) : Word := BitVec.ofNat 64 (a.toNat * b.toNat / 2 ^ 64)

/-- The exact quotient of the 128-bit dividend `{hi, lo}` (R101). -/
def quotient128 (lo hi d : Word) : Nat := (hi.toNat * 2 ^ 64 + lo.toNat) / d.toNat

/-- `div128_by_64(lo, hi, d)` for `d ≠ 0`: `(quotient_lo, quotient_hi)` (R101). -/
def div128By64 (lo hi d : Word) : Word × Word :=
  (BitVec.ofNat 64 (quotient128 lo hi d % 2 ^ 64), BitVec.ofNat 64 (quotient128 lo hi d / 2 ^ 64))

/-- `shoup_ratio(w, q)` for `w < q`: the low quotient word of the dividend `w · 2^64` (R102). -/
def shoupRatio (w q : Word) : Word := (div128By64 0 w q).1

/-- `mul_mod(a, b, q)` for `q ≠ 0` (R103). -/
def mulMod (a b q : Word) : Word := BitVec.ofNat 64 (a.toNat * b.toNat % q.toNat)

/-- `div2_mod(x, q)` for odd `q` and `x < q`; the sum is exact, in 65 bits where it needs them (R104). -/
def div2Mod (x q : Word) : Word :=
  if x.toNat % 2 = 0 then BitVec.ofNat 64 (x.toNat / 2) else BitVec.ofNat 64 ((x.toNat + q.toNat) / 2)

/-- `bitrev(i, k)`: bit 0 of `i` becomes bit `k - 1`, and so on; the bits of `i` from `k` up are dropped (R105). -/
def bitrev : (i k : Nat) → Nat
  | _, 0 => 0
  | i, k + 1 => i % 2 * 2 ^ k + bitrev (i / 2) k

/-- `shoup_mul(W, W′, Y, q)`: `W·Y − mul_hi(W′, Y)·q`, wrapping (R106). -/
def shoupMul (w w' y q : Word) : Word := w * y - mulHi w' y * q

/-- One conditional subtraction of `2q`, the first step of R180 and the last addition's of R200 and R202. -/
def reduceOnce (x q2 : Word) : Word := if q2.toNat ≤ x.toNat then x - q2 else x

/-- `bfly_fwd(X, Y, W, W′, q)` (R180). -/
def bflyFwd (x y w w' q : Word) : Word × Word :=
  let q2 := 2 * q
  let xr := reduceOnce x q2
  let t := shoupMul w w' y q
  (xr + t, xr + q2 - t)

/-- `bfly_inv(X, Y, W, W′, q)` (R200). -/
def bflyInv (x y w w' q : Word) : Word × Word :=
  let q2 := 2 * q
  let ty := x + q2 - y
  (reduceOnce (x + y) q2, shoupMul w w' ty q)

/-- `bfly_inv_final(X, Y, inv_N, inv_N_W, q)`, with the pre-multipliers of its two factors (R202). -/
def bflyInvFinal (x y invN invNW q : Word) : Word × Word :=
  let q2 := 2 * q
  let tx := reduceOnce (x + y) q2
  let ty := x + q2 - y
  (shoupMul invN (shoupRatio invN q) tx q, shoupMul invNW (shoupRatio invNW q) ty q)

end Sys2Proof.Machine
end

