-- ==== Sys2Proof/Machine/Passes.lean ====
section
/-! DEFINITION. Sys2Proof/Machine/Passes.lean: the forward pass (R183 to R185) and the inverse pass (R206 to R209).

A pass takes `BUF[0..n)` as a list, runs the stages in the rules' order and writes the list back; the butterflies of a
stage act on disjoint pairs, so a stage is written block by block (R187, R215, log 12). Sys2Proof/Safety.lean has the
rules' index loops. -/

namespace Sys2Proof.Machine

/-- A table whose arrays have `coeff_count = 2^coeff_count_power` entries each (R36, R37). -/
def tableCoherent (t : Table) : Bool :=
  t.coeffCount.toNat = 2 ^ t.coeffCountPower.toNat ∧
    t.rootPowers.length = t.coeffCount.toNat ∧
    t.scaledRootPowers.length = t.coeffCount.toNat ∧
    t.invRootPowers.length = t.coeffCount.toNat ∧
    t.scaledInvRootPowers.length = t.coeffCount.toNat ∧
    t.invRootPowersDivTwo.length = t.coeffCount.toNat ∧
    t.scaledInvRootPowersDivTwo.length = t.coeffCount.toNat

/-- The `count` roots from offset `first` of two arrays, each with its pre-multiplier. -/
def rootsFrom (roots scaled : List Word) (first count : Nat) : List (Word × Word) :=
  ((roots.drop first).take count).zip ((scaled.drop first).take count)

/-- One stage: for each root in turn, the butterflies of the next block of `2t` words, on its words `j` and `j + t`. -/
def stage (bfly : Word → Word → Word → Word → Word × Word) (t : Nat) :
    List (Word × Word) → List Word → List Word
  | [], a => a
  | r :: roots, a =>
    let pairs := List.zipWith (fun x y => bfly x y r.1 r.2) (a.take t) ((a.drop t).take t)
    pairs.map Prod.fst ++ (pairs.map Prod.snd ++ stage bfly t roots (a.drop (2 * t)))

/-- The forward stages still to run, from half-size `t` and `m` blocks on (R183). -/
def forwardStages (tb : Table) : (stages m t : Nat) → List Word → List Word
  | 0, _, _, a => a
  | stages + 1, m, t, a =>
    forwardStages tb stages (2 * m) (t / 2)
      (stage (fun x y w w' => bflyFwd x y w w' tb.modulus) t
        (rootsFrom tb.rootPowers tb.scaledRootPowers m m) a)

/-- The forward pass on the words of `BUF[0..n)` (R183): `log n` stages, `m` from 1, `t` from `n / 2`. -/
def forwardPass (tb : Table) (a : List Word) : List Word :=
  forwardStages tb tb.coeffCountPower.toNat 1 (tb.coeffCount.toNat / 2) a

/-- The inverse main stages still to run; `cursor` is the source's `root_index` (R206). -/
def inverseStages (tb : Table) : (stages cursor m t : Nat) → List Word → List Word
  | 0, _, _, _, a => a
  | stages + 1, cursor, m, t, a =>
    inverseStages tb stages (cursor + m) (m / 2) (2 * t)
      (stage (fun x y w w' => bflyInv x y w w' tb.modulus) t
        (rootsFrom tb.invRootPowers tb.scaledInvRootPowers cursor m) a)

/-- The final stage, with the root at offset `n - 1` (R207). -/
def inverseFinal (tb : Table) (a : List Word) : List Word :=
  let half := tb.coeffCount.toNat / 2
  let w := tb.invRootPowers.getD (tb.coeffCount.toNat - 1) 0
  let invNW := mulMod tb.invDegreeModulo w tb.modulus
  let pairs := List.zipWith (fun x y => bflyInvFinal x y tb.invDegreeModulo invNW tb.modulus)
    (a.take half) (a.drop half)
  pairs.map Prod.fst ++ pairs.map Prod.snd

/-- The inverse pass on the words of `BUF[0..n)` (R206, R207): `log n - 1` stages, `m` from `n / 2`, `t` from 1, the
cursor from 1, then the final stage. -/
def inversePass (tb : Table) (a : List Word) : List Word :=
  inverseFinal tb
    (inverseStages tb (tb.coeffCountPower.toNat - 1) 1 (tb.coeffCount.toNat / 2) 1 a)

/-- `check_inputs` (R185, R209): under `OOR_MODE = fault`, record a word at or above the bound. -/
def checkInputs (bound : Nat) (a : List Word) (s : State) : State :=
  match s.params.oorMode with
  | .formula => s
  | .fault => if a.any (fun w => bound ≤ w.toNat) then s.recordInputOutOfRange else s

/-- A pass over `BUF[0..n)`: read the words, check them, transform, write them back, complete. An unwritten word is read
once, in the check and in the pass alike (log 7). -/
def runPass (bound : Table → Nat) (transform : Table → List Word → List Word) (s : State) : Result :=
  match s.tbl with
  | none => raise .notInitialized s
  | some t =>
    if tableCoherent t then
      let read := readBufs t.coeffCount.toNat 0 s
      .next (State.complete .ok (writeBufs 0 (transform t read.1) (checkInputs (bound t) read.1 read.2)))
    else .fault .tableIncoherent

/-- NTT_FWD (R184): input range `[0, q)`. -/
def execNttFwd (s : State) : Result := runPass (fun t => t.modulus.toNat) forwardPass s

/-- NTT_INV (R208): input range `[0, 2q)`. -/
def execNttInv (s : State) : Result := runPass (fun t => 2 * t.modulus.toNat) inversePass s

end Sys2Proof.Machine
end

