-- ==== Sys2Proof/Machine/Primitives.lean ====
section
/-! DEFINITION. Sys2Proof/Machine/Primitives.lean: the commands of 40_arith_primitives.md and the butterfly diagnostics
(R182, R204, R205). None reads `TBL` or `BUF` (R108). -/

namespace Sys2Proof.Machine

/-- MUL_HI (R110). -/
def execMulHi (s : State) : Result := .next (s.finishOne (mulHi (s.arg 0) (s.arg 1)))

/-- MUL_MOD: `ARG[2]` must not be 0 (R111). -/
def execMulMod (s : State) : Result :=
  withinDomain (s.arg 2 ≠ 0) (mulMod (s.arg 0) (s.arg 1) (s.arg 2)) s

/-- SHOUP_RATIO: `w = ARG[0]` must be below `q = ARG[1]`, which also says `q ≠ 0` (R112). -/
def execShoupRatio (s : State) : Result :=
  withinDomain (s.arg 1 ≠ 0 ∧ (s.arg 0).toNat < (s.arg 1).toNat) (shoupRatio (s.arg 0) (s.arg 1)) s

/-- DIV128_BY_64: the divisor `ARG[2]` must not be 0 (R113). -/
def execDiv128By64 (s : State) : Result :=
  withinDomainTwo (s.arg 2 ≠ 0) (div128By64 (s.arg 0) (s.arg 1) (s.arg 2)) s

/-- DIV2_MOD: `q = ARG[1]` must be odd and `x = ARG[0]` below it (R114). -/
def execDiv2Mod (s : State) : Result :=
  withinDomain ((s.arg 1).toNat % 2 = 1 ∧ (s.arg 0).toNat < (s.arg 1).toNat) (div2Mod (s.arg 0) (s.arg 1)) s

/-- SHOUP_MUL: total, no operand is checked (R115). -/
def execShoupMul (s : State) : Result :=
  .next (s.finishOne (shoupMul (s.arg 0) (s.arg 1) (s.arg 2) (s.arg 3)))

/-- BIT_REVERSE: `k = ARG[1]` must be at most 64 (R116). -/
def execBitReverse (s : State) : Result :=
  withinDomain ((s.arg 1).toNat ≤ 64) (BitVec.ofNat 64 (bitrev (s.arg 0).toNat (s.arg 1).toNat)) s

/-- BFLY_FWD: total, no operand is checked (R182). DESIGN CHOICE (log 15): for `q = 0` and `W·Y` not 0 modulo `2^64` the
spec contradicts itself, R182's corner case giving `T = 0` and R180 with R106 `T = wrap64(W·Y)`; this is the formula. -/
def execBflyFwd (s : State) : Result :=
  .next (s.finishTwo (bflyFwd (s.arg 0) (s.arg 1) (s.arg 2) (s.arg 3) (s.arg 4)))

/-- BFLY_INV: total, no operand is checked (R204). -/
def execBflyInv (s : State) : Result :=
  .next (s.finishTwo (bflyInv (s.arg 0) (s.arg 1) (s.arg 2) (s.arg 3) (s.arg 4)))

/-- BFLY_INV_FINAL: both factors must be below `q = ARG[4]`, which must not be 0 (R205). -/
def execBflyInvFinal (s : State) : Result :=
  withinDomainTwo
    (s.arg 4 ≠ 0 ∧ (s.arg 2).toNat < (s.arg 4).toNat ∧ (s.arg 3).toNat < (s.arg 4).toNat)
    (bflyInvFinal (s.arg 0) (s.arg 1) (s.arg 2) (s.arg 3) (s.arg 4)) s

end Sys2Proof.Machine
end

