-- ==== Sys2Proof/Machine/Number.lean ====
section
/-! DEFINITION. Sys2Proof/Machine/Number.lean: the mathematical results TBL_BUILD takes from its external collaborators
(R142 to R145): primality, the least primitive root, modular inverses.

The spec fixes the results and leaves the algorithms free (D5). These are chosen to be computed on 62-bit moduli;
Sys2Proof/Laws/Number.lean proves that they give exactly the results the rules name (log 11). -/

namespace Sys2Proof.Machine

/-- `b ^ e mod q` by repeated squaring, for `e < 2 ^ bits`. -/
def powModBits : (bits b e q : Nat) → Nat
  | 0, _, _, q => 1 % q
  | bits + 1, b, e, q =>
    if e = 0 then 1 % q
    else if e % 2 = 1 then b * powModBits bits (b * b % q) (e / 2) q % q
    else powModBits bits (b * b % q) (e / 2) q

/-- `b ^ e mod q` for an exponent of at most 64 bits. -/
def powMod (b e q : Nat) : Nat := powModBits 64 b e q

/-- No `d` among `d`, `d + stride`, `d + 2 · stride`, … with `d² ≤ q` divides `q`. -/
def noDivisor : (fuel d stride q : Nat) → Bool
  | 0, _, _, _ => true
  | fuel + 1, d, stride, q =>
    if q < d * d then true else if q % d = 0 then false else noDivisor fuel (d + stride) stride q

/-- The largest power of two, up to `2 ^ fuel`, that divides `m`. -/
def twoPart : (fuel m : Nat) → Nat
  | 0, _ => 1
  | fuel + 1, m => if m % 2 = 0 then 2 * twoPart fuel (m / 2) else 1

/-- Primality of an odd `q`. A base `a` with `a ^ ((q - 1) / 2) ≡ -1` shows that every prime divisor of `q` is 1 modulo the
power of two in `q - 1`, so only such divisors are tried; a value other than 1 and -1 shows that `q` is composite; with no
such base every odd divisor is tried. -/
def oddPrimeTest : (bases a q : Nat) → Bool
  | 0, _, q => noDivisor q 3 2 q
  | bases + 1, a, q =>
    if q ≤ a then noDivisor q 3 2 q
    else if powMod a ((q - 1) / 2) q = q - 1 then
      noDivisor q (1 + twoPart 64 (q - 1)) (twoPart 64 (q - 1)) q
    else if powMod a ((q - 1) / 2) q = 1 then oddPrimeTest bases (a + 1) q
    else false

/-- `q` is prime: `q ≥ 2` and no `d` in `[2, q)` divides it (R142). -/
def isPrime (q : Nat) : Bool :=
  if q < 2 then false else if q % 2 = 0 then q == 2 else oddPrimeTest 64 2 q

/-- The first of `g_a = a ^ ((q - 1) / 2n)`, for `a` from the given one up, with `g_a ^ n ≡ -1 (mod q)`: a primitive
`2n`-th root of unity (R17). -/
def somePrimitiveRoot : (fuel a n q : Nat) → Option Nat
  | 0, _, _, _ => none
  | fuel + 1, a, n, q =>
    if powMod (powMod a ((q - 1) / (2 * n)) q) n q = q - 1 then some (powMod a ((q - 1) / (2 * n)) q)
    else somePrimitiveRoot fuel (a + 1) n q

/-- The least of `best` and `p`, `p·g2`, `p·g2²`, … modulo `q` (`count` of them). -/
def leastInOrbit : (count p g2 q best : Nat) → Nat
  | 0, _, _, _, best => best
  | count + 1, p, g2, q, best => leastInOrbit count (p * g2 % q) g2 q (min best p)

/-- `minimal_primitive_root(2n, q)` for a prime `q` (R143): none when `2n` does not divide `q - 1`; otherwise the least of
the odd powers of one primitive root, which are all of them. -/
def minimalPrimitiveRoot (n q : Nat) : Option Nat :=
  if (q - 1) % (2 * n) ≠ 0 then none
  else
    match somePrimitiveRoot q 2 n q with
    | none => none
    | some g => some (leastInOrbit n g (g * g % q) q g)

/-- The `v` in `[0, q)` with `v · a ≡ 1 (mod q)` for a prime `q`, if there is one (R144, R145). -/
def inverseMod (a q : Nat) : Option Nat :=
  if powMod a (q - 2) q * a % q = 1 then some (powMod a (q - 2) q) else none

end Sys2Proof.Machine
end

