-- ==== Sys2Proof/Machine/Table.lean ====
section
/-! DEFINITION. Sys2Proof/Machine/Table.lean: TBL_BUILD (R140 to R155) and the table accessors (R160 to R172). -/

namespace Sys2Proof.Machine

/-- The powers of a root in bit-reversed order: entry `r` is `root ^ bitrev(r, k) mod q`, so that entry `bitrev(i, k)` is
`root ^ i mod q` (R146, R148). -/
def bitrevPowers (k root q : Nat) : List Word :=
  (List.range (2 ^ k)).map fun r => BitVec.ofNat 64 (powMod root (bitrev r k) q)

/-- The pre-multipliers of an array's entries (R147 to R149). -/
def scaledArray (q : Word) (entries : List Word) : List Word := entries.map fun w => shoupRatio w q

/-- The slices `raw[m..2m)` for `m = 2^(k-1), …, 2, 1`, one after the other (R150). -/
def reorderedSlices : (k : Nat) → (raw : List Word) → List Word
  | 0, _ => []
  | k + 1, raw => (raw.drop (2 ^ k)).take (2 ^ k) ++ reorderedSlices k raw

/-- The reordering of R150 of an array of `2^k` entries; offset 0 keeps the raw entry (R151). -/
def reorder (k : Nat) (raw : List Word) : List Word := raw.take 1 ++ reorderedSlices k raw

/-- The raw inverse roots (R148). -/
def rawInverseRoots (k rootInv q : Nat) : List Word := bitrevPowers k rootInv q

/-- The table of R152 for degree `2^k`, modulus `q`, root `root`, its inverse and the inverse of the degree. -/
def tableOf (k q root rootInv degreeInv : Nat) : Table :=
  let qw : Word := BitVec.ofNat 64 q
  let forward := bitrevPowers k root q
  let raw := rawInverseRoots k rootInv q
  let halved := raw.map fun w => div2Mod w qw
  { coeffCountPower := BitVec.ofNat 64 k
    coeffCount := BitVec.ofNat 64 (2 ^ k)
    modulus := qw
    invDegreeModulo := BitVec.ofNat 64 degreeInv
    rootPowers := forward
    scaledRootPowers := scaledArray qw forward
    invRootPowers := reorder k raw
    scaledInvRootPowers := reorder k (scaledArray qw raw)
    invRootPowersDivTwo := halved
    scaledInvRootPowersDivTwo := scaledArray qw halved }

/-- R142's range and primality checks together with R143's criterion that `2n` divides `q - 1`. All three fail with the
same code, so testing the criterion before primality is not observable (log 10). -/
def modulusSuits (k q : Nat) : Bool :=
  1 < q ∧ q < 2 ^ 62 ∧ (q - 1) % (2 * 2 ^ k) = 0 ∧ isPrime q = true

/-- The steps R142 to R151 for a degree in range: the table, or `none` when the modulus is unsuitable. -/
def buildForDegree (k q : Nat) : Option Table :=
  if modulusSuits k q then
    match minimalPrimitiveRoot (2 ^ k) q with
    | none => none
    | some root =>
      match inverseMod root q, inverseMod (2 ^ k) q with
      | some rootInv, some degreeInv => some (tableOf k q root rootInv degreeInv)
      | _, _ => none
  else none

/-- The degree check of R141. -/
def degreeInRange (p : Params) (k : Nat) : Bool := p.logNMin ≤ k ∧ k ≤ p.logNMax

/-- TBL_BUILD (R155). A failing build leaves the table uninitialized, whatever it was before (R153). -/
def execTblBuild (s : State) : Result :=
  if degreeInRange s.params (s.arg 0).toNat then
    match buildForDegree (s.arg 0).toNat (s.arg 1).toNat with
    | some t => .next (State.complete .ok { s with tbl := some t })
    | none => raise .unsuitableModulus { s with tbl := none }
  else raise .invalidParameters { s with tbl := none }

/-- TBL_GET_ARRAY (R160) on the array the command selects. -/
def getArray (array : Table → List Word) (s : State) : Result :=
  match s.tbl with
  | none => raise .notInitialized s
  | some t =>
    if t.coeffCount.toNat ≤ (s.arg 0).toNat then raise .indexOutOfRange s
    else
      match (array t)[(s.arg 0).toNat]? with
      | some v => .next (s.finishOne v)
      | none => .fault .tableIncoherent

/-- TBL_GET_ARRAY.ROOT (R161). -/
def execGetRoot (s : State) : Result := getArray Table.rootPowers s

/-- TBL_GET_ARRAY.SCALED_ROOT (R162). -/
def execGetScaledRoot (s : State) : Result := getArray Table.scaledRootPowers s

/-- TBL_GET_ARRAY.INV_ROOT (R163). -/
def execGetInvRoot (s : State) : Result := getArray Table.invRootPowers s

/-- TBL_GET_ARRAY.SCALED_INV_ROOT (R164). -/
def execGetScaledInvRoot (s : State) : Result := getArray Table.scaledInvRootPowers s

/-- TBL_GET_ARRAY.INV_ROOT_DIV2 (R165). -/
def execGetInvRootDiv2 (s : State) : Result := getArray Table.invRootPowersDivTwo s

/-- TBL_GET_ARRAY.SCALED_INV_ROOT_DIV2 (R166). -/
def execGetScaledInvRootDiv2 (s : State) : Result := getArray Table.scaledInvRootPowersDivTwo s

/-- TBL_GET_SCALAR (R167) of the scalar the command selects; an uninitialized table's scalars are 0 (R31). -/
def getScalar (scalar : Table → Word) (s : State) : Result :=
  .next (s.finishOne (match s.tbl with
    | some t => scalar t
    | none => 0))

/-- TBL_GET_SCALAR.INV_DEGREE (R168). -/
def execGetInvDegree (s : State) : Result := getScalar Table.invDegreeModulo s

/-- TBL_GET_SCALAR.MODULUS (R169). -/
def execGetModulus (s : State) : Result := getScalar Table.modulus s

/-- TBL_GET_SCALAR.COEFF_COUNT_POWER (R170). -/
def execGetCoeffCountPower (s : State) : Result := getScalar Table.coeffCountPower s

/-- TBL_GET_SCALAR.COEFF_COUNT (R171). -/
def execGetCoeffCount (s : State) : Result := getScalar Table.coeffCount s

/-- TBL_GET_SCALAR.IS_INITIALIZED (R172). -/
def execGetIsInitialized (s : State) : Result := getScalar (fun _ => 1) s

end Sys2Proof.Machine
end

