-- ==== Sys2Proof/Machine/Dispatch.lean ====
section
/-! DEFINITION. Sys2Proof/Machine/Dispatch.lean: the meaning of each command. -/

namespace Sys2Proof.Machine

def exec (i : Instr) (s : State) : Host.Outcome State Fault Refusal :=
  match i with
  | .tblBuild => Sys2Proof.Machine.execTblBuild s
  | .clrErr => Sys2Proof.Machine.execClrErr s
  | .nttFwd => Sys2Proof.Machine.execNttFwd s
  | .nttInv => Sys2Proof.Machine.execNttInv s
  | .getRoot => Sys2Proof.Machine.execGetRoot s
  | .getScaledRoot => Sys2Proof.Machine.execGetScaledRoot s
  | .getInvRoot => Sys2Proof.Machine.execGetInvRoot s
  | .getScaledInvRoot => Sys2Proof.Machine.execGetScaledInvRoot s
  | .getInvRootDiv2 => Sys2Proof.Machine.execGetInvRootDiv2 s
  | .getScaledInvRootDiv2 => Sys2Proof.Machine.execGetScaledInvRootDiv2 s
  | .getInvDegree => Sys2Proof.Machine.execGetInvDegree s
  | .getModulus => Sys2Proof.Machine.execGetModulus s
  | .getCoeffCountPower => Sys2Proof.Machine.execGetCoeffCountPower s
  | .getCoeffCount => Sys2Proof.Machine.execGetCoeffCount s
  | .getIsInitialized => Sys2Proof.Machine.execGetIsInitialized s
  | .mulHi => Sys2Proof.Machine.execMulHi s
  | .mulMod => Sys2Proof.Machine.execMulMod s
  | .shoupRatio => Sys2Proof.Machine.execShoupRatio s
  | .div128By64 => Sys2Proof.Machine.execDiv128By64 s
  | .div2Mod => Sys2Proof.Machine.execDiv2Mod s
  | .shoupMul => Sys2Proof.Machine.execShoupMul s
  | .bitReverse => Sys2Proof.Machine.execBitReverse s
  | .bflyFwd => Sys2Proof.Machine.execBflyFwd s
  | .bflyInv => Sys2Proof.Machine.execBflyInv s
  | .bflyInvFinal => Sys2Proof.Machine.execBflyInvFinal s

end Sys2Proof.Machine
end

