-- ==== Sys2Proof/Machine/Bus.lean ====
section
/-! DEFINITION. Sys2Proof/Machine/Bus.lean: the host port (R50 to R57, R69): which part of the block an access reaches and
what it does there, and the one event a step takes from the port (R60, R61). -/

namespace Sys2Proof.Machine

/-- The part of the block a host access reaches (R51, R52). -/
inductive Target where
  | cmd
  | status
  | arg (i : Fin 5)
  | res (i : Fin 2)
  | caps
  /-- A reserved offset of the register window (R56). -/
  | reserved
  /-- Word `j` of the buffer window (R57). -/
  | buf (j : Nat)
  /-- An access the block answers with a bus error (R54, R55). -/
  | refused
  /-- An address outside the block's range (log 3). -/
  | outside
  deriving DecidableEq, Repr

/-- The register at word `n` of the register window (R52). -/
def registerAt : (n : Nat) → Target
  | 0 => .cmd
  | 1 => .status
  | 2 => .arg 0
  | 3 => .arg 1
  | 4 => .arg 2
  | 5 => .arg 3
  | 6 => .arg 4
  | 7 => .res 0
  | 8 => .res 1
  | 9 => .caps
  | _ => .reserved

/-- The target of an access at an offset inside the block's range (R51 to R55). -/
def targetAt (p : Params) (off size : Nat) : Target :=
  if size ≠ 8 ∨ off % 8 ≠ 0 then .refused
  else if off < 0x100 then registerAt (off / 8)
  else if bufOffset 0 ≤ off ∧ off < bufOffset p.nMax then .buf ((off - bufOffset 0) / 8)
  else .refused

/-- The target of an access at a byte address of the host bus: the block occupies `[BASE, BASE + 2^21)` (R51). -/
def busTarget (p : Params) (addr size : Nat) : Target :=
  if p.base ≤ addr ∧ addr < p.base + 2 ^ 21 then targetAt p (addr - p.base) size else .outside

/-- The access is over and the host gets this back (R69). -/
def State.reply (s : State) (r : Reply) : State := { s with replies := r :: s.replies }

/-- A host read (R52, R56, R57). It changes no state of the block but what `readBuf` records (R64). -/
def hostRead (t : Target) (s : State) : State :=
  match t with
  | .cmd => s.reply (.data 0)
  | .status => s.reply (.data s.statusWord)
  | .arg i => s.reply (.data (s.arg i))
  | .res 0 => s.reply (.data s.res0)
  | .res 1 => s.reply (.data s.res1)
  | .caps => s.reply (.data (capsWord s.params))
  | .reserved => s.reply (.data 0)
  | .buf j => (readBuf j s).2.reply (.data (readBuf j s).1)
  | .refused => s.reply .busError
  | .outside => s.reply .unclaimed

/-- A host write anywhere but to `CMD` (R52, R56, R57). -/
def hostWrite (t : Target) (v : Word) (s : State) : State :=
  match t with
  | .cmd | .status | .res _ | .caps | .reserved => s.reply .written
  | .arg i => (s.setArg i v).reply .written
  | .buf j => (writeBuf j v s).reply .written
  | .refused => s.reply .busError
  | .outside => s.reply .unclaimed

/-- A host write of `w` to `CMD`: the write completes normally in every case (R240) and the word's command runs to
completion (R26, R60); an illegal word completes with ILLEGAL_COMMAND (R231). -/
def runCommandWord (w : Word) (s : State) : Result :=
  match decode (bytesOfWord w) with
  | .ok i => exec i (s.reply .written)
  | .error _ => illegalCommand (s.reply .written)

/-- One event at the block's edge (R61, R69, R270). -/
def runEvent (e : HostEvent) (s : State) : Result :=
  match e with
  | .read addr size => .next (hostRead (busTarget s.params addr size) s)
  | .write addr size v =>
    if busTarget s.params addr size = .cmd then runCommandWord v s
    else .next (hostWrite (busTarget s.params addr size) v s)
  | .reset => .next (platformReset s)

/-- The host write of an instruction's word to `CMD` (R26, R52). -/
def commandWrite (p : Params) (nbits w : Nat) : HostEvent :=
  .write p.base (fetchBytes nbits) (BitVec.ofNat 64 (w % 2 ^ nbits))

end Sys2Proof.Machine
end

