-- ==== Sys2Proof/Machine/Step.lean ====
section
/-! DEFINITION. Sys2Proof/Machine/Step.lean: one step of the machine. The block fetches nothing (R28): a step takes the next
event from the port, and with none there the block is idle (R256). -/

namespace Sys2Proof.Machine

/-- One step: the first event of the inbox, run to completion (R60, R61). -/
def step (s : State) : Host.Outcome State Fault Refusal :=
  match s.inbox with
  | [] => .next s
  | e :: rest => runEvent e { s with inbox := rest }

/-- The state with a host write of the instruction's word to `CMD` as the next event at the port (log 2). -/
def State.withFetchWord (s : State) (nbits w : Nat) : State :=
  { s with inbox := commandWrite s.params nbits w :: s.inbox }

end Sys2Proof.Machine
end

