-- ==== Sys2Proof/Safety.lean ====
section
/-! DEFINITION. Sys2Proof/Safety.lean: the terms statements use: the invariant of the model, runs inside the contract
(R250), primitive roots as R17 defines them, and the index loops of the passes word for word from R183, R206 and R207. -/

namespace Sys2Proof.Machine

/-- The memory holds bytes of the buffer window only (R51), whole words at a time (R53), in canonical form. -/
def memoryInv (p : Params) (m : List Host.Cell) : Prop :=
  Memory.wf m ∧
    ∀ c ∈ m, bufOffset 0 ≤ c.1 ∧ c.1 < bufOffset p.nMax ∧
      (Memory.bufWord m ((c.1 - bufOffset 0) / 8)).isSome = true

/-- An initialized table is the one TBL_BUILD makes of its own degree and modulus (R36, R152, R173). -/
def tableInv (p : Params) (tbl : Option Table) : Prop :=
  ∀ t, tbl = some t →
    degreeInRange p t.coeffCountPower.toNat = true ∧
      buildForDegree t.coeffCountPower.toNat t.modulus.toNat = some t

/-- The invariant of the model: legal parameters (R7), memory in canonical form, a table only TBL_BUILD can have made. -/
def Inv (s : State) : Prop :=
  s.params.wellFormed = true ∧ memoryInv s.params s.mem ∧ tableInv s.params s.tbl

/-- A state whose run has kept to the source's contract so far: its fault record is empty (R250). -/
def inContract (s : State) : Prop := s.faults = FaultRecord.empty

/-- `a` holds the words of `BUF[0..n)`, every one of them written since reset (R38, R39, R273). -/
def holdsBuffer (s : State) (n : Nat) (a : Nat → Nat) : Prop :=
  ∀ j < n, ∃ w, Memory.bufWord s.mem j = some w ∧ w.toNat = a j

/-- How many of the words `BUF[0..j)` have never been written since reset (R39). -/
def unwrittenBelow (s : State) (j : Nat) : Nat := (List.range j).countP fun i => s.written i = false

/-- The value a pass that starts in `s` reads at `BUF[j]`: the word written last, or the free value `BUF_UNWRITTEN` says
(R57, R185, R209): the stored word (log 5), or the next draw in rising order of the unwritten words (log 6, 7). -/
def passInput (s : State) (j : Nat) : Word :=
  match Memory.bufWord s.mem j with
  | some w => w
  | none =>
    match s.params.bufUnwritten with
    | .fault => Config.storedWord s.resetEpoch j
    | .draw => Config.drawnWord (s.draws + unwrittenBelow s j)

/-- `x` is a primitive `2n`-th root of unity modulo `q` (R17). -/
def isRootOfUnity (n q x : Nat) : Prop :=
  x ^ (2 * n) % q = 1 % q ∧ ∀ j, 0 < j → j < 2 * n → x ^ j % q ≠ 1 % q

/-- `x` is the least natural in `[1, q)` that is a primitive `2n`-th root of unity modulo `q` (R143). -/
def isLeastRoot (n q x : Nat) : Prop :=
  (1 ≤ x ∧ x < q ∧ isRootOfUnity n q x) ∧ ∀ y, 1 ≤ y → y < q → isRootOfUnity n q y → x ≤ y

/-- Entry `i` of an array exists and has the value `v`. -/
def hasEntry (a : List Word) (i v : Nat) : Prop := ∃ w, a[i]? = some w ∧ w.toNat = v

/-- The contents of an initialized table built from `k = log n` and `q`, as R32 to R36 state them: `ψ` is the least
primitive `2n`-th root, `ψinv` its inverse, and `raw` the inverse roots in bit-reversed order. -/
def tableMatchesRules (k q : Nat) (t : Table) (ψ ψinv : Nat) (raw : Nat → Nat) : Prop :=
  (t.coeffCountPower.toNat = k ∧ t.coeffCount.toNat = 2 ^ k ∧ t.modulus.toNat = q) ∧
  (t.invDegreeModulo.toNat < q ∧ t.invDegreeModulo.toNat * 2 ^ k % q = 1) ∧
  (isLeastRoot (2 ^ k) q ψ ∧ 1 ≤ ψinv ∧ ψinv < q ∧ ψinv * ψ % q = 1) ∧
  (∀ i < 2 ^ k, raw (bitrev i k) = ψinv ^ i % q) ∧
  (∀ a ∈ [t.rootPowers, t.scaledRootPowers, t.invRootPowers, t.scaledInvRootPowers, t.invRootPowersDivTwo,
    t.scaledInvRootPowersDivTwo], a.length = 2 ^ k) ∧
  (∀ i < 2 ^ k, hasEntry t.rootPowers (bitrev i k) (ψ ^ i % q)) ∧
  (∀ r < 2 ^ k, ∀ v, hasEntry t.rootPowers r v → hasEntry t.scaledRootPowers r (v * 2 ^ 64 / q)) ∧
  hasEntry t.invRootPowers 0 1 ∧
  (∀ j < k, ∀ i < 2 ^ j, hasEntry t.invRootPowers (2 ^ k - 2 * 2 ^ j + 1 + i) (raw (2 ^ j + i))) ∧
  (∀ r < 2 ^ k, ∀ v, hasEntry t.invRootPowers r v → hasEntry t.scaledInvRootPowers r (v * 2 ^ 64 / q)) ∧
  (∀ r < 2 ^ k,
    hasEntry t.invRootPowersDivTwo r (if raw r % 2 = 0 then raw r / 2 else (raw r + q) / 2)) ∧
  (∀ r < 2 ^ k, ∀ v, hasEntry t.invRootPowersDivTwo r v → hasEntry t.scaledInvRootPowersDivTwo r (v * 2 ^ 64 / q))

/-- Every byte of memory outside `BUF[0..n)` reads as before. -/
def sameOutsideBuffer (n : Nat) (s u : State) : Prop :=
  ∀ x, x < bufOffset 0 ∨ bufOffset n ≤ x → Memory.readByte u.mem x = Memory.readByte s.mem x

/-- `(a[j], a[j']) <- bfly(a[j], a[j'])`, both words read before either is written (R183). -/
def butterflyAt (bfly : Word → Word → Word × Word) (j j' : Nat) (a : Nat → Word) : Nat → Word :=
  fun i => if i = j then (bfly (a j) (a j')).1 else if i = j' then (bfly (a j) (a j')).2 else a i

/-- `for i in 0..count-1: a <- body(i, a)` (R16). -/
def forLoop (count : Nat) (body : Nat → (Nat → Word) → Nat → Word) (a : Nat → Word) : Nat → Word :=
  (List.range count).foldl (fun acc i => body i acc) a

/-- The forward pass as R183 writes it: at stage `m = 2^s`, `t = n / (2m)`, block `i` starts at `j1 = 2·t·i` and uses
`rp[m + i]`, `srp[m + i]`. -/
def forwardLoops (tb : Table) (a : Nat → Word) : Nat → Word :=
  forLoop tb.coeffCountPower.toNat
    (fun s =>
      forLoop (2 ^ s) fun i =>
        forLoop (tb.coeffCount.toNat / (2 * 2 ^ s)) fun d =>
          butterflyAt
            (fun x y => bflyFwd x y (tb.rootPowers.getD (2 ^ s + i) 0) (tb.scaledRootPowers.getD (2 ^ s + i) 0)
              tb.modulus)
            (2 * (tb.coeffCount.toNat / (2 * 2 ^ s)) * i + d)
            (2 * (tb.coeffCount.toNat / (2 * 2 ^ s)) * i + d + tb.coeffCount.toNat / (2 * 2 ^ s)))
    a

/-- The inverse pass as R206 and R207 write it: at main stage `s`, `t = 2^s` and `m = n / (2t)`, block `i` reads offset
`n − 2m + 1 + i`; the final stage reads offset `n − 1`. -/
def inverseLoops (tb : Table) (a : Nat → Word) : Nat → Word :=
  let n := tb.coeffCount.toNat
  let invNW := mulMod tb.invDegreeModulo (tb.invRootPowers.getD (n - 1) 0) tb.modulus
  forLoop (n / 2)
    (fun j => butterflyAt (fun x y => bflyInvFinal x y tb.invDegreeModulo invNW tb.modulus) j (j + n / 2))
    (forLoop (tb.coeffCountPower.toNat - 1)
      (fun s =>
        forLoop (n / (2 * 2 ^ s)) fun i =>
          forLoop (2 ^ s) fun d =>
            butterflyAt
              (fun x y =>
                bflyInv x y (tb.invRootPowers.getD (n - 2 * (n / (2 * 2 ^ s)) + 1 + i) 0)
                  (tb.scaledInvRootPowers.getD (n - 2 * (n / (2 * 2 ^ s)) + 1 + i) 0) tb.modulus)
              (2 * 2 ^ s * i + d) (2 * 2 ^ s * i + d + 2 ^ s))
      a)

end Sys2Proof.Machine
end

