-- ==== Sys2Proof/Certificates/Slice0/Obligations.lean ====
section
/-! DEFINITION. Sys2Proof/Certificates/Slice0/Obligations.lean: the statements for the provers. Each docstring names the rules
of spec/ it rests on; OBLIGATIONS.json has the same list. -/

open Sys2Proof Sys2Proof.Machine

/-! ## Encoding -/

/-- R85 to R88: one word of each family, written from the encoding tables, and one illegal word of each kind. -/
def Obligations.WordsOfEachFamilyDecode : Prop :=
  decodeTableWord 64 0x01 = some .tblBuild ∧ decodeTableWord 64 0x02 = some .clrErr ∧
    decodeTableWord 64 0x11 = some .nttInv ∧ decodeTableWord 64 0x320 = some .getScaledInvRoot ∧
    decodeTableWord 64 0x421 = some .getIsInitialized ∧ decodeTableWord 64 0x38 = some .bitReverse ∧
    decodeTableWord 64 0x42 = some .bflyInvFinal ∧ decodeTableWord 64 0x00 = none ∧ decodeTableWord 64 0x110 = none ∧
    decodeTableWord 64 0x620 = none ∧ decodeTableWord 64 0x1000000000010 = none

/-- R58, R85 to R91: a list of bytes decodes to a command exactly when it is that command's encoding, so decoding an
encoded command gives it back and nothing else decodes to it. -/
def Obligations.DecodeIsInverseOfEncode : Prop :=
  ∀ (bs : List Byte) (i : Instr), decode bs = .ok i ↔ bs = encode i

/-- R88: a word decodes to no command exactly under R88's conditions, and writing such a word to `CMD` completes with
ILLEGAL_COMMAND and nothing else. -/
def Obligations.IllegalWordsAreThoseOfTheRule : Prop :=
  ∀ w : Word,
    ((∀ i, decodeWord w ≠ .ok i) ↔
      (w.toNat / 2 ^ 16 ≠ 0 ∨
        (w.toNat % 2 ^ 8 ∉ plainOpcodes ∧ w.toNat % 2 ^ 8 ≠ 0x20 ∧ w.toNat % 2 ^ 8 ≠ 0x21) ∨
        (w.toNat % 2 ^ 8 = 0x20 ∧ 5 < w.toNat / 2 ^ 8 % 2 ^ 8) ∨
        (w.toNat % 2 ^ 8 = 0x21 ∧ 4 < w.toNat / 2 ^ 8 % 2 ^ 8) ∨
        (w.toNat % 2 ^ 8 ∈ plainOpcodes ∧ w.toNat / 2 ^ 8 % 2 ^ 8 ≠ 0))) ∧
    ((∀ i, decodeWord w ≠ .ok i) → ∀ s,
      runCommandWord w s =
        .next { s with replies := .written :: s.replies, code := .illegalCommand, err := true })

/-! ## Steps and the host port -/

/-- R26, R60: a host write of a word that decodes to `i` to `CMD` makes the step `exec i`, on the state whose port has
moved past the write and whose host has its reply. -/
def Obligations.StepRunsTheDecodedCommand : Prop :=
  ∀ (s : State) (rest : List HostEvent) (v : Word) (i : Instr),
    s.inbox = .write s.params.base 8 v :: rest → decodeWord v = .ok i →
      step s = exec i { s with inbox := rest, replies := .written :: s.replies }

/-- R231: a host write to `CMD` of an illegal word sets `CODE` to ILLEGAL_COMMAND, which reads 6, and `ERR`, and nothing
else. -/
def Obligations.IllegalCommandWordCompletes : Prop :=
  ∀ (s : State) (rest : List HostEvent) (v : Word),
    s.inbox = .write s.params.base 8 v :: rest → CmdWord.wellFormed v = false →
      ∃ u, step s = .next u ∧
        u = { s with inbox := rest, replies := .written :: s.replies, code := .illegalCommand, err := true } ∧
        u.statusWord.toNat % 2 ^ 8 = 6

/-- R21 to R24, R26, R27, R52, R56: what an aligned 8-byte read of the register window returns, and that it changes nothing
else. The value of `STATUS` is its three fields, with R24's number for each code, that of `CAPS` the two degree bounds. -/
def Obligations.HostReadsTheRegisterWindow : Prop :=
  ∀ (s : State) (rest : List HostEvent) (off : Nat), s.params.wellFormed = true → off < 0x100 → off % 8 = 0 →
    s.inbox = .read (s.params.base + off) 8 :: rest →
      ∃ v : Word, step s = .next { s with inbox := rest, replies := .data v :: s.replies } ∧
        (off = 0x00 → v = 0) ∧
        (off = 0x08 → v.toNat =
          (match s.code with
            | .ok => 0
            | .invalidParameters => 1
            | .unsuitableModulus => 2
            | .notInitialized => 3
            | .indexOutOfRange => 4
            | .domainError => 5
            | .illegalCommand => 6) +
          2 ^ 8 * (if s.tbl = none then 0 else 1) + 2 ^ 9 * (if s.err = true then 1 else 0)) ∧
        (off = 0x10 → v = s.arg0) ∧ (off = 0x18 → v = s.arg1) ∧ (off = 0x20 → v = s.arg2) ∧
        (off = 0x28 → v = s.arg3) ∧ (off = 0x30 → v = s.arg4) ∧
        (off = 0x38 → v = s.res0) ∧ (off = 0x40 → v = s.res1) ∧
        (off = 0x48 → v.toNat = s.params.logNMin + 2 ^ 8 * s.params.logNMax) ∧
        (0x50 ≤ off → v = 0)

/-- R21, R52, R56: an aligned 8-byte write of the register window elsewhere than to `CMD` stores into `ARG[i]` at its
offset and is ignored everywhere else; it completes normally. -/
def Obligations.HostWritesTheRegisterWindow : Prop :=
  ∀ (s : State) (rest : List HostEvent) (off : Nat) (v : Word), 0 < off → off < 0x100 → off % 8 = 0 →
    s.inbox = .write (s.params.base + off) 8 v :: rest →
      step s = .next { s with
        inbox := rest
        replies := .written :: s.replies
        arg0 := if off = 0x10 then v else s.arg0
        arg1 := if off = 0x18 then v else s.arg1
        arg2 := if off = 0x20 then v else s.arg2
        arg3 := if off = 0x28 then v else s.arg3
        arg4 := if off = 0x30 then v else s.arg4 }

/-- R54, R55: an access of another size, at a misaligned offset or at an unmapped offset gets a bus error and changes
nothing. -/
def Obligations.RefusedAccessesChangeNothing : Prop :=
  ∀ (s : State) (rest : List HostEvent) (off size : Nat) (v : Word), s.params.wellFormed = true → off < 2 ^ 21 →
    (size ≠ 8 ∨ off % 8 ≠ 0 ∨ (0x100 ≤ off ∧ off < 0x100000) ∨ 0x100000 + 8 * 2 ^ s.params.logNMax ≤ off) →
    (s.inbox = .read (s.params.base + off) size :: rest ∨ s.inbox = .write (s.params.base + off) size v :: rest) →
      step s = .next { s with inbox := rest, replies := .busError :: s.replies }

/-- R57: the buffer window. A write stores the word and sets its flag, leaving every other byte and word alone; a read of a
written word returns it; a read of an unwritten word returns a free value, the stored word and a record of the read under
`fault`, a draw and no record under `draw`. That the buffer is kept as bytes by block offset (log 4), the form of the stored
word (log 5) and the form and the count of the draws (log 6) are the model's choice. -/
def Obligations.BufferWindowReadsAndWrites : Prop :=
  ∀ (s : State) (rest : List HostEvent) (j : Nat), s.params.wellFormed = true → j < 2 ^ s.params.logNMax →
    (∀ v, s.inbox = .write (s.params.base + (0x100000 + 8 * j)) 8 v :: rest →
      ∃ u, step s = .next u ∧
        u = { s with inbox := rest, replies := .written :: s.replies, mem := u.mem } ∧
        Memory.bufWord u.mem j = some v ∧ u.written j = true ∧
        (∀ i, i ≠ j → Memory.bufWord u.mem i = Memory.bufWord s.mem i) ∧
        (∀ x, x < 0x100000 + 8 * j ∨ 0x100000 + 8 * j + 8 ≤ x →
          Memory.readByte u.mem x = Memory.readByte s.mem x)) ∧
    (s.inbox = .read (s.params.base + (0x100000 + 8 * j)) 8 :: rest →
      (∀ v, Memory.bufWord s.mem j = some v →
        step s = .next { s with inbox := rest, replies := .data v :: s.replies }) ∧
      (s.written j = false → s.params.bufUnwritten = .fault →
        step s = .next { s with
          inbox := rest
          replies := .data (Config.storedWord s.resetEpoch j) :: s.replies
          faults := { s.faults with unwrittenRead := true } }) ∧
      (s.written j = false → s.params.bufUnwritten = .draw →
        step s = .next { s with
          inbox := rest
          replies := .data (Config.drawnWord s.draws) :: s.replies
          draws := s.draws + 1 }))

/-- R58: byte `b` of a buffer word written by the host is bits `[8b+7 : 8b]` of the word, at the word's offset plus `b`. -/
def Obligations.BufferBytesAreLittleEndian : Prop :=
  ∀ (s u : State) (rest : List HostEvent) (j b : Nat) (v : Word), s.params.wellFormed = true →
    j < 2 ^ s.params.logNMax → b < 8 →
    s.inbox = .write (s.params.base + (0x100000 + 8 * j)) 8 v :: rest → step s = .next u →
      Memory.readByte u.mem (0x100000 + 8 * j + b) = some (v.extractLsb' (8 * b) 8)

/-- R64: no read changes the block. Whatever the read, the step gives a next state that differs in the port's two lists and,
for an unwritten word, in the model's fault record or draw counter only; the draws change only under `draw`. -/
def Obligations.ReadsHaveNoSideEffects : Prop :=
  ∀ (s : State) (rest : List HostEvent) (addr size : Nat), s.inbox = .read addr size :: rest →
    ∃ u r, step s = .next u ∧
      u = { s with inbox := rest, replies := r :: s.replies, faults := u.faults, draws := u.draws } ∧
      (u.draws ≠ s.draws → s.params.bufUnwritten = .draw) ∧
      (u.faults ≠ s.faults → s.params.bufUnwritten = .fault)

/-- R42: after a reset the registers are 0, `STATUS` reads 0, `CAPS` keeps its value, the table is uninitialized, no buffer
word is written and the fault record is empty; the same holds of `State.reset`. -/
def Obligations.ResetLeavesTheResetValues : Prop :=
  (∀ (s : State) (rest : List HostEvent), s.inbox = .reset :: rest →
    ∃ u, step s = .next u ∧
      (∀ i, u.arg i = 0) ∧ u.res0 = 0 ∧ u.res1 = 0 ∧ u.statusWord = 0 ∧ u.code = .ok ∧ u.err = false ∧
      capsWord u.params = capsWord s.params ∧ u.tbl = none ∧ (∀ j, u.written j = false) ∧ inContract u) ∧
  ((∀ i, State.reset.arg i = 0) ∧ State.reset.res0 = 0 ∧ State.reset.res1 = 0 ∧ State.reset.statusWord = 0 ∧
    State.reset.code = .ok ∧ State.reset.err = false ∧ State.reset.tbl = none ∧
    (∀ j, State.reset.written j = false) ∧ inContract State.reset)

/-- The model's choice (log 9): a reset is an event of the port. It keeps the parameters, the events after it, the replies
before it and the count of draws, and it begins a new epoch of the buffer's unspecified contents (log 5). -/
def Obligations.ResetKeepsThePort : Prop :=
  ∀ (s : State) (rest : List HostEvent), s.inbox = .reset :: rest →
    ∃ u, step s = .next u ∧ u.params = s.params ∧ u.inbox = rest ∧ u.replies = s.replies ∧ u.draws = s.draws ∧
      u.resetEpoch = s.resetEpoch + 1

/-! ## Arithmetic primitives -/

/-- R110: MUL_HI writes the high word of the exact product to `RES[0]`, completes with `OK` and changes nothing else. -/
def Obligations.MulHiResult : Prop :=
  decodeWord 0x30 = .ok .mulHi ∧
  ∀ s : State, ∃ u, exec .mulHi s = .next u ∧ u = { s with res0 := u.res0, code := .ok } ∧
    u.res0.toNat = s.arg0.toNat * s.arg1.toNat / 2 ^ 64

/-- R111: MUL_MOD writes the exact remainder when `q ≠ 0`, and fails with DOMAIN_ERROR when `q = 0`. -/
def Obligations.MulModResult : Prop :=
  decodeWord 0x31 = .ok .mulMod ∧
  ∀ s : State,
    (s.arg2.toNat ≠ 0 → ∃ u, exec .mulMod s = .next u ∧ u = { s with res0 := u.res0, code := .ok } ∧
      u.res0.toNat = s.arg0.toNat * s.arg1.toNat % s.arg2.toNat) ∧
    (s.arg2.toNat = 0 → exec .mulMod s = .next { s with code := .domainError, err := true })

/-- R112: SHOUP_RATIO writes `⌊w · 2^64 / q⌋` when `w < q`, and fails with DOMAIN_ERROR when `q = 0` or `w ≥ q`. -/
def Obligations.ShoupRatioResult : Prop :=
  decodeWord 0x32 = .ok .shoupRatio ∧
  ∀ s : State,
    (s.arg1.toNat ≠ 0 ∧ s.arg0.toNat < s.arg1.toNat →
      ∃ u, exec .shoupRatio s = .next u ∧ u = { s with res0 := u.res0, code := .ok } ∧
        u.res0.toNat = s.arg0.toNat * 2 ^ 64 / s.arg1.toNat) ∧
    (s.arg1.toNat = 0 ∨ s.arg1.toNat ≤ s.arg0.toNat →
      exec .shoupRatio s = .next { s with code := .domainError, err := true })

/-- R59, R113: DIV128_BY_64 writes the low and the high word of the exact quotient of `ARG[1] · 2^64 + ARG[0]` by `d`, and
fails with DOMAIN_ERROR when `d = 0`. -/
def Obligations.Div128By64Result : Prop :=
  decodeWord 0x33 = .ok .div128By64 ∧
  ∀ s : State,
    (s.arg2.toNat ≠ 0 →
      ∃ u, exec .div128By64 s = .next u ∧ u = { s with res0 := u.res0, res1 := u.res1, code := .ok } ∧
        u.res1.toNat * 2 ^ 64 + u.res0.toNat = (s.arg1.toNat * 2 ^ 64 + s.arg0.toNat) / s.arg2.toNat) ∧
    (s.arg2.toNat = 0 → exec .div128By64 s = .next { s with code := .domainError, err := true })

/-- R104, R114: DIV2_MOD writes the half of `x` modulo an odd `q` above it: the `h` in `[0, q)` with `2h ≡ x (mod q)`, by
the formula of R104; otherwise DOMAIN_ERROR. -/
def Obligations.Div2ModResult : Prop :=
  decodeWord 0x34 = .ok .div2Mod ∧
  ∀ s : State,
    (s.arg1.toNat % 2 = 1 ∧ s.arg0.toNat < s.arg1.toNat →
      ∃ u, exec .div2Mod s = .next u ∧ u = { s with res0 := u.res0, code := .ok } ∧
        u.res0.toNat =
          (if s.arg0.toNat % 2 = 0 then s.arg0.toNat / 2 else (s.arg0.toNat + s.arg1.toNat) / 2) ∧
        u.res0.toNat < s.arg1.toNat ∧ 2 * u.res0.toNat % s.arg1.toNat = s.arg0.toNat) ∧
    (s.arg1.toNat % 2 = 0 ∨ s.arg1.toNat ≤ s.arg0.toNat →
      exec .div2Mod s = .next { s with code := .domainError, err := true })

/-- R106, R115: SHOUP_MUL writes `W·Y − ⌊W′·Y / 2^64⌋·q` reduced once modulo `2^64`, for every operand. -/
def Obligations.ShoupMulResult : Prop :=
  decodeWord 0x35 = .ok .shoupMul ∧
  ∀ s : State, ∃ u, exec .shoupMul s = .next u ∧ u = { s with res0 := u.res0, code := .ok } ∧
    (u.res0.toNat : ℤ) =
      ((s.arg0.toNat : ℤ) * s.arg2.toNat - ((s.arg1.toNat * s.arg2.toNat / 2 ^ 64 : ℕ) : ℤ) * s.arg3.toNat) % 2 ^ 64

/-- R105, R116: BIT_REVERSE writes the sum that reverses the low `k` bits when `k ≤ 64`; otherwise DOMAIN_ERROR. -/
def Obligations.BitReverseResult : Prop :=
  decodeWord 0x38 = .ok .bitReverse ∧
  ∀ s : State,
    (s.arg1.toNat ≤ 64 →
      ∃ u, exec .bitReverse s = .next u ∧ u = { s with res0 := u.res0, code := .ok } ∧
        u.res0.toNat =
          ∑ b ∈ Finset.range s.arg1.toNat, s.arg0.toNat / 2 ^ b % 2 * 2 ^ (s.arg1.toNat - 1 - b)) ∧
    (64 < s.arg1.toNat → exec .bitReverse s = .next { s with code := .domainError, err := true })

/-- R105, R117: the reversal of `k` bits is an involution on `[0, 2^k)`, and looks at the low `k` bits only. -/
def Obligations.BitReversalIsAnInvolution : Prop :=
  ∀ i k : Nat,
    bitrev i k < 2 ^ k ∧ bitrev i k = bitrev (i % 2 ^ k) k ∧ (i < 2 ^ k → bitrev (bitrev i k) k = i)

/-- R107: the Shoup bound. -/
def Obligations.ShoupProductBound : Prop :=
  ∀ w y q : Word, 0 < q.toNat → q.toNat < 2 ^ 63 → w.toNat < q.toNat →
    (shoupMul w (shoupRatio w q) y q).toNat < 2 * q.toNat ∧
    (shoupMul w (shoupRatio w q) y q).toNat % q.toNat = w.toNat * y.toNat % q.toNat

/-! ## Butterflies -/

/-- R180, R182: BFLY_FWD's two results, each expression evaluated exactly and reduced once modulo `2^64`. That this formula
also gives the result for `q = 0`, where R182's corner case says otherwise, is the model's choice (log 15). -/
def Obligations.BflyFwdResult : Prop :=
  decodeWord 0x40 = .ok .bflyFwd ∧
  ∀ s : State, ∃ u, exec .bflyFwd s = .next u ∧ u = { s with res0 := u.res0, res1 := u.res1, code := .ok } ∧
    ∃ q2 xr t : ℕ, q2 = 2 * s.arg4.toNat % 2 ^ 64 ∧ xr = (if q2 ≤ s.arg0.toNat then s.arg0.toNat - q2 else s.arg0.toNat) ∧
      (t : ℤ) = ((s.arg2.toNat : ℤ) * s.arg1.toNat -
        ((s.arg3.toNat * s.arg1.toNat / 2 ^ 64 : ℕ) : ℤ) * s.arg4.toNat) % 2 ^ 64 ∧
      u.res0.toNat = (xr + t) % 2 ^ 64 ∧ u.res1.toNat = (xr + q2 + 2 ^ 64 - t) % 2 ^ 64

/-- R200, R204: BFLY_INV's two results. -/
def Obligations.BflyInvResult : Prop :=
  decodeWord 0x41 = .ok .bflyInv ∧
  ∀ s : State, ∃ u, exec .bflyInv s = .next u ∧ u = { s with res0 := u.res0, res1 := u.res1, code := .ok } ∧
    ∃ q2 tx ty : ℕ, q2 = 2 * s.arg4.toNat % 2 ^ 64 ∧ tx = (s.arg0.toNat + s.arg1.toNat) % 2 ^ 64 ∧
      ty = (s.arg0.toNat + q2 + 2 ^ 64 - s.arg1.toNat) % 2 ^ 64 ∧
      u.res0.toNat = (if q2 ≤ tx then tx - q2 else tx) ∧
      (u.res1.toNat : ℤ) =
        ((s.arg2.toNat : ℤ) * ty - ((s.arg3.toNat * ty / 2 ^ 64 : ℕ) : ℤ) * s.arg4.toNat) % 2 ^ 64

/-- R202, R205: BFLY_INV_FINAL's two results inside its domain, and DOMAIN_ERROR outside it. -/
def Obligations.BflyInvFinalResult : Prop :=
  decodeWord 0x42 = .ok .bflyInvFinal ∧
  ∀ s : State,
    (s.arg4.toNat ≠ 0 ∧ s.arg2.toNat < s.arg4.toNat ∧ s.arg3.toNat < s.arg4.toNat →
      ∃ u, exec .bflyInvFinal s = .next u ∧ u = { s with res0 := u.res0, res1 := u.res1, code := .ok } ∧
        ∃ q2 sum tx ty : ℕ, q2 = 2 * s.arg4.toNat % 2 ^ 64 ∧ sum = (s.arg0.toNat + s.arg1.toNat) % 2 ^ 64 ∧
          tx = (if q2 ≤ sum then sum - q2 else sum) ∧ ty = (s.arg0.toNat + q2 + 2 ^ 64 - s.arg1.toNat) % 2 ^ 64 ∧
          (u.res0.toNat : ℤ) =
            ((s.arg2.toNat : ℤ) * tx -
              ((s.arg2.toNat * 2 ^ 64 / s.arg4.toNat * tx / 2 ^ 64 : ℕ) : ℤ) * s.arg4.toNat) % 2 ^ 64 ∧
          (u.res1.toNat : ℤ) =
            ((s.arg3.toNat : ℤ) * ty -
              ((s.arg3.toNat * 2 ^ 64 / s.arg4.toNat * ty / 2 ^ 64 : ℕ) : ℤ) * s.arg4.toNat) % 2 ^ 64) ∧
    (s.arg4.toNat = 0 ∨ s.arg4.toNat ≤ s.arg2.toNat ∨ s.arg4.toNat ≤ s.arg3.toNat →
      exec .bflyInvFinal s = .next { s with code := .domainError, err := true })

/-- R181: range and value of the forward butterfly. -/
def Obligations.ForwardButterflyRange : Prop :=
  ∀ x y w q : Word, 1 < q.toNat → q.toNat < 2 ^ 62 → w.toNat < q.toNat → x.toNat < 4 * q.toNat →
    (bflyFwd x y w (shoupRatio w q) q).1.toNat < 4 * q.toNat ∧
    0 < (bflyFwd x y w (shoupRatio w q) q).2.toNat ∧ (bflyFwd x y w (shoupRatio w q) q).2.toNat < 4 * q.toNat ∧
    ((bflyFwd x y w (shoupRatio w q) q).1.toNat : ℤ) ≡ x.toNat + w.toNat * y.toNat [ZMOD q.toNat] ∧
    ((bflyFwd x y w (shoupRatio w q) q).2.toNat : ℤ) ≡ x.toNat - w.toNat * y.toNat [ZMOD q.toNat]

/-- R201: range and value of the inverse butterfly, and that the range of the left result needs its bound on the inputs. -/
def Obligations.InverseButterflyRange : Prop :=
  (∀ x y w q : Word, 1 < q.toNat → q.toNat < 2 ^ 62 → w.toNat < q.toNat → x.toNat < 2 * q.toNat → y.toNat < 2 * q.toNat →
    (bflyInv x y w (shoupRatio w q) q).1.toNat < 2 * q.toNat ∧ (bflyInv x y w (shoupRatio w q) q).2.toNat < 2 * q.toNat ∧
    ((bflyInv x y w (shoupRatio w q) q).1.toNat : ℤ) ≡ x.toNat + y.toNat [ZMOD q.toNat] ∧
    ((bflyInv x y w (shoupRatio w q) q).2.toNat : ℤ) ≡ w.toNat * (x.toNat - y.toNat) [ZMOD q.toNat]) ∧
  (∃ x y w q : Word, 1 < q.toNat ∧ q.toNat < 2 ^ 62 ∧ w.toNat < q.toNat ∧ 2 * q.toNat ≤ x.toNat ∧ x.toNat < 4 * q.toNat ∧
    y.toNat < 2 * q.toNat ∧ 2 * q.toNat ≤ (bflyInv x y w (shoupRatio w q) q).1.toNat)

/-- R203: range and value of the final butterfly; its results are not always below `q`. -/
def Obligations.FinalButterflyRange : Prop :=
  (∀ x y invN invNW q : Word, 1 < q.toNat → q.toNat < 2 ^ 62 → invN.toNat < q.toNat → invNW.toNat < q.toNat →
    x.toNat < 2 * q.toNat → y.toNat < 2 * q.toNat →
    (bflyInvFinal x y invN invNW q).1.toNat < 2 * q.toNat ∧ (bflyInvFinal x y invN invNW q).2.toNat < 2 * q.toNat ∧
    ((bflyInvFinal x y invN invNW q).1.toNat : ℤ) ≡ invN.toNat * (x.toNat + y.toNat) [ZMOD q.toNat] ∧
    ((bflyInvFinal x y invN invNW q).2.toNat : ℤ) ≡ invNW.toNat * (x.toNat - y.toNat) [ZMOD q.toNat]) ∧
  (∃ x y invN invNW q : Word, 1 < q.toNat ∧ q.toNat < 2 ^ 62 ∧ invN.toNat < q.toNat ∧ invNW.toNat < q.toNat ∧
    x.toNat < 2 * q.toNat ∧ y.toNat < 2 * q.toNat ∧ q.toNat ≤ (bflyInvFinal x y invN invNW q).2.toNat)

/-! ## The table -/

/-- R141, R142, R143, R153: when TBL_BUILD fails. Whatever the table was before, it is uninitialized after; an
out-of-range `log n` is reported before anything about `q`. -/
def Obligations.TblBuildFails : Prop :=
  ∀ (s : State) (k q : Nat), s.arg0.toNat = k → s.arg1.toNat = q →
    (k < s.params.logNMin ∨ s.params.logNMax < k →
      exec .tblBuild s = .next { s with tbl := none, code := .invalidParameters, err := true }) ∧
    (s.params.logNMin ≤ k ∧ k ≤ s.params.logNMax →
      q ≤ 1 ∨ 2 ^ 62 ≤ q ∨ ¬ q.Prime ∨ (∀ x, 1 ≤ x → x < q → ¬ isRootOfUnity (2 ^ k) q x) →
      exec .tblBuild s = .next { s with tbl := none, code := .unsuitableModulus, err := true })

/-- R146 to R152, R155: on a degree in range and a prime `q < 2^62` with `q ≡ 1 (mod 2n)`, TBL_BUILD completes with `OK`,
replaces the table by one with the contents of R32 to R36, and changes nothing else. -/
def Obligations.TblBuildSucceeds : Prop :=
  decodeWord 0x01 = .ok .tblBuild ∧
  ∀ (s : State) (k q : Nat), s.params.wellFormed = true → s.arg0.toNat = k → s.arg1.toNat = q →
    s.params.logNMin ≤ k → k ≤ s.params.logNMax → q.Prime → q < 2 ^ 62 → q % (2 * 2 ^ k) = 1 →
      ∃ t u, exec .tblBuild s = .next u ∧ u = { s with tbl := some t, code := .ok } ∧
        u.statusWord.toNat / 2 ^ 8 % 2 = 1 ∧ ∃ ψ ψinv raw, tableMatchesRules k q t ψ ψinv raw

/-- R32 to R36: in every state of the invariant an initialized table has the contents the rules give, a degree within the
bounds and a modulus of R9. -/
def Obligations.InitializedTableContents : Prop :=
  ∀ (s : State) (t : Table), Inv s → s.tbl = some t →
    ∃ k q ψ ψinv raw, tableMatchesRules k q t ψ ψinv raw ∧
      s.params.logNMin ≤ k ∧ k ≤ s.params.logNMax ∧ q.Prime ∧ q < 2 ^ 62 ∧ q % (2 * 2 ^ k) = 1

/-- R156: the source's invariants of a built table. -/
def Obligations.BuiltTableProperties : Prop :=
  ∀ (s : State) (t : Table) (n q : Nat), Inv s → s.tbl = some t → t.coeffCount.toNat = n → t.modulus.toNat = q →
    (∃ ψ, isLeastRoot n q ψ ∧ hasEntry t.rootPowers (bitrev 1 t.coeffCountPower.toNat) ψ) ∧
    hasEntry t.rootPowers 0 1 ∧
    (∀ r < n, ∀ a b, (a, b) ∈ [(t.rootPowers, t.scaledRootPowers), (t.invRootPowers, t.scaledInvRootPowers),
        (t.invRootPowersDivTwo, t.scaledInvRootPowersDivTwo)] →
      ∃ v v', hasEntry a r v ∧ hasEntry b r v' ∧ 1 ≤ v ∧ v < q ∧ v' * q ≤ v * 2 ^ 64 ∧ v * 2 ^ 64 < (v' + 1) * q) ∧
    (∃ raw : Nat → Nat, ∃ ψ ψinv, isLeastRoot n q ψ ∧ ψinv * ψ % q = 1 ∧
      (∀ i < n, raw (bitrev i t.coeffCountPower.toNat) = ψinv ^ i % q) ∧
      ∀ r < n, ∃ v, hasEntry t.invRootPowersDivTwo r v ∧ 2 * v % q = raw r % q) ∧
    t.invDegreeModulo.toNat * n % q = 1

/-- R157: the entry the inverse pass's cursor reaches at half-size `m`, block `i`, is the inverse of the forward root that
the forward pass uses there. -/
def Obligations.InverseCursorMeetsForwardRoots : Prop :=
  ∀ (s : State) (t : Table) (k j i : Nat), Inv s → s.tbl = some t → t.coeffCountPower.toNat = k → j < k → i < 2 ^ j →
    ∃ v v', hasEntry t.rootPowers (2 ^ j + i) v ∧ hasEntry t.invRootPowers (2 ^ k - 2 * 2 ^ j + 1 + i) v' ∧
      v' * v % t.modulus.toNat = 1

/-- R160 to R166: the six TBL_GET_ARRAY commands: the two failures in their order, and the entry otherwise. -/
def Obligations.TblGetArrayReads : Prop :=
  ∀ (w : Word) (i : Instr) (array : Table → List Word),
    (w, i, array) ∈
      [(0x020, Instr.getRoot, Table.rootPowers), (0x120, Instr.getScaledRoot, Table.scaledRootPowers),
        (0x220, Instr.getInvRoot, Table.invRootPowers), (0x320, Instr.getScaledInvRoot, Table.scaledInvRootPowers),
        (0x420, Instr.getInvRootDiv2, Table.invRootPowersDivTwo),
        (0x520, Instr.getScaledInvRootDiv2, Table.scaledInvRootPowersDivTwo)] →
    decodeWord w = .ok i ∧
    ∀ s : State,
      (s.tbl = none → exec i s = .next { s with code := .notInitialized, err := true }) ∧
      ∀ t, s.tbl = some t →
        (t.coeffCount.toNat ≤ s.arg0.toNat → exec i s = .next { s with code := .indexOutOfRange, err := true }) ∧
        (tableCoherent t = true → s.arg0.toNat < t.coeffCount.toNat →
          ∃ v, (array t)[s.arg0.toNat]? = some v ∧ exec i s = .next { s with res0 := v, code := .ok })

/-- R31, R167 to R172: the five TBL_GET_SCALAR commands always complete with `OK`; an uninitialized table's scalars read
0. -/
def Obligations.TblGetScalarReads : Prop :=
  ∀ (w : Word) (i : Instr) (scalar : Table → Word),
    (w, i, scalar) ∈
      [(0x021, Instr.getInvDegree, Table.invDegreeModulo), (0x121, Instr.getModulus, Table.modulus),
        (0x221, Instr.getCoeffCountPower, Table.coeffCountPower), (0x321, Instr.getCoeffCount, Table.coeffCount),
        (0x421, Instr.getIsInitialized, fun _ => 1)] →
    decodeWord w = .ok i ∧
    ∀ s : State,
      (s.tbl = none → exec i s = .next { s with res0 := 0, code := .ok }) ∧
      (∀ t, s.tbl = some t → exec i s = .next { s with res0 := scalar t, code := .ok })

/-! ## The passes -/

/-- R184, R208, R241: NTT_FWD and NTT_INV fail with NOT_INITIALIZED and change nothing else when the table is
uninitialized. With a coherent table and `log n ≥ 1` they complete with `OK`: every word of `BUF[0..n)` is written, every
byte outside it reads as before, and of the rest of the state only the fault record and the draw counter can change. -/
def Obligations.PassesComplete : Prop :=
  decodeWord 0x10 = .ok .nttFwd ∧ decodeWord 0x11 = .ok .nttInv ∧
  ∀ i ∈ [Instr.nttFwd, Instr.nttInv], ∀ s : State,
    (s.tbl = none → exec i s = .next { s with code := .notInitialized, err := true }) ∧
    ∀ t, s.tbl = some t → tableCoherent t = true → 1 ≤ t.coeffCountPower.toNat →
      ∃ u, exec i s = .next u ∧
        u = { s with mem := u.mem, faults := u.faults, draws := u.draws, code := .ok } ∧
        (∀ j < t.coeffCount.toNat, u.written j = true) ∧ sameOutsideBuffer t.coeffCount.toNat s u

/-- R183 to R185: the words NTT_FWD leaves are those of the rule's index loops on the words it reads: the written words,
and the free values of the unwritten ones, whose form is the model's choice (log 5, 6, 7). -/
def Obligations.ForwardPassFollowsTheSchedule : Prop :=
  ∀ (s : State) (t : Table), s.tbl = some t → tableCoherent t = true →
    ∃ u, exec .nttFwd s = .next u ∧
      ∀ j < t.coeffCount.toNat, Memory.bufWord u.mem j = some (forwardLoops t (passInput s) j)

/-- R206 to R209: the words NTT_INV leaves are those of the rules' index loops on the words it reads: the written words,
and the free values of the unwritten ones, whose form is the model's choice (log 5, 6, 7). -/
def Obligations.InversePassFollowsTheSchedule : Prop :=
  ∀ (s : State) (t : Table), s.tbl = some t → tableCoherent t = true → 1 ≤ t.coeffCountPower.toNat →
    ∃ u, exec .nttInv s = .next u ∧
      ∀ j < t.coeffCount.toNat, Memory.bufWord u.mem j = some (inverseLoops t (passInput s) j)

/-- R57, R185, R209, R250: what a pass records, whatever has been written of the words it reads. `InputOutOfRange` is added
exactly under `OOR_MODE = fault` with a word read at or above the bound, which is `q` for NTT_FWD and `2q` for NTT_INV;
`UnwrittenRead` exactly under `BUF_UNWRITTEN = fault` with a word never written; and draws are taken only under `draw`. The
form of the free values, and one draw for each unwritten word, are the model's choice (log 5, 6, 7). -/
def Obligations.PassesRecordBrokenInputs : Prop :=
  ∀ (i : Instr) (factor : Nat), (i, factor) ∈ [(Instr.nttFwd, 1), (Instr.nttInv, 2)] →
    ∀ (s u : State) (t : Table), s.tbl = some t → exec i s = .next u →
      (u.faults.inputOutOfRange = true ↔ s.faults.inputOutOfRange = true ∨
        (s.params.oorMode = .fault ∧
          ∃ j < t.coeffCount.toNat, factor * t.modulus.toNat ≤ (passInput s j).toNat)) ∧
      (u.faults.unwrittenRead = true ↔ s.faults.unwrittenRead = true ∨
        (s.params.bufUnwritten = .fault ∧ ∃ j < t.coeffCount.toNat, s.written j = false)) ∧
      u.draws = (match s.params.bufUnwritten with
        | .fault => s.draws
        | .draw => s.draws + unwrittenBelow s t.coeffCount.toNat)

/-- R186: NTT_FWD evaluates the polynomial at the odd powers of `ψ`, in bit-reversed order, with outputs below `4q`. -/
def Obligations.ForwardPassEvaluatesThePolynomial : Prop :=
  ∀ (s : State) (t : Table) (a : Nat → Nat) (n q ψ : Nat), Inv s → s.tbl = some t → t.coeffCount.toNat = n →
    t.modulus.toNat = q → isLeastRoot n q ψ → holdsBuffer s n a → (∀ j < n, a j < 4 * q) →
      ∃ u, exec .nttFwd s = .next u ∧ ∃ b, holdsBuffer u n b ∧
        ∀ k < n, b k < 4 * q ∧
          b k % q = (∑ j ∈ Finset.range n, a j * ψ ^ ((2 * bitrev k t.coeffCountPower.toNat + 1) * j)) % q

/-- R188: after reduction modulo `q`, NTT_FWD is linear in the words of the buffer. -/
def Obligations.ForwardPassIsLinear : Prop :=
  ∀ (r s w : State) (t : Table) (a c : Nat → Nat) (n q : Nat), Inv r → Inv s → Inv w →
    r.tbl = some t → s.tbl = some t → w.tbl = some t → t.coeffCount.toNat = n → t.modulus.toNat = q →
    holdsBuffer r n a → holdsBuffer s n c → (∀ j < n, a j < q) → (∀ j < n, c j < q) →
    holdsBuffer w n (fun j => (a j + c j) % q) →
      ∃ r' s' w' A C S, exec .nttFwd r = .next r' ∧ holdsBuffer r' n A ∧ exec .nttFwd s = .next s' ∧ holdsBuffer s' n C ∧
        exec .nttFwd w = .next w' ∧ holdsBuffer w' n S ∧ ∀ k < n, S k % q = (A k + C k) % q

/-- R210: NTT_INV computes the inverse map, with outputs below `2q`. -/
def Obligations.InversePassInterpolates : Prop :=
  ∀ (s : State) (t : Table) (b : Nat → Nat) (n q ψ ψinv ninv : Nat), Inv s → s.tbl = some t → t.coeffCount.toNat = n →
    t.modulus.toNat = q → isLeastRoot n q ψ → ψinv * ψ % q = 1 → ninv * n % q = 1 → holdsBuffer s n b →
    (∀ k < n, b k < 2 * q) →
      ∃ u, exec .nttInv s = .next u ∧ ∃ c, holdsBuffer u n c ∧
        ∀ j < n, c j < 2 * q ∧
          c j % q =
            ninv * (∑ k ∈ Finset.range n, b k * ψinv ^ ((2 * bitrev k t.coeffCountPower.toNat + 1) * j)) % q

/-- R211: the round trip. NTT_FWD, then the host's reduction of every word at or above `2q`, then NTT_INV, gives back the
input modulo `q`. -/
def Obligations.RoundTripReturnsTheInput : Prop :=
  ∀ (s : State) (t : Table) (a : Nat → Nat) (n q : Nat), Inv s → s.tbl = some t → t.coeffCount.toNat = n →
    t.modulus.toNat = q → holdsBuffer s n a → (∀ j < n, a j < q) →
      ∃ u b, exec .nttFwd s = .next u ∧ holdsBuffer u n b ∧
        ∀ v : State, v.tbl = u.tbl →
          holdsBuffer v n (fun j => if 2 * q ≤ b j then b j - 2 * q else b j) →
            ∃ z c, exec .nttInv v = .next z ∧ holdsBuffer z n c ∧ ∀ j < n, c j < 2 * q ∧ c j % q = a j

/-- R212: the pointwise product of two transforms transforms back to the product modulo `x^n + 1`. -/
def Obligations.PointwiseProductIsNegacyclicConvolution : Prop :=
  ∀ (s r : State) (t : Table) (a c : Nat → Nat) (n q : Nat), Inv s → Inv r → s.tbl = some t → r.tbl = some t →
    t.coeffCount.toNat = n → t.modulus.toNat = q → holdsBuffer s n a → holdsBuffer r n c →
    (∀ j < n, a j < q) → (∀ j < n, c j < q) →
      ∃ u v A C, exec .nttFwd s = .next u ∧ holdsBuffer u n A ∧ exec .nttFwd r = .next v ∧ holdsBuffer v n C ∧
        ∀ w : State, w.tbl = some t → holdsBuffer w n (fun k => A k * C k % q) →
          ∃ z p, exec .nttInv w = .next z ∧ holdsBuffer z n p ∧
            ∀ j < n, (p j : ℤ) ≡
              ∑ x ∈ Finset.range n, ∑ y ∈ Finset.range n,
                (if x + y = j then (a x : ℤ) * c y else if x + y = j + n then -((a x : ℤ) * c y) else 0) [ZMOD q]

/-! ## Control and failures -/

/-- R230: CLR_ERR clears `ERR`, sets `CODE` to `OK`, leaves `INIT` and everything else alone. -/
def Obligations.ClrErrClears : Prop :=
  decodeWord 0x02 = .ok .clrErr ∧
  ∀ s : State, ∃ u, exec .clrErr s = .next u ∧ u = { s with code := .ok, err := false } ∧
    u.statusWord.toNat = 2 ^ 8 * (if s.tbl = none then 0 else 1)

/-- R241: a command that ends with a code other than `OK` changes only `STATUS`; a failing TBL_BUILD also resets the
table. -/
def Obligations.FailingCommandsArePrecise : Prop :=
  ∀ (i : Instr) (s u : State), exec i s = .next u → u.code ≠ .ok →
    u = { s with code := u.code, err := true, tbl := if i = .tblBuild then none else s.tbl }

/-- R22: a command that completes with another code than `OK` leaves both `RES` registers unchanged; NTT_FWD, NTT_INV,
TBL_BUILD and CLR_ERR never write them; and `RES[1]` is written only by the four commands that R84 gives a second
result. -/
def Obligations.ResultsAreWrittenOnlyOnOk : Prop :=
  ∀ (i : Instr) (s u : State), exec i s = .next u →
    (u.code ≠ .ok ∨ i ∈ [Instr.nttFwd, .nttInv, .tblBuild, .clrErr] → u.res0 = s.res0 ∧ u.res1 = s.res1) ∧
    (i ∉ [Instr.div128By64, .bflyFwd, .bflyInv, .bflyInvFinal] → u.res1 = s.res1)

/-- R25: `ERR` is sticky. A step clears it only by CLR_ERR or a reset, and every completion with another code than `OK`
sets it, an illegal word's among them. -/
def Obligations.ErrIsSticky : Prop :=
  (∀ (w : Word) (s u : State), runCommandWord w s = .next u → u.code ≠ .ok → u.err = true) ∧
  (∀ s u : State, step s = .next u → s.err = true → u.err = false →
    ∃ rest, s.inbox = .reset :: rest ∨
      ∃ v, s.inbox = .write s.params.base 8 v :: rest ∧ decodeWord v = .ok .clrErr)

/-- R70: which commands write what. A pass writes only `BUF[0..n)` and `STATUS`, and no byte of `BUF` without a table;
TBL_BUILD writes only `TBL` and `STATUS`, the others only `RES` and `STATUS`. The fault record and the draw counter are the
model's and only a pass changes them. -/
def Obligations.CommandsWriteOnlyTheirOwnState : Prop :=
  ∀ (i : Instr) (s u : State), exec i s = .next u →
    sameOutsideBuffer (match s.tbl with | some t => t.coeffCount.toNat | none => 0) s u ∧
    u = { s with
      code := u.code
      err := u.err
      res0 := if i ∈ [Instr.nttFwd, .nttInv, .tblBuild, .clrErr] then s.res0 else u.res0
      res1 := if i ∈ [Instr.nttFwd, .nttInv, .tblBuild, .clrErr] then s.res1 else u.res1
      tbl := if i = .tblBuild then u.tbl else s.tbl
      mem := if i ∈ [Instr.nttFwd, .nttInv] then u.mem else s.mem
      faults := if i ∈ [Instr.nttFwd, .nttInv] then u.faults else s.faults
      draws := if i ∈ [Instr.nttFwd, .nttInv] then u.draws else s.draws }

/-! ## The whole machine -/

/-- The invariant holds after reset (R42). `BASE = 0` in it is the model's choice (log 1), and only its alignment is used. -/
def Obligations.InvariantHoldsAtReset : Prop := Inv State.reset

/-- Every step keeps the invariant: legal parameters, memory in canonical form inside the buffer window and written in
whole words, a table that only TBL_BUILD can have made (R7, R36, R38, R173). -/
def Obligations.StepKeepsTheInvariant : Prop :=
  ∀ s u : State, Inv s → step s = .next u → Inv u

/-- Every access and every command has a defined outcome (R240): from a state of the invariant no step stops. -/
def Obligations.EveryStepHasAnOutcome : Prop :=
  ∀ s : State, Inv s → ∃ u, step s = .next u

/-- R173: only TBL_BUILD and reset write the table. -/
def Obligations.OnlyTblBuildAndResetWriteTheTable : Prop :=
  ∀ s u : State, step s = .next u → u.tbl ≠ s.tbl →
    ∃ rest, s.inbox = .reset :: rest ∨
      ∃ v, s.inbox = .write s.params.base 8 v :: rest ∧ decodeWord v = .ok .tblBuild

/-- R21: no command writes an operand register. A step changes `ARG[i]` only by the host's write of that register, to the
value written, or by a reset. -/
def Obligations.OnlyTheHostWritesOperands : Prop :=
  ∀ (s u : State) (i : Fin 5), step s = .next u → u.arg i ≠ s.arg i →
    ∃ rest, s.inbox = .reset :: rest ∨ s.inbox = .write (s.params.base + (0x10 + 8 * i.val)) 8 (u.arg i) :: rest

/-- R7: the parameters are fixed for a model instance; R61: a step takes the first event of the port and leaves the others
in their order. -/
def Obligations.StepKeepsParametersAndPortOrder : Prop :=
  ∀ s u : State, step s = .next u →
    u.params = s.params ∧ u.inbox = s.inbox.tail ∧ (u.replies = s.replies ∨ ∃ r, u.replies = r :: s.replies)

/-- R41, R250: but for a reset, no step removes a reason from the fault record; with `OOR_MODE = formula` and
`BUF_UNWRITTEN = draw` none is ever added. -/
def Obligations.FaultRecordOnlyGrows : Prop :=
  ∀ s u : State, step s = .next u → (∀ rest, s.inbox ≠ .reset :: rest) →
    (s.faults.unwrittenRead = true → u.faults.unwrittenRead = true) ∧
    (s.faults.inputOutOfRange = true → u.faults.inputOutOfRange = true) ∧
    (s.params.oorMode = .formula → s.params.bufUnwritten = .draw → u.faults = s.faults)

/-- R250: the fault record has no effect on anything else: two states that differ in it alone step to states that differ
in it alone. -/
def Obligations.FaultRecordIsInert : Prop :=
  ∀ (s u : State) (f : FaultRecord), step s = .next u →
    ∃ f', step { s with faults := f } = .next { u with faults := f' }
end

