-- ==== Sys2Proof/Laws/Arith.lean ====
section
/-! SUPPORT. Sys2Proof/Laws/Arith.lean: the exact values of the arithmetic functions. -/

namespace Sys2Proof.Machine

theorem ofNat_toNat_of_lt {v : Nat} (h : v < 2 ^ 64) : (BitVec.ofNat 64 v : Word).toNat = v := by
  rw [BitVec.toNat_ofNat, Nat.mod_eq_of_lt h]

/-- R100. -/
theorem mulHi_toNat (a b : Word) : (mulHi a b).toNat = a.toNat * b.toNat / 2 ^ 64 :=
  ofNat_toNat_of_lt (Nat.div_lt_of_lt_mul (Nat.mul_lt_mul'' a.isLt b.isLt))

/-- R101: the quotient fits 128 bits. -/
theorem quotient128_lt (lo hi d : Word) : quotient128 lo hi d < 2 ^ 64 * 2 ^ 64 := by
  have hl := lo.isLt
  have hh := hi.isLt
  exact (Nat.div_le_self _ _).trans_lt (by omega)

/-- R101. -/
theorem div128By64_toNat (lo hi d : Word) :
    (div128By64 lo hi d).1.toNat = quotient128 lo hi d % 2 ^ 64 ∧
      (div128By64 lo hi d).2.toNat = quotient128 lo hi d / 2 ^ 64 :=
  ⟨ofNat_toNat_of_lt (Nat.mod_lt _ (by norm_num)),
    ofNat_toNat_of_lt (Nat.div_lt_of_lt_mul (quotient128_lt lo hi d))⟩

/-- R102: in the domain the quotient's low word is all of it. -/
theorem shoupRatio_toNat {w q : Word} (h : w.toNat < q.toNat) :
    (shoupRatio w q).toNat = w.toNat * 2 ^ 64 / q.toNat := by
  have hlt : w.toNat * 2 ^ 64 / q.toNat < 2 ^ 64 :=
    Nat.div_lt_of_lt_mul (Nat.mul_lt_mul_of_pos_right h (by norm_num))
  rw [shoupRatio, (div128By64_toNat _ _ _).1, quotient128]
  simpa using Nat.mod_eq_of_lt hlt

/-- R103. -/
theorem mulMod_toNat {a b q : Word} (h : q.toNat ≠ 0) : (mulMod a b q).toNat = a.toNat * b.toNat % q.toNat :=
  ofNat_toNat_of_lt ((Nat.mod_lt _ (Nat.pos_of_ne_zero h)).trans q.isLt)

/-- R104: the exact half, in the domain. -/
theorem div2Mod_toNat {x q : Word} (h : x.toNat < q.toNat) :
    (div2Mod x q).toNat = if x.toNat % 2 = 0 then x.toNat / 2 else (x.toNat + q.toNat) / 2 := by
  have hq := q.isLt
  unfold div2Mod
  split <;> exact ofNat_toNat_of_lt (by omega)

/-- R105: a reversal of `k` bits is below `2^k`. -/
theorem bitrev_lt (i k : Nat) : bitrev i k < 2 ^ k := by
  induction k generalizing i with
  | zero => simp [bitrev]
  | succ k ih =>
    have := ih (i / 2)
    have h2 : i % 2 < 2 := Nat.mod_lt _ (by norm_num)
    have : i % 2 * 2 ^ k ≤ 1 * 2 ^ k := Nat.mul_le_mul_right _ (by omega)
    simp only [bitrev, pow_succ]
    omega

/-- R106: the wrapping product as one reduction of the exact value (R11). -/
theorem shoupMul_toNat (w w' y q : Word) :
    ((shoupMul w w' y q).toNat : ℤ) =
      ((w.toNat : ℤ) * y.toNat - (w'.toNat * y.toNat / 2 ^ 64 : ℕ) * q.toNat) % 2 ^ 64 := by
  have h : ((shoupMul w w' y q).toNat : ℤ) = (w * y - mulHi w' y * q).toInt % 2 ^ 64 := by
    rw [BitVec.toInt_eq_toNat_bmod, shoupMul]
    simp only [Int.bmod_def]
    have := (w * y - mulHi w' y * q).isLt
    split <;> omega
  rw [h, ← mulHi_toNat]
  generalize mulHi w' y = h'
  rw [BitVec.toInt_sub, BitVec.toInt_mul, BitVec.toInt_mul]
  simp only [BitVec.toInt_eq_toNat_bmod]
  have e (v : ℤ) : v.bmod (2 ^ 64) % 2 ^ 64 = v % 2 ^ 64 := by
    have := Int.bmod_emod (x := v) (m := 2 ^ 64)
    simpa using this
  have em (a b : ℤ) : a.bmod (2 ^ 64) * b.bmod (2 ^ 64) % 2 ^ 64 = a * b % 2 ^ 64 := by
    rw [Int.mul_emod, e, e, ← Int.mul_emod]
  rw [e, Int.sub_emod, e, e, em, em, ← Int.sub_emod]

end Sys2Proof.Machine
end

