-- ==== Sys2Proof/Laws/Memory.lean ====
section
/-! SUPPORT. Sys2Proof/Laws/Memory.lean: the laws of the byte memory and of the buffer words over it. -/

namespace Sys2Proof.Machine

/-! Bytes of a word. -/

@[simp] theorem bytesOfWord_length (w : Word) : (bytesOfWord w).length = 8 := by simp [bytesOfWord]

theorem natOfBytes_bytesOfWord (w : Word) : natOfBytes (bytesOfWord w) = w.toNat := by
  have h := w.isLt
  simp only [bytesOfWord, List.range, List.range.loop, List.map, natOfBytes, BitVec.toNat_ofNat]
  norm_num
  omega

@[simp] theorem wordOfBytes_bytesOfWord (w : Word) : wordOfBytes (bytesOfWord w) = w := by
  simp [wordOfBytes, natOfBytes_bytesOfWord]

/-! One byte. -/

theorem Memory.readByte_writeByte (m : List Host.Cell) (a x : Nat) (v : Byte) :
    Memory.readByte (Memory.writeByte m a v) x = if a = x then some v else Memory.readByte m x := by
  induction m with
  | nil => rfl
  | cons c rest ih =>
    simp only [Memory.writeByte]
    split
    · rfl
    · split
      · next h => simp only [Memory.readByte, ← h]; split <;> rfl
      · next h =>
        simp only [Memory.readByte, ih]
        split
        · next hc => rw [if_neg (by omega)]
        · rfl

theorem Memory.mem_writeByte {m : List Host.Cell} {a : Nat} {v : Byte} {c : Host.Cell}
    (h : c ∈ Memory.writeByte m a v) : c = (a, v) ∨ c ∈ m := by
  induction m with
  | nil => simpa [Memory.writeByte] using h
  | cons d rest ih =>
    simp only [Memory.writeByte] at h
    split at h
    · simpa using h
    · split at h
      · rcases List.mem_cons.1 h with h | h
        · exact .inl h
        · exact .inr (List.mem_cons_of_mem _ h)
      · rcases List.mem_cons.1 h with h | h
        · exact .inr (h ▸ List.mem_cons_self)
        · exact (ih h).imp_right (List.mem_cons_of_mem _)

/-- Every write of a byte keeps the canonical form. -/
theorem Memory.writeByte_wf {m : List Host.Cell} (hm : Memory.wf m) (a : Nat) (v : Byte) :
    Memory.wf (Memory.writeByte m a v) := by
  induction m with
  | nil => simp [Memory.writeByte]
  | cons c rest ih =>
    obtain ⟨hc, hrest⟩ := List.pairwise_cons.1 hm
    simp only [Memory.writeByte]
    split
    · next hlt =>
      refine List.pairwise_cons.2 ⟨fun d hd => ?_, hm⟩
      rcases List.mem_cons.1 hd with rfl | hd
      · exact hlt
      · exact hlt.trans (hc d hd)
    · split
      · next heq => exact List.pairwise_cons.2 ⟨fun d hd => heq ▸ hc d hd, hrest⟩
      · next hlt hne =>
        refine List.pairwise_cons.2 ⟨fun d hd => ?_, ih hrest⟩
        rcases Memory.mem_writeByte hd with rfl | hd
        · exact Nat.lt_of_le_of_ne (Nat.le_of_not_lt hlt) (Ne.symm hne)
        · exact hc d hd

/-! Runs of bytes. -/

theorem Memory.readByte_writeBytes (m : List Host.Cell) (a x : Nat) (bs : List Byte) :
    Memory.readByte (Memory.writeBytes m a bs) x =
      if a ≤ x ∧ x < a + bs.length then bs[x - a]? else Memory.readByte m x := by
  induction bs generalizing m a with
  | nil => simp [Memory.writeBytes]
  | cons b rest ih =>
    simp only [Memory.writeBytes, ih, Memory.readByte_writeByte, List.length_cons]
    by_cases hx : a = x
    · subst hx; simp
    · by_cases h : a + 1 ≤ x ∧ x < a + 1 + rest.length
      · rw [if_pos h, if_pos (by omega), show x - a = x - (a + 1) + 1 by omega, List.getElem?_cons_succ]
      · rw [if_neg h, if_neg hx, if_neg (by omega)]

theorem Memory.writeBytes_wf {m : List Host.Cell} (hm : Memory.wf m) (a : Nat) (bs : List Byte) :
    Memory.wf (Memory.writeBytes m a bs) := by
  induction bs generalizing m a with
  | nil => exact hm
  | cons b rest ih => exact ih (Memory.writeByte_wf hm a b) (a + 1)

theorem Memory.mem_writeBytes {m : List Host.Cell} {a : Nat} {bs : List Byte} {c : Host.Cell}
    (h : c ∈ Memory.writeBytes m a bs) : (a ≤ c.1 ∧ c.1 < a + bs.length) ∨ c ∈ m := by
  induction bs generalizing m a with
  | nil => exact .inr h
  | cons b rest ih =>
    rcases ih h with h | h
    · exact .inl (by simp only [List.length_cons]; omega)
    · rcases Memory.mem_writeByte h with rfl | h
      · exact .inl (by simp)
      · exact .inr h

theorem Memory.readBytes_eq_some {m : List Host.Cell} {count a : Nat} {bs : List Byte} :
    Memory.readBytes m count a = some bs ↔
      bs.length = count ∧ ∀ i < count, Memory.readByte m (a + i) = bs[i]? := by
  induction count generalizing a bs with
  | zero =>
    simp only [Memory.readBytes, Option.some.injEq]
    constructor
    · rintro rfl; simp
    · rintro ⟨h, -⟩; exact (List.length_eq_zero_iff.1 h).symm
  | succ count ih =>
    simp only [Memory.readBytes]
    constructor
    · intro h
      split at h
      · next b rest hb hr =>
        cases h
        obtain ⟨hl, hi⟩ := ih.1 hr
        refine ⟨by simp [hl], fun i hlt => ?_⟩
        cases i with
        | zero => simpa using hb
        | succ i => rw [List.getElem?_cons_succ, ← hi i (by omega)]; congr 1; omega
      · cases h
    · rintro ⟨hl, hi⟩
      cases bs with
      | nil => simp at hl
      | cons b rest =>
        have h0 : Memory.readByte m a = some b := by simpa using hi 0 (by omega)
        have hr : Memory.readBytes m count (a + 1) = some rest := ih.2 ⟨by simpa using hl, fun i hlt => by
          have := hi (i + 1) (by omega)
          rw [List.getElem?_cons_succ] at this
          rw [← this]; congr 1; omega⟩
        rw [h0, hr]

theorem Memory.readBytes_congr {m m' : List Host.Cell} {count a : Nat}
    (h : ∀ i < count, Memory.readByte m (a + i) = Memory.readByte m' (a + i)) :
    Memory.readBytes m count a = Memory.readBytes m' count a := by
  induction count generalizing a with
  | zero => rfl
  | succ count ih =>
    have h0 := h 0 (by omega)
    simp only [Nat.add_zero] at h0
    simp only [Memory.readBytes, h0,
      ih (a := a + 1) fun i hi => by have := h (i + 1) (by omega); rwa [show a + (i + 1) = a + 1 + i by omega] at this]

theorem Memory.readBytes_isSome {m : List Host.Cell} {count a : Nat} :
    (Memory.readBytes m count a).isSome ↔ ∀ i < count, (Memory.readByte m (a + i)).isSome := by
  induction count generalizing a with
  | zero => simp [Memory.readBytes]
  | succ count ih =>
    simp only [Memory.readBytes]
    constructor
    · intro h i hi
      split at h
      · next b rest hb hr =>
        cases i with
        | zero => simp [hb]
        | succ i =>
          have := (ih (a := a + 1)).1 (by simp [hr]) i (by omega)
          rwa [show a + 1 + i = a + (i + 1) by omega] at this
      · simp at h
    · intro h
      obtain ⟨b, hb⟩ := Option.isSome_iff_exists.1 (h 0 (by omega))
      obtain ⟨rest, hr⟩ := Option.isSome_iff_exists.1 ((ih (a := a + 1)).2 fun i hi => by
        have := h (i + 1) (by omega)
        rwa [show a + (i + 1) = a + 1 + i by omega] at this)
      simp only [Nat.add_zero] at hb
      simp [hb, hr]

/-! Buffer words. -/

@[simp] theorem Memory.bufWord_nil (j : Nat) : Memory.bufWord [] j = none := rfl

theorem Memory.bufWord_isSome {m : List Host.Cell} {j : Nat} :
    (Memory.bufWord m j).isSome ↔ ∀ b < 8, (Memory.readByte m (bufOffset j + b)).isSome := by
  rw [← Memory.readBytes_isSome]
  simp [Memory.bufWord]

/-- A write of a buffer word changes no byte outside it. -/
theorem Memory.readByte_setBufWord_outside {m : List Host.Cell} {j x : Nat} (v : Word)
    (h : x < bufOffset j ∨ bufOffset (j + 1) ≤ x) :
    Memory.readByte (Memory.setBufWord m j v) x = Memory.readByte m x := by
  simp only [bufOffset] at h
  rw [Memory.setBufWord, Memory.readByte_writeBytes, bytesOfWord_length, if_neg (by simp only [bufOffset]; omega)]

/-- The bytes a write of a buffer word stores, lowest first (R58). -/
theorem Memory.readByte_setBufWord_inside (m : List Host.Cell) (j : Nat) (v : Word) {b : Nat} (h : b < 8) :
    Memory.readByte (Memory.setBufWord m j v) (bufOffset j + b) = (bytesOfWord v)[b]? := by
  rw [Memory.setBufWord, Memory.readByte_writeBytes, bytesOfWord_length, if_pos (by omega)]
  simp

@[simp] theorem Memory.bufWord_setBufWord (m : List Host.Cell) (j i : Nat) (v : Word) :
    Memory.bufWord (Memory.setBufWord m j v) i = if i = j then some v else Memory.bufWord m i := by
  split
  · next h =>
    subst h
    have : Memory.readBytes (Memory.setBufWord m i v) 8 (bufOffset i) = some (bytesOfWord v) :=
      Memory.readBytes_eq_some.2 ⟨bytesOfWord_length v, fun b hb => Memory.readByte_setBufWord_inside m i v hb⟩
    simp [Memory.bufWord, this]
  · next h =>
    simp only [Memory.bufWord]
    congr 1
    exact Memory.readBytes_congr fun b hb =>
      Memory.readByte_setBufWord_outside v (by simp only [bufOffset]; omega)

theorem Memory.setBufWord_wf {m : List Host.Cell} (hm : Memory.wf m) (j : Nat) (v : Word) :
    Memory.wf (Memory.setBufWord m j v) := Memory.writeBytes_wf hm _ _

theorem memoryInv_nil (p : Params) : memoryInv p [] := ⟨List.Pairwise.nil, by simp⟩

/-- Writing a word of the buffer keeps the memory's invariant. -/
theorem memoryInv_setBufWord {p : Params} {m : List Host.Cell} (hm : memoryInv p m) {j : Nat} (hj : j < p.nMax)
    (v : Word) : memoryInv p (Memory.setBufWord m j v) := by
  refine ⟨Memory.setBufWord_wf hm.1 j v, fun c hc => ?_⟩
  rcases Memory.mem_writeBytes hc with h | h
  · rw [bytesOfWord_length] at h
    simp only [bufOffset] at h ⊢
    refine ⟨by omega, by omega, ?_⟩
    rw [show (c.1 - (0x100000 + 8 * 0)) / 8 = j by omega, Memory.bufWord_setBufWord, if_pos rfl]
    rfl
  · obtain ⟨h1, h2, h3⟩ := hm.2 c h
    refine ⟨h1, h2, ?_⟩
    rw [Memory.bufWord_setBufWord]
    split
    · rfl
    · exact h3

/-! Several words. -/

theorem writeBufs_mem_only (j : Nat) (ws : List Word) (s : State) :
    writeBufs j ws s = { s with mem := (writeBufs j ws s).mem } := by
  induction ws generalizing j s with
  | nil => rfl
  | cons w ws ih => rw [writeBufs, ih]; rfl

theorem writeBufs_bufWord (j i : Nat) (ws : List Word) (s : State) :
    Memory.bufWord (writeBufs j ws s).mem i =
      if j ≤ i ∧ i < j + ws.length then ws[i - j]? else Memory.bufWord s.mem i := by
  induction ws generalizing j s with
  | nil => simp [writeBufs]
  | cons w ws ih =>
    simp only [writeBufs, ih, writeBuf, Memory.bufWord_setBufWord, List.length_cons]
    by_cases h : i = j
    · subst h; simp
    · by_cases h' : j + 1 ≤ i ∧ i < j + 1 + ws.length
      · rw [if_pos h', if_pos (by omega), show i - j = i - (j + 1) + 1 by omega, List.getElem?_cons_succ]
      · rw [if_neg h', if_neg h, if_neg (by omega)]

theorem writeBufs_readByte_outside {j x : Nat} {ws : List Word} {s : State}
    (h : x < bufOffset j ∨ bufOffset (j + ws.length) ≤ x) :
    Memory.readByte (writeBufs j ws s).mem x = Memory.readByte s.mem x := by
  induction ws generalizing j s with
  | nil => rfl
  | cons w ws ih =>
    simp only [bufOffset, List.length_cons] at h
    rw [writeBufs, ih (by simp only [bufOffset]; omega), writeBuf]
    exact Memory.readByte_setBufWord_outside w (by simp only [bufOffset]; omega)

theorem writeBufs_memoryInv {p : Params} {j : Nat} {ws : List Word} {s : State} (hm : memoryInv p s.mem)
    (hj : j + ws.length ≤ p.nMax) : memoryInv p (writeBufs j ws s).mem := by
  induction ws generalizing j s with
  | nil => exact hm
  | cons w ws ih =>
    simp only [List.length_cons] at hj
    exact ih (memoryInv_setBufWord hm (by omega) w) (by omega)

/-- What reading a buffer word answers and records: it changes the fault record and the draw counter only (R57). -/
theorem readBuf_frame (j : Nat) (s : State) :
    (readBuf j s).2 = { s with faults := (readBuf j s).2.faults, draws := (readBuf j s).2.draws } := by
  unfold readBuf
  split
  · rfl
  · split <;> rfl

theorem readBuf_of_written {j : Nat} {s : State} {w : Word} (h : Memory.bufWord s.mem j = some w) :
    readBuf j s = (w, s) := by
  simp [readBuf, h]

theorem readBufs_frame (count j : Nat) (s : State) :
    (readBufs count j s).2 =
      { s with faults := (readBufs count j s).2.faults, draws := (readBufs count j s).2.draws } := by
  induction count generalizing j s with
  | zero => rfl
  | succ count ih => rw [readBufs, ih, readBuf_frame]

@[simp] theorem readBufs_length (count j : Nat) (s : State) : (readBufs count j s).1.length = count := by
  induction count generalizing j s with
  | zero => rfl
  | succ count ih => simp [readBufs, ih]

/-- Reading words that have all been written changes nothing. -/
theorem readBufs_of_written {count j : Nat} {s : State} {a : List Word} (hl : a.length = count)
    (h : ∀ i < count, Memory.bufWord s.mem (j + i) = a[i]?) : readBufs count j s = (a, s) := by
  induction count generalizing j a with
  | zero => rw [List.length_eq_zero_iff.1 hl]; rfl
  | succ count ih =>
    obtain ⟨w, a, rfl⟩ := List.exists_cons_of_length_eq_add_one hl
    have h0 : Memory.bufWord s.mem j = some w := by simpa using h 0 (by omega)
    have hr := ih (j := j + 1) (a := a) (by simpa using hl) fun i hi => by
      have := h (i + 1) (by omega)
      rw [List.getElem?_cons_succ] at this
      rw [← this]; congr 1; omega
    simp [readBufs, readBuf_of_written h0, hr]

theorem checkInputs_frame (bound : Nat) (a : List Word) (s : State) :
    checkInputs bound a s = { s with faults := (checkInputs bound a s).faults } := by
  unfold checkInputs
  split
  · rfl
  · split <;> rfl

theorem checkInputs_of_bounded {bound : Nat} {a : List Word} (s : State) (h : ∀ w ∈ a, w.toNat < bound) :
    checkInputs bound a s = s := by
  unfold checkInputs
  split
  · rfl
  · rw [if_neg]
    simpa using h

end Sys2Proof.Machine
end

