-- ==== Sys2Proof/Laws/State.lean ====
section
/-! SUPPORT. Sys2Proof/Laws/State.lean: one lemma per field and update, so that no proof unfolds a record update. -/

namespace Sys2Proof.Machine

/-! Completing a command. -/

@[simp] theorem State.complete_params (c : StatusCode) (s : State) : (s.complete c).params = s.params := rfl
@[simp] theorem State.complete_arg0 (c : StatusCode) (s : State) : (s.complete c).arg0 = s.arg0 := rfl
@[simp] theorem State.complete_arg1 (c : StatusCode) (s : State) : (s.complete c).arg1 = s.arg1 := rfl
@[simp] theorem State.complete_arg2 (c : StatusCode) (s : State) : (s.complete c).arg2 = s.arg2 := rfl
@[simp] theorem State.complete_arg3 (c : StatusCode) (s : State) : (s.complete c).arg3 = s.arg3 := rfl
@[simp] theorem State.complete_arg4 (c : StatusCode) (s : State) : (s.complete c).arg4 = s.arg4 := rfl
@[simp] theorem State.complete_res0 (c : StatusCode) (s : State) : (s.complete c).res0 = s.res0 := rfl
@[simp] theorem State.complete_res1 (c : StatusCode) (s : State) : (s.complete c).res1 = s.res1 := rfl
@[simp] theorem State.complete_code (c : StatusCode) (s : State) : (s.complete c).code = c := rfl
@[simp] theorem State.complete_err (c : StatusCode) (s : State) : (s.complete c).err = errAfter c s.err := rfl
@[simp] theorem State.complete_tbl (c : StatusCode) (s : State) : (s.complete c).tbl = s.tbl := rfl
@[simp] theorem State.complete_mem (c : StatusCode) (s : State) : (s.complete c).mem = s.mem := rfl
@[simp] theorem State.complete_faults (c : StatusCode) (s : State) : (s.complete c).faults = s.faults := rfl
@[simp] theorem State.complete_inbox (c : StatusCode) (s : State) : (s.complete c).inbox = s.inbox := rfl
@[simp] theorem State.complete_replies (c : StatusCode) (s : State) : (s.complete c).replies = s.replies := rfl
@[simp] theorem State.complete_resetEpoch (c : StatusCode) (s : State) : (s.complete c).resetEpoch = s.resetEpoch := rfl
@[simp] theorem State.complete_draws (c : StatusCode) (s : State) : (s.complete c).draws = s.draws := rfl

/-! One result. -/

@[simp] theorem State.finishOne_params (v : Word) (s : State) : (s.finishOne v).params = s.params := rfl
@[simp] theorem State.finishOne_arg0 (v : Word) (s : State) : (s.finishOne v).arg0 = s.arg0 := rfl
@[simp] theorem State.finishOne_arg1 (v : Word) (s : State) : (s.finishOne v).arg1 = s.arg1 := rfl
@[simp] theorem State.finishOne_arg2 (v : Word) (s : State) : (s.finishOne v).arg2 = s.arg2 := rfl
@[simp] theorem State.finishOne_arg3 (v : Word) (s : State) : (s.finishOne v).arg3 = s.arg3 := rfl
@[simp] theorem State.finishOne_arg4 (v : Word) (s : State) : (s.finishOne v).arg4 = s.arg4 := rfl
@[simp] theorem State.finishOne_res0 (v : Word) (s : State) : (s.finishOne v).res0 = v := rfl
@[simp] theorem State.finishOne_res1 (v : Word) (s : State) : (s.finishOne v).res1 = s.res1 := rfl
@[simp] theorem State.finishOne_code (v : Word) (s : State) : (s.finishOne v).code = .ok := rfl
@[simp] theorem State.finishOne_err (v : Word) (s : State) : (s.finishOne v).err = s.err := rfl
@[simp] theorem State.finishOne_tbl (v : Word) (s : State) : (s.finishOne v).tbl = s.tbl := rfl
@[simp] theorem State.finishOne_mem (v : Word) (s : State) : (s.finishOne v).mem = s.mem := rfl
@[simp] theorem State.finishOne_faults (v : Word) (s : State) : (s.finishOne v).faults = s.faults := rfl
@[simp] theorem State.finishOne_inbox (v : Word) (s : State) : (s.finishOne v).inbox = s.inbox := rfl
@[simp] theorem State.finishOne_replies (v : Word) (s : State) : (s.finishOne v).replies = s.replies := rfl
@[simp] theorem State.finishOne_resetEpoch (v : Word) (s : State) : (s.finishOne v).resetEpoch = s.resetEpoch := rfl
@[simp] theorem State.finishOne_draws (v : Word) (s : State) : (s.finishOne v).draws = s.draws := rfl

/-! Two results. -/

@[simp] theorem State.finishTwo_params (vs : Word × Word) (s : State) : (s.finishTwo vs).params = s.params := rfl
@[simp] theorem State.finishTwo_arg0 (vs : Word × Word) (s : State) : (s.finishTwo vs).arg0 = s.arg0 := rfl
@[simp] theorem State.finishTwo_arg1 (vs : Word × Word) (s : State) : (s.finishTwo vs).arg1 = s.arg1 := rfl
@[simp] theorem State.finishTwo_arg2 (vs : Word × Word) (s : State) : (s.finishTwo vs).arg2 = s.arg2 := rfl
@[simp] theorem State.finishTwo_arg3 (vs : Word × Word) (s : State) : (s.finishTwo vs).arg3 = s.arg3 := rfl
@[simp] theorem State.finishTwo_arg4 (vs : Word × Word) (s : State) : (s.finishTwo vs).arg4 = s.arg4 := rfl
@[simp] theorem State.finishTwo_res0 (vs : Word × Word) (s : State) : (s.finishTwo vs).res0 = vs.1 := rfl
@[simp] theorem State.finishTwo_res1 (vs : Word × Word) (s : State) : (s.finishTwo vs).res1 = vs.2 := rfl
@[simp] theorem State.finishTwo_code (vs : Word × Word) (s : State) : (s.finishTwo vs).code = .ok := rfl
@[simp] theorem State.finishTwo_err (vs : Word × Word) (s : State) : (s.finishTwo vs).err = s.err := rfl
@[simp] theorem State.finishTwo_tbl (vs : Word × Word) (s : State) : (s.finishTwo vs).tbl = s.tbl := rfl
@[simp] theorem State.finishTwo_mem (vs : Word × Word) (s : State) : (s.finishTwo vs).mem = s.mem := rfl
@[simp] theorem State.finishTwo_faults (vs : Word × Word) (s : State) : (s.finishTwo vs).faults = s.faults := rfl
@[simp] theorem State.finishTwo_inbox (vs : Word × Word) (s : State) : (s.finishTwo vs).inbox = s.inbox := rfl
@[simp] theorem State.finishTwo_replies (vs : Word × Word) (s : State) : (s.finishTwo vs).replies = s.replies := rfl
@[simp] theorem State.finishTwo_resetEpoch (vs : Word × Word) (s : State) : (s.finishTwo vs).resetEpoch = s.resetEpoch := rfl
@[simp] theorem State.finishTwo_draws (vs : Word × Word) (s : State) : (s.finishTwo vs).draws = s.draws := rfl

/-! A reply to the host. -/

@[simp] theorem State.reply_params (r : Reply) (s : State) : (s.reply r).params = s.params := rfl
@[simp] theorem State.reply_arg0 (r : Reply) (s : State) : (s.reply r).arg0 = s.arg0 := rfl
@[simp] theorem State.reply_arg1 (r : Reply) (s : State) : (s.reply r).arg1 = s.arg1 := rfl
@[simp] theorem State.reply_arg2 (r : Reply) (s : State) : (s.reply r).arg2 = s.arg2 := rfl
@[simp] theorem State.reply_arg3 (r : Reply) (s : State) : (s.reply r).arg3 = s.arg3 := rfl
@[simp] theorem State.reply_arg4 (r : Reply) (s : State) : (s.reply r).arg4 = s.arg4 := rfl
@[simp] theorem State.reply_res0 (r : Reply) (s : State) : (s.reply r).res0 = s.res0 := rfl
@[simp] theorem State.reply_res1 (r : Reply) (s : State) : (s.reply r).res1 = s.res1 := rfl
@[simp] theorem State.reply_code (r : Reply) (s : State) : (s.reply r).code = s.code := rfl
@[simp] theorem State.reply_err (r : Reply) (s : State) : (s.reply r).err = s.err := rfl
@[simp] theorem State.reply_tbl (r : Reply) (s : State) : (s.reply r).tbl = s.tbl := rfl
@[simp] theorem State.reply_mem (r : Reply) (s : State) : (s.reply r).mem = s.mem := rfl
@[simp] theorem State.reply_faults (r : Reply) (s : State) : (s.reply r).faults = s.faults := rfl
@[simp] theorem State.reply_inbox (r : Reply) (s : State) : (s.reply r).inbox = s.inbox := rfl
@[simp] theorem State.reply_replies (r : Reply) (s : State) : (s.reply r).replies = r :: s.replies := rfl
@[simp] theorem State.reply_resetEpoch (r : Reply) (s : State) : (s.reply r).resetEpoch = s.resetEpoch := rfl
@[simp] theorem State.reply_draws (r : Reply) (s : State) : (s.reply r).draws = s.draws := rfl

/-! Recording an unwritten read. -/

@[simp] theorem State.recordUnwrittenRead_params (s : State) : (s.recordUnwrittenRead).params = s.params := rfl
@[simp] theorem State.recordUnwrittenRead_arg0 (s : State) : (s.recordUnwrittenRead).arg0 = s.arg0 := rfl
@[simp] theorem State.recordUnwrittenRead_arg1 (s : State) : (s.recordUnwrittenRead).arg1 = s.arg1 := rfl
@[simp] theorem State.recordUnwrittenRead_arg2 (s : State) : (s.recordUnwrittenRead).arg2 = s.arg2 := rfl
@[simp] theorem State.recordUnwrittenRead_arg3 (s : State) : (s.recordUnwrittenRead).arg3 = s.arg3 := rfl
@[simp] theorem State.recordUnwrittenRead_arg4 (s : State) : (s.recordUnwrittenRead).arg4 = s.arg4 := rfl
@[simp] theorem State.recordUnwrittenRead_res0 (s : State) : (s.recordUnwrittenRead).res0 = s.res0 := rfl
@[simp] theorem State.recordUnwrittenRead_res1 (s : State) : (s.recordUnwrittenRead).res1 = s.res1 := rfl
@[simp] theorem State.recordUnwrittenRead_code (s : State) : (s.recordUnwrittenRead).code = s.code := rfl
@[simp] theorem State.recordUnwrittenRead_err (s : State) : (s.recordUnwrittenRead).err = s.err := rfl
@[simp] theorem State.recordUnwrittenRead_tbl (s : State) : (s.recordUnwrittenRead).tbl = s.tbl := rfl
@[simp] theorem State.recordUnwrittenRead_mem (s : State) : (s.recordUnwrittenRead).mem = s.mem := rfl
@[simp] theorem State.recordUnwrittenRead_faults (s : State) : (s.recordUnwrittenRead).faults = { s.faults with unwrittenRead := true } := rfl
@[simp] theorem State.recordUnwrittenRead_inbox (s : State) : (s.recordUnwrittenRead).inbox = s.inbox := rfl
@[simp] theorem State.recordUnwrittenRead_replies (s : State) : (s.recordUnwrittenRead).replies = s.replies := rfl
@[simp] theorem State.recordUnwrittenRead_resetEpoch (s : State) : (s.recordUnwrittenRead).resetEpoch = s.resetEpoch := rfl
@[simp] theorem State.recordUnwrittenRead_draws (s : State) : (s.recordUnwrittenRead).draws = s.draws := rfl

/-! Recording an input out of range. -/

@[simp] theorem State.recordInputOutOfRange_params (s : State) : (s.recordInputOutOfRange).params = s.params := rfl
@[simp] theorem State.recordInputOutOfRange_arg0 (s : State) : (s.recordInputOutOfRange).arg0 = s.arg0 := rfl
@[simp] theorem State.recordInputOutOfRange_arg1 (s : State) : (s.recordInputOutOfRange).arg1 = s.arg1 := rfl
@[simp] theorem State.recordInputOutOfRange_arg2 (s : State) : (s.recordInputOutOfRange).arg2 = s.arg2 := rfl
@[simp] theorem State.recordInputOutOfRange_arg3 (s : State) : (s.recordInputOutOfRange).arg3 = s.arg3 := rfl
@[simp] theorem State.recordInputOutOfRange_arg4 (s : State) : (s.recordInputOutOfRange).arg4 = s.arg4 := rfl
@[simp] theorem State.recordInputOutOfRange_res0 (s : State) : (s.recordInputOutOfRange).res0 = s.res0 := rfl
@[simp] theorem State.recordInputOutOfRange_res1 (s : State) : (s.recordInputOutOfRange).res1 = s.res1 := rfl
@[simp] theorem State.recordInputOutOfRange_code (s : State) : (s.recordInputOutOfRange).code = s.code := rfl
@[simp] theorem State.recordInputOutOfRange_err (s : State) : (s.recordInputOutOfRange).err = s.err := rfl
@[simp] theorem State.recordInputOutOfRange_tbl (s : State) : (s.recordInputOutOfRange).tbl = s.tbl := rfl
@[simp] theorem State.recordInputOutOfRange_mem (s : State) : (s.recordInputOutOfRange).mem = s.mem := rfl
@[simp] theorem State.recordInputOutOfRange_faults (s : State) : (s.recordInputOutOfRange).faults = { s.faults with inputOutOfRange := true } := rfl
@[simp] theorem State.recordInputOutOfRange_inbox (s : State) : (s.recordInputOutOfRange).inbox = s.inbox := rfl
@[simp] theorem State.recordInputOutOfRange_replies (s : State) : (s.recordInputOutOfRange).replies = s.replies := rfl
@[simp] theorem State.recordInputOutOfRange_resetEpoch (s : State) : (s.recordInputOutOfRange).resetEpoch = s.resetEpoch := rfl
@[simp] theorem State.recordInputOutOfRange_draws (s : State) : (s.recordInputOutOfRange).draws = s.draws := rfl

/-! Writing a buffer word. -/

@[simp] theorem writeBuf_params (j : Nat) (v : Word) (s : State) : (writeBuf j v s).params = s.params := rfl
@[simp] theorem writeBuf_arg0 (j : Nat) (v : Word) (s : State) : (writeBuf j v s).arg0 = s.arg0 := rfl
@[simp] theorem writeBuf_arg1 (j : Nat) (v : Word) (s : State) : (writeBuf j v s).arg1 = s.arg1 := rfl
@[simp] theorem writeBuf_arg2 (j : Nat) (v : Word) (s : State) : (writeBuf j v s).arg2 = s.arg2 := rfl
@[simp] theorem writeBuf_arg3 (j : Nat) (v : Word) (s : State) : (writeBuf j v s).arg3 = s.arg3 := rfl
@[simp] theorem writeBuf_arg4 (j : Nat) (v : Word) (s : State) : (writeBuf j v s).arg4 = s.arg4 := rfl
@[simp] theorem writeBuf_res0 (j : Nat) (v : Word) (s : State) : (writeBuf j v s).res0 = s.res0 := rfl
@[simp] theorem writeBuf_res1 (j : Nat) (v : Word) (s : State) : (writeBuf j v s).res1 = s.res1 := rfl
@[simp] theorem writeBuf_code (j : Nat) (v : Word) (s : State) : (writeBuf j v s).code = s.code := rfl
@[simp] theorem writeBuf_err (j : Nat) (v : Word) (s : State) : (writeBuf j v s).err = s.err := rfl
@[simp] theorem writeBuf_tbl (j : Nat) (v : Word) (s : State) : (writeBuf j v s).tbl = s.tbl := rfl
@[simp] theorem writeBuf_mem (j : Nat) (v : Word) (s : State) : (writeBuf j v s).mem = Memory.setBufWord s.mem j v := rfl
@[simp] theorem writeBuf_faults (j : Nat) (v : Word) (s : State) : (writeBuf j v s).faults = s.faults := rfl
@[simp] theorem writeBuf_inbox (j : Nat) (v : Word) (s : State) : (writeBuf j v s).inbox = s.inbox := rfl
@[simp] theorem writeBuf_replies (j : Nat) (v : Word) (s : State) : (writeBuf j v s).replies = s.replies := rfl
@[simp] theorem writeBuf_resetEpoch (j : Nat) (v : Word) (s : State) : (writeBuf j v s).resetEpoch = s.resetEpoch := rfl
@[simp] theorem writeBuf_draws (j : Nat) (v : Word) (s : State) : (writeBuf j v s).draws = s.draws := rfl

/-! A reset by the platform. -/

@[simp] theorem platformReset_params (s : State) : (platformReset s).params = s.params := rfl
@[simp] theorem platformReset_arg0 (s : State) : (platformReset s).arg0 = 0 := rfl
@[simp] theorem platformReset_arg1 (s : State) : (platformReset s).arg1 = 0 := rfl
@[simp] theorem platformReset_arg2 (s : State) : (platformReset s).arg2 = 0 := rfl
@[simp] theorem platformReset_arg3 (s : State) : (platformReset s).arg3 = 0 := rfl
@[simp] theorem platformReset_arg4 (s : State) : (platformReset s).arg4 = 0 := rfl
@[simp] theorem platformReset_res0 (s : State) : (platformReset s).res0 = 0 := rfl
@[simp] theorem platformReset_res1 (s : State) : (platformReset s).res1 = 0 := rfl
@[simp] theorem platformReset_code (s : State) : (platformReset s).code = .ok := rfl
@[simp] theorem platformReset_err (s : State) : (platformReset s).err = false := rfl
@[simp] theorem platformReset_tbl (s : State) : (platformReset s).tbl = none := rfl
@[simp] theorem platformReset_mem (s : State) : (platformReset s).mem = [] := rfl
@[simp] theorem platformReset_faults (s : State) : (platformReset s).faults = FaultRecord.empty := rfl
@[simp] theorem platformReset_inbox (s : State) : (platformReset s).inbox = s.inbox := rfl
@[simp] theorem platformReset_replies (s : State) : (platformReset s).replies = s.replies := rfl
@[simp] theorem platformReset_resetEpoch (s : State) : (platformReset s).resetEpoch = s.resetEpoch + 1 := rfl
@[simp] theorem platformReset_draws (s : State) : (platformReset s).draws = s.draws := rfl

/-! Writing an operand register. -/

@[simp] theorem State.setArg_params (i : Fin 5) (v : Word) (s : State) : (s.setArg i v).params = s.params := by fin_cases i <;> rfl
@[simp] theorem State.setArg_res0 (i : Fin 5) (v : Word) (s : State) : (s.setArg i v).res0 = s.res0 := by fin_cases i <;> rfl
@[simp] theorem State.setArg_res1 (i : Fin 5) (v : Word) (s : State) : (s.setArg i v).res1 = s.res1 := by fin_cases i <;> rfl
@[simp] theorem State.setArg_code (i : Fin 5) (v : Word) (s : State) : (s.setArg i v).code = s.code := by fin_cases i <;> rfl
@[simp] theorem State.setArg_err (i : Fin 5) (v : Word) (s : State) : (s.setArg i v).err = s.err := by fin_cases i <;> rfl
@[simp] theorem State.setArg_tbl (i : Fin 5) (v : Word) (s : State) : (s.setArg i v).tbl = s.tbl := by fin_cases i <;> rfl
@[simp] theorem State.setArg_mem (i : Fin 5) (v : Word) (s : State) : (s.setArg i v).mem = s.mem := by fin_cases i <;> rfl
@[simp] theorem State.setArg_faults (i : Fin 5) (v : Word) (s : State) : (s.setArg i v).faults = s.faults := by fin_cases i <;> rfl
@[simp] theorem State.setArg_inbox (i : Fin 5) (v : Word) (s : State) : (s.setArg i v).inbox = s.inbox := by fin_cases i <;> rfl
@[simp] theorem State.setArg_replies (i : Fin 5) (v : Word) (s : State) : (s.setArg i v).replies = s.replies := by fin_cases i <;> rfl
@[simp] theorem State.setArg_resetEpoch (i : Fin 5) (v : Word) (s : State) : (s.setArg i v).resetEpoch = s.resetEpoch := by fin_cases i <;> rfl
@[simp] theorem State.setArg_draws (i : Fin 5) (v : Word) (s : State) : (s.setArg i v).draws = s.draws := by fin_cases i <;> rfl

@[simp] theorem State.setArg_arg (i j : Fin 5) (v : Word) (s : State) :
    (s.setArg i v).arg j = if j = i then v else s.arg j := by
  fin_cases i <;> fin_cases j <;> rfl

/-! Operands of updated states. -/

@[simp] theorem State.complete_arg (c : StatusCode) (s : State) (i : Fin 5) : (s.complete c).arg i = s.arg i := by fin_cases i <;> rfl
@[simp] theorem State.finishOne_arg (v : Word) (s : State) (i : Fin 5) : (s.finishOne v).arg i = s.arg i := by fin_cases i <;> rfl
@[simp] theorem State.finishTwo_arg (vs : Word × Word) (s : State) (i : Fin 5) : (s.finishTwo vs).arg i = s.arg i := by fin_cases i <;> rfl
@[simp] theorem State.reply_arg (r : Reply) (s : State) (i : Fin 5) : (s.reply r).arg i = s.arg i := by fin_cases i <;> rfl
@[simp] theorem State.recordUnwrittenRead_arg (s : State) (i : Fin 5) : (s.recordUnwrittenRead).arg i = s.arg i := by fin_cases i <;> rfl
@[simp] theorem State.recordInputOutOfRange_arg (s : State) (i : Fin 5) : (s.recordInputOutOfRange).arg i = s.arg i := by fin_cases i <;> rfl
@[simp] theorem writeBuf_arg (j : Nat) (v : Word) (s : State) (i : Fin 5) : (writeBuf j v s).arg i = s.arg i := by fin_cases i <;> rfl

@[simp] theorem State.arg_zero (s : State) : s.arg 0 = s.arg0 := rfl
@[simp] theorem State.arg_one (s : State) : s.arg 1 = s.arg1 := rfl
@[simp] theorem State.arg_two (s : State) : s.arg 2 = s.arg2 := rfl
@[simp] theorem State.arg_three (s : State) : s.arg 3 = s.arg3 := rfl
@[simp] theorem State.arg_four (s : State) : s.arg 4 = s.arg4 := rfl

/-! The flags. -/

@[simp] theorem errAfter_ok (e : Bool) : errAfter .ok e = e := rfl

theorem errAfter_of_ne_ok {c : StatusCode} (h : c ≠ .ok) (e : Bool) : errAfter c e = true := if_neg h

/-- What completing changes, as one equation (R15). -/
theorem State.complete_eq (c : StatusCode) (s : State) : s.complete c = { s with code := c, err := errAfter c s.err } := rfl

/-- A completion with `OK` changes `CODE` only (R15). -/
theorem State.complete_ok (s : State) : s.complete .ok = { s with code := .ok } := rfl

theorem State.finishOne_eq (v : Word) (s : State) : s.finishOne v = { s with res0 := v, code := .ok } := rfl

theorem State.finishTwo_eq (vs : Word × Word) (s : State) :
    s.finishTwo vs = { s with res0 := vs.1, res1 := vs.2, code := .ok } := rfl

/-! The two read-only words. -/

theorem StatusCode.number_lt (c : StatusCode) : c.number < 7 := by cases c <;> decide

/-- R23: `STATUS` is the sum of its three fields, none of which carries into the next. -/
theorem State.statusWord_toNat (s : State) :
    s.statusWord.toNat = s.code.number + 2 ^ 8 * s.initialized.toNat + 2 ^ 9 * s.err.toNat := by
  have h1 := s.code.number_lt
  have h2 := Bool.toNat_le s.initialized
  have h3 := Bool.toNat_le s.err
  rw [State.statusWord, BitVec.toNat_ofNat, Nat.mod_eq_of_lt (by omega)]

/-- R27: `CAPS` holds the two degree bounds, each in its own byte. -/
theorem capsWord_toNat (p : Params) : (capsWord p).toNat = p.logNMin % 2 ^ 8 + 2 ^ 8 * (p.logNMax % 2 ^ 8) := by
  rw [capsWord, BitVec.toNat_ofNat, Nat.mod_eq_of_lt (by omega)]

end Sys2Proof.Machine
end

