-- ==== Sys2Proof/Laws/Buffer.lean ====
section
/-! SUPPORT. Sys2Proof/Laws/Buffer.lean: which fields reading, checking and writing the buffer leave alone, one lemma each. -/

namespace Sys2Proof.Machine

/-! Reading one word. -/

@[simp] theorem readBuf_params (j : Nat) (s : State) : (readBuf j s).2.params = s.params := by rw [readBuf_frame]
@[simp] theorem readBuf_arg0 (j : Nat) (s : State) : (readBuf j s).2.arg0 = s.arg0 := by rw [readBuf_frame]
@[simp] theorem readBuf_arg1 (j : Nat) (s : State) : (readBuf j s).2.arg1 = s.arg1 := by rw [readBuf_frame]
@[simp] theorem readBuf_arg2 (j : Nat) (s : State) : (readBuf j s).2.arg2 = s.arg2 := by rw [readBuf_frame]
@[simp] theorem readBuf_arg3 (j : Nat) (s : State) : (readBuf j s).2.arg3 = s.arg3 := by rw [readBuf_frame]
@[simp] theorem readBuf_arg4 (j : Nat) (s : State) : (readBuf j s).2.arg4 = s.arg4 := by rw [readBuf_frame]
@[simp] theorem readBuf_res0 (j : Nat) (s : State) : (readBuf j s).2.res0 = s.res0 := by rw [readBuf_frame]
@[simp] theorem readBuf_res1 (j : Nat) (s : State) : (readBuf j s).2.res1 = s.res1 := by rw [readBuf_frame]
@[simp] theorem readBuf_code (j : Nat) (s : State) : (readBuf j s).2.code = s.code := by rw [readBuf_frame]
@[simp] theorem readBuf_err (j : Nat) (s : State) : (readBuf j s).2.err = s.err := by rw [readBuf_frame]
@[simp] theorem readBuf_tbl (j : Nat) (s : State) : (readBuf j s).2.tbl = s.tbl := by rw [readBuf_frame]
@[simp] theorem readBuf_mem (j : Nat) (s : State) : (readBuf j s).2.mem = s.mem := by rw [readBuf_frame]
@[simp] theorem readBuf_inbox (j : Nat) (s : State) : (readBuf j s).2.inbox = s.inbox := by rw [readBuf_frame]
@[simp] theorem readBuf_replies (j : Nat) (s : State) : (readBuf j s).2.replies = s.replies := by rw [readBuf_frame]
@[simp] theorem readBuf_resetEpoch (j : Nat) (s : State) : (readBuf j s).2.resetEpoch = s.resetEpoch := by rw [readBuf_frame]

/-! Reading several words. -/

@[simp] theorem readBufs_params (count j : Nat) (s : State) : (readBufs count j s).2.params = s.params := by rw [readBufs_frame]
@[simp] theorem readBufs_arg0 (count j : Nat) (s : State) : (readBufs count j s).2.arg0 = s.arg0 := by rw [readBufs_frame]
@[simp] theorem readBufs_arg1 (count j : Nat) (s : State) : (readBufs count j s).2.arg1 = s.arg1 := by rw [readBufs_frame]
@[simp] theorem readBufs_arg2 (count j : Nat) (s : State) : (readBufs count j s).2.arg2 = s.arg2 := by rw [readBufs_frame]
@[simp] theorem readBufs_arg3 (count j : Nat) (s : State) : (readBufs count j s).2.arg3 = s.arg3 := by rw [readBufs_frame]
@[simp] theorem readBufs_arg4 (count j : Nat) (s : State) : (readBufs count j s).2.arg4 = s.arg4 := by rw [readBufs_frame]
@[simp] theorem readBufs_res0 (count j : Nat) (s : State) : (readBufs count j s).2.res0 = s.res0 := by rw [readBufs_frame]
@[simp] theorem readBufs_res1 (count j : Nat) (s : State) : (readBufs count j s).2.res1 = s.res1 := by rw [readBufs_frame]
@[simp] theorem readBufs_code (count j : Nat) (s : State) : (readBufs count j s).2.code = s.code := by rw [readBufs_frame]
@[simp] theorem readBufs_err (count j : Nat) (s : State) : (readBufs count j s).2.err = s.err := by rw [readBufs_frame]
@[simp] theorem readBufs_tbl (count j : Nat) (s : State) : (readBufs count j s).2.tbl = s.tbl := by rw [readBufs_frame]
@[simp] theorem readBufs_mem (count j : Nat) (s : State) : (readBufs count j s).2.mem = s.mem := by rw [readBufs_frame]
@[simp] theorem readBufs_inbox (count j : Nat) (s : State) : (readBufs count j s).2.inbox = s.inbox := by rw [readBufs_frame]
@[simp] theorem readBufs_replies (count j : Nat) (s : State) : (readBufs count j s).2.replies = s.replies := by rw [readBufs_frame]
@[simp] theorem readBufs_resetEpoch (count j : Nat) (s : State) : (readBufs count j s).2.resetEpoch = s.resetEpoch := by rw [readBufs_frame]

/-! Writing several words. -/

@[simp] theorem writeBufs_params (j : Nat) (ws : List Word) (s : State) : (writeBufs j ws s).params = s.params := by rw [writeBufs_mem_only]
@[simp] theorem writeBufs_arg0 (j : Nat) (ws : List Word) (s : State) : (writeBufs j ws s).arg0 = s.arg0 := by rw [writeBufs_mem_only]
@[simp] theorem writeBufs_arg1 (j : Nat) (ws : List Word) (s : State) : (writeBufs j ws s).arg1 = s.arg1 := by rw [writeBufs_mem_only]
@[simp] theorem writeBufs_arg2 (j : Nat) (ws : List Word) (s : State) : (writeBufs j ws s).arg2 = s.arg2 := by rw [writeBufs_mem_only]
@[simp] theorem writeBufs_arg3 (j : Nat) (ws : List Word) (s : State) : (writeBufs j ws s).arg3 = s.arg3 := by rw [writeBufs_mem_only]
@[simp] theorem writeBufs_arg4 (j : Nat) (ws : List Word) (s : State) : (writeBufs j ws s).arg4 = s.arg4 := by rw [writeBufs_mem_only]
@[simp] theorem writeBufs_res0 (j : Nat) (ws : List Word) (s : State) : (writeBufs j ws s).res0 = s.res0 := by rw [writeBufs_mem_only]
@[simp] theorem writeBufs_res1 (j : Nat) (ws : List Word) (s : State) : (writeBufs j ws s).res1 = s.res1 := by rw [writeBufs_mem_only]
@[simp] theorem writeBufs_code (j : Nat) (ws : List Word) (s : State) : (writeBufs j ws s).code = s.code := by rw [writeBufs_mem_only]
@[simp] theorem writeBufs_err (j : Nat) (ws : List Word) (s : State) : (writeBufs j ws s).err = s.err := by rw [writeBufs_mem_only]
@[simp] theorem writeBufs_tbl (j : Nat) (ws : List Word) (s : State) : (writeBufs j ws s).tbl = s.tbl := by rw [writeBufs_mem_only]
@[simp] theorem writeBufs_faults (j : Nat) (ws : List Word) (s : State) : (writeBufs j ws s).faults = s.faults := by rw [writeBufs_mem_only]
@[simp] theorem writeBufs_inbox (j : Nat) (ws : List Word) (s : State) : (writeBufs j ws s).inbox = s.inbox := by rw [writeBufs_mem_only]
@[simp] theorem writeBufs_replies (j : Nat) (ws : List Word) (s : State) : (writeBufs j ws s).replies = s.replies := by rw [writeBufs_mem_only]
@[simp] theorem writeBufs_resetEpoch (j : Nat) (ws : List Word) (s : State) : (writeBufs j ws s).resetEpoch = s.resetEpoch := by rw [writeBufs_mem_only]
@[simp] theorem writeBufs_draws (j : Nat) (ws : List Word) (s : State) : (writeBufs j ws s).draws = s.draws := by rw [writeBufs_mem_only]

/-! Checking a pass's input. -/

@[simp] theorem checkInputs_params (bound : Nat) (a : List Word) (s : State) : (checkInputs bound a s).params = s.params := by rw [checkInputs_frame]
@[simp] theorem checkInputs_arg0 (bound : Nat) (a : List Word) (s : State) : (checkInputs bound a s).arg0 = s.arg0 := by rw [checkInputs_frame]
@[simp] theorem checkInputs_arg1 (bound : Nat) (a : List Word) (s : State) : (checkInputs bound a s).arg1 = s.arg1 := by rw [checkInputs_frame]
@[simp] theorem checkInputs_arg2 (bound : Nat) (a : List Word) (s : State) : (checkInputs bound a s).arg2 = s.arg2 := by rw [checkInputs_frame]
@[simp] theorem checkInputs_arg3 (bound : Nat) (a : List Word) (s : State) : (checkInputs bound a s).arg3 = s.arg3 := by rw [checkInputs_frame]
@[simp] theorem checkInputs_arg4 (bound : Nat) (a : List Word) (s : State) : (checkInputs bound a s).arg4 = s.arg4 := by rw [checkInputs_frame]
@[simp] theorem checkInputs_res0 (bound : Nat) (a : List Word) (s : State) : (checkInputs bound a s).res0 = s.res0 := by rw [checkInputs_frame]
@[simp] theorem checkInputs_res1 (bound : Nat) (a : List Word) (s : State) : (checkInputs bound a s).res1 = s.res1 := by rw [checkInputs_frame]
@[simp] theorem checkInputs_code (bound : Nat) (a : List Word) (s : State) : (checkInputs bound a s).code = s.code := by rw [checkInputs_frame]
@[simp] theorem checkInputs_err (bound : Nat) (a : List Word) (s : State) : (checkInputs bound a s).err = s.err := by rw [checkInputs_frame]
@[simp] theorem checkInputs_tbl (bound : Nat) (a : List Word) (s : State) : (checkInputs bound a s).tbl = s.tbl := by rw [checkInputs_frame]
@[simp] theorem checkInputs_mem (bound : Nat) (a : List Word) (s : State) : (checkInputs bound a s).mem = s.mem := by rw [checkInputs_frame]
@[simp] theorem checkInputs_inbox (bound : Nat) (a : List Word) (s : State) : (checkInputs bound a s).inbox = s.inbox := by rw [checkInputs_frame]
@[simp] theorem checkInputs_replies (bound : Nat) (a : List Word) (s : State) : (checkInputs bound a s).replies = s.replies := by rw [checkInputs_frame]
@[simp] theorem checkInputs_resetEpoch (bound : Nat) (a : List Word) (s : State) : (checkInputs bound a s).resetEpoch = s.resetEpoch := by rw [checkInputs_frame]
@[simp] theorem checkInputs_draws (bound : Nat) (a : List Word) (s : State) : (checkInputs bound a s).draws = s.draws := by rw [checkInputs_frame]

/-! What a pass reads. -/

theorem State.written_eq_false {s : State} {j : Nat} : s.written j = false ↔ Memory.bufWord s.mem j = none := by
  simp [State.written]

theorem unwrittenBelow_succ (s : State) (j : Nat) :
    unwrittenBelow s (j + 1) = unwrittenBelow s j + if s.written j = false then 1 else 0 := by
  rw [unwrittenBelow, List.range_succ, List.countP_append, List.countP_singleton, unwrittenBelow]
  simp only [decide_eq_true_eq]

theorem unwrittenBelow_pos {s : State} {n : Nat} : 0 < unwrittenBelow s n ↔ ∃ j < n, s.written j = false := by
  simp [unwrittenBelow, List.countP_pos_iff]

theorem passInput_of_written {s : State} {j : Nat} {w : Word} (h : Memory.bufWord s.mem j = some w) : passInput s j = w := by
  simp [passInput, h]

/-- Reading one word more reads it last. -/
theorem readBufs_succ (count j : Nat) (s : State) :
    readBufs (count + 1) j s =
      ((readBufs count j s).1 ++ [(readBuf (j + count) (readBufs count j s).2).1],
        (readBuf (j + count) (readBufs count j s).2).2) := by
  induction count generalizing j s with
  | zero => rfl
  | succ count ih =>
    rw [readBufs, ih, Nat.add_right_comm j 1 count, Nat.add_assoc j count 1]
    rfl

/-- Everything reading `BUF[0..count)` does: the words it answers, and what it records or draws for the unwritten ones
(R57, R185, R209). -/
theorem readBufs_eq (count : Nat) (s : State) :
    readBufs count 0 s =
      ((List.range count).map (passInput s),
        match s.params.bufUnwritten with
        | .fault => { s with faults := { s.faults with
            unwrittenRead := s.faults.unwrittenRead || decide (0 < unwrittenBelow s count) } }
        | .draw => { s with draws := s.draws + unwrittenBelow s count }) := by
  induction count with
  | zero => cases hb : s.params.bufUnwritten <;> simp [readBufs, unwrittenBelow]
  | succ count ih =>
    rw [readBufs_succ, ih, List.range_succ, List.map_append, Nat.zero_add, unwrittenBelow_succ]
    cases hw : Memory.bufWord s.mem count <;> cases hb : s.params.bufUnwritten <;>
      simp [readBuf, passInput, hw, hb, State.recordUnwrittenRead, State.written, Nat.add_assoc]

/-- What an input check leaves of the fault record (R185, R209). -/
theorem checkInputs_inputOutOfRange (bound : Nat) (a : List Word) (s : State) :
    (checkInputs bound a s).faults.inputOutOfRange = true ↔
      s.faults.inputOutOfRange = true ∨ (s.params.oorMode = .fault ∧ ∃ w ∈ a, bound ≤ w.toNat) := by
  cases hm : s.params.oorMode with
  | formula => simp [checkInputs, hm]
  | fault =>
    by_cases ha : ∃ w ∈ a, bound ≤ w.toNat
    · simp [checkInputs, hm, ha, State.recordInputOutOfRange]
    · simp [checkInputs, hm, ha]

end Sys2Proof.Machine
end

