-- ==== Sys2Proof/Laws/Decode.lean ====
section
/-! SUPPORT. Sys2Proof/Laws/Decode.lean: what the decoder's parts can answer. -/

namespace Sys2Proof

open Sys2Proof.Machine

theorem natOfBytes_lt (bs : List Byte) : natOfBytes bs < 2 ^ (8 * bs.length) := by
  induction bs with
  | nil => simp [natOfBytes]
  | cons b rest ih =>
    have hb := b.isLt
    simp only [natOfBytes, List.length_cons, Nat.mul_add, pow_add]
    omega

/-- Eight bytes and their word determine each other (R58). -/
theorem bytesOfWord_wordOfBytes {bs : List Byte} (h : bs.length = 8) : bytesOfWord (wordOfBytes bs) = bs := by
  match bs, h with
  | [b0, b1, b2, b3, b4, b5, b6, b7], _ =>
    have h0 := b0.isLt
    have h1 := b1.isLt
    have h2 := b2.isLt
    have h3 := b3.isLt
    have h4 := b4.isLt
    have h5 := b5.isLt
    have h6 := b6.isLt
    have h7 := b7.isLt
    simp only [bytesOfWord, wordOfBytes, List.range, List.range.loop, List.map, natOfBytes, BitVec.toNat_ofNat,
      List.cons.injEq, and_true]
    refine ⟨?_, ?_, ?_, ?_, ?_, ?_, ?_, ?_⟩ <;>
    · apply BitVec.eq_of_toNat_eq
      simp only [BitVec.toNat_ofNat]
      norm_num
      omega

/-- What a TBL_GET_ARRAY selector can name (R86). -/
theorem arrayCommand_ok {sel : Nat} {i : Instr} (h : arrayCommand sel = .ok i) : i.opcode = 0x20 ∧ i.selector = sel := by
  unfold arrayCommand at h
  split at h <;> simp_all <;> subst h <;> exact ⟨rfl, rfl⟩

/-- What a TBL_GET_SCALAR selector can name (R87). -/
theorem scalarCommand_ok {sel : Nat} {i : Instr} (h : scalarCommand sel = .ok i) : i.opcode = 0x21 ∧ i.selector = sel := by
  unfold scalarCommand at h
  split at h <;> simp_all <;> subst h <;> exact ⟨rfl, rfl⟩

/-- What an opcode without selector can name (R85). -/
theorem plainCommand_ok {op : Nat} {i : Instr} (h : plainCommand op = .ok i) : i.opcode = op ∧ i.selector = 0 := by
  unfold plainCommand at h
  split at h <;> simp_all <;> subst h <;> exact ⟨rfl, rfl⟩

/-- The decoder's fields of a command's word are its own (R80, R91). -/
theorem fields_encodeWord (i : Instr) :
    opField (encodeWord i) = i.opcode ∧ selField (encodeWord i) = i.selector ∧ rsvdField (encodeWord i) = 0 := by
  cases i <;> decide

end Sys2Proof
end

