-- ==== Sys2Proof/Laws/Number.lean ====
section
/-! SUPPORT. Sys2Proof/Laws/Number.lean: the algorithms of Machine/Number.lean give exactly the results of R142 to R145. -/

namespace Sys2Proof.Machine

/-! Powers. -/

theorem powModBits_eq (bits b e q : Nat) (h : e < 2 ^ bits) : powModBits bits b e q = b ^ e % q := by
  induction bits generalizing b e with
  | zero =>
    obtain rfl : e = 0 := by simpa using h
    rfl
  | succ bits ih =>
    have hhalf : powModBits bits (b * b % q) (e / 2) q = b ^ (2 * (e / 2)) % q := by
      rw [ih _ _ (by omega), ← Nat.pow_mod, pow_mul, pow_two]
    simp only [powModBits, hhalf]
    split
    · simp_all
    · split
      · rw [← Nat.mul_mod_mod, Nat.mod_mod, Nat.mul_mod_mod, ← pow_succ']
        congr 2
        omega
      · congr 2
        omega

theorem powMod_eq (b e q : Nat) (h : e < 2 ^ 64) : powMod b e q = b ^ e % q := powModBits_eq 64 b e q h

/-! Primality. -/

theorem noDivisor_of_prime {q : Nat} (hq : q.Prime) (fuel d stride : Nat) (hd : 2 ≤ d) :
    noDivisor fuel d stride q = true := by
  induction fuel generalizing d with
  | zero => rfl
  | succ fuel ih =>
    simp only [noDivisor]
    split
    · rfl
    · next hlt =>
      have hne : q % d ≠ 0 := fun h0 => by
        rcases (Nat.dvd_prime hq).1 (Nat.dvd_of_mod_eq_zero h0) with h | h
        · omega
        · subst h
          nlinarith
      rw [if_neg hne]
      exact ih _ (by omega)

/-- What a passed trial division says: no candidate up to the square root divides `q`. -/
theorem noDivisor_spec {fuel d stride q : Nat} (h : noDivisor fuel d stride q = true) (k : Nat)
    (hk : (d + k * stride) * (d + k * stride) ≤ q) (hf : k < fuel) : ¬ (d + k * stride) ∣ q := by
  induction fuel generalizing d k with
  | zero => omega
  | succ fuel ih =>
    simp only [noDivisor] at h
    split at h
    · next hlt => nlinarith [Nat.zero_le (k * stride)]
    · split at h
      · simp at h
      · next hmod =>
        cases k with
        | zero => simpa [Nat.dvd_iff_mod_eq_zero] using hmod
        | succ k =>
          have e : d + (k + 1) * stride = (d + stride) + k * stride := by ring
          rw [e] at hk ⊢
          exact ih h k hk (by omega)

theorem twoPart_eq_pow (fuel m : Nat) : ∃ v, twoPart fuel m = 2 ^ v ∧ 2 ^ v ∣ m ∧ v ≤ fuel := by
  induction fuel generalizing m with
  | zero => exact ⟨0, by simp [twoPart]⟩
  | succ fuel ih =>
    simp only [twoPart]
    split
    · next h =>
      obtain ⟨v, hv, hd, hle⟩ := ih (m / 2)
      refine ⟨v + 1, by rw [hv, pow_succ']; , ?_, by omega⟩
      obtain ⟨c, hc⟩ := hd
      exact ⟨c, by rw [pow_succ, mul_right_comm, ← hc]; omega⟩
    · exact ⟨0, by simp⟩

/-- Every prime divisor of `q` is 1 modulo a power of two in `q - 1`, when some `(q - 1) / 2`-th power is `-1`. -/
theorem prime_divisor_mod_twoPart {q a p v : Nat} (hv : 2 ^ v ∣ q - 1) (hq : q % 2 = 1) (hq1 : 1 < q)
    (ha : a ^ ((q - 1) / 2) % q = q - 1) (hp : p.Prime) (hpq : p ∣ q) : 2 ^ v ∣ p - 1 := by
  have := Fact.mk hp
  have hodd : p ≠ 2 := by
    rintro rfl
    omega
  cases v with
  | zero => simp
  | succ v =>
    obtain ⟨u, hu⟩ := hv
    have hhalf : (q - 1) / 2 = u * 2 ^ v := by
      rw [hu, show 2 ^ (v + 1) * u = 2 * (u * 2 ^ v) by ring, Nat.mul_div_cancel_left _ (by norm_num)]
    have hneg : ((a : ZMod p) ^ u) ^ 2 ^ v = -1 := by
      have h1 : ((a ^ ((q - 1) / 2) : ℕ) : ZMod p) = ((q - 1 : ℕ) : ZMod p) := by
        rw [ZMod.natCast_eq_natCast_iff]
        exact ((Nat.mod_modEq _ q).symm.trans (by rw [ha])).of_dvd hpq
      rw [← pow_mul, ← hhalf]
      have h2 : ((q - 1 : ℕ) : ZMod p) = -1 := by
        rw [Nat.cast_sub (by omega), (ZMod.natCast_eq_zero_iff q p).2 hpq]
        simp
      rw [← h2, ← h1]
      push_cast
      rfl
    have hne1 : ((a : ZMod p) ^ u) ^ 2 ^ v ≠ 1 := by
      rw [hneg]
      have : Fact (2 < p) := ⟨by have := hp.two_le; omega⟩
      exact ZMod.neg_one_ne_one
    have h1 : ((a : ZMod p) ^ u) ^ 2 ^ (v + 1) = 1 := by rw [pow_succ, pow_mul, hneg]; norm_num
    have hord := orderOf_eq_prime_pow hne1 h1
    have hx : (a : ZMod p) ^ u ≠ 0 := fun h0 => by
      rw [h0, zero_pow (by positivity)] at h1
      simp at h1
    rw [← hord]
    exact ZMod.orderOf_dvd_card_sub_one hx

theorem prime_of_no_small_prime {q : Nat} (h2 : 2 ≤ q) (h : ∀ p, p.Prime → p * p ≤ q → ¬ p ∣ q) : q.Prime := by
  by_contra hn
  have hm := Nat.minFac_prime (show q ≠ 1 by omega)
  exact h q.minFac hm (by have := Nat.minFac_sq_le_self (by omega) hn; rwa [pow_two] at this) (Nat.minFac_dvd q)

theorem prime_of_noDivisor_strided {q a v : Nat} (hq : q % 2 = 1) (hq1 : 1 < q)
    (ha : a ^ ((q - 1) / 2) % q = q - 1) (hv : 2 ^ v ∣ q - 1)
    (h : noDivisor q (1 + 2 ^ v) (2 ^ v) q = true) : q.Prime := by
  refine prime_of_no_small_prime (by omega) fun p hp hpp hpq => ?_
  obtain ⟨c, hc⟩ := prime_divisor_mod_twoPart hv hq hq1 ha hp hpq
  have hp2 := hp.two_le
  obtain ⟨c', rfl⟩ : ∃ c', c = c' + 1 := Nat.exists_eq_succ_of_ne_zero (by rintro rfl; omega)
  have hpc : p = 1 + 2 ^ v + c' * 2 ^ v := by
    have : p = 2 ^ v * (c' + 1) + 1 := by omega
    rw [this]; ring
  have hlt : c' < q := by
    have h1 : c' * 1 ≤ c' * 2 ^ v := Nat.mul_le_mul_left _ Nat.one_le_two_pow
    have h3 : c' < p := by omega
    exact h3.trans_le ((Nat.le_mul_self p).trans hpp)
  rw [hpc] at hpp hpq
  exact noDivisor_spec h c' hpp hlt hpq

theorem prime_of_noDivisor_odd {q : Nat} (hq : q % 2 = 1) (hq1 : 1 < q) (h : noDivisor q 3 2 q = true) : q.Prime := by
  refine prime_of_no_small_prime (by omega) fun p hp hpp hpq => ?_
  have hp2 := hp.two_le
  have hodd : p % 2 = 1 := by
    rcases hp.eq_two_or_odd with rfl | h
    · omega
    · exact h
  have hpc : p = 3 + (p / 2 - 1) * 2 := by omega
  rw [hpc] at hpp hpq
  exact noDivisor_spec h _ hpp (by nlinarith) hpq

theorem prime_pow_half {q a : Nat} (hq : q.Prime) (hodd : q % 2 = 1) (ha : 0 < a) (haq : a < q) :
    a ^ ((q - 1) / 2) % q = 1 ∨ a ^ ((q - 1) / 2) % q = q - 1 := by
  have := Fact.mk hq
  have h2 := hq.two_le
  have hz : (a : ZMod q) ≠ 0 := fun h0 =>
    Nat.not_dvd_of_pos_of_lt ha haq ((ZMod.natCast_eq_zero_iff a q).1 h0)
  have hdiv : (q - 1) / 2 = q / 2 := by omega
  rw [hdiv]
  rcases ZMod.pow_div_two_eq_neg_one_or_one q hz with h | h
  · left
    have h' : ((a ^ (q / 2) : ℕ) : ZMod q) = ((1 : ℕ) : ZMod q) := by push_cast; exact h
    rw [ZMod.natCast_eq_natCast_iff'] at h'
    exact h'.trans (Nat.mod_eq_of_lt hq.one_lt)
  · right
    have h' : ((a ^ (q / 2) : ℕ) : ZMod q) = ((q - 1 : ℕ) : ZMod q) := by
      rw [Nat.cast_sub (by omega)]
      push_cast
      rw [h]
      simp
    rw [ZMod.natCast_eq_natCast_iff'] at h'
    exact h'.trans (Nat.mod_eq_of_lt (by omega))

theorem oddPrimeTest_iff {q : Nat} (hodd : q % 2 = 1) (hq1 : 1 < q) (hq : q < 2 ^ 64) (bases a : Nat) (ha : 0 < a) :
    oddPrimeTest bases a q = true ↔ q.Prime := by
  induction bases generalizing a with
  | zero => exact ⟨prime_of_noDivisor_odd hodd hq1, fun h => noDivisor_of_prime h _ _ _ (by norm_num)⟩
  | succ bases ih =>
    simp only [oddPrimeTest, powMod_eq a ((q - 1) / 2) q (by omega)]
    split
    · exact ⟨prime_of_noDivisor_odd hodd hq1, fun h => noDivisor_of_prime h _ _ _ (by norm_num)⟩
    · next hlt =>
      split
      · next hneg =>
        obtain ⟨v, hv, hd, -⟩ := twoPart_eq_pow 64 (q - 1)
        rw [hv]
        refine ⟨prime_of_noDivisor_strided hodd hq1 hneg hd, fun h => noDivisor_of_prime h _ _ _ ?_⟩
        have := Nat.one_le_two_pow (n := v)
        omega
      · next hneg =>
        split
        · exact ih (a + 1) (by omega)
        · next hone =>
          refine ⟨by simp, fun h => ?_⟩
          rcases prime_pow_half h hodd ha (by omega) with h1 | h1
          · exact absurd h1 hone
          · exact absurd h1 hneg

/-- R142: `isPrime` is the mathematical predicate. -/
theorem isPrime_iff {q : Nat} (hq : q < 2 ^ 64) : isPrime q = true ↔ q.Prime := by
  unfold isPrime
  split
  · next h => exact ⟨by simp, fun hp => absurd hp.two_le (by omega)⟩
  · split
    · next h0 =>
      simp only [beq_iff_eq]
      refine ⟨by rintro rfl; exact Nat.prime_two, fun hp => ?_⟩
      rcases hp.eq_two_or_odd with h | h <;> omega
    · exact oddPrimeTest_iff (by omega) (by omega) hq 64 2 (by norm_num)

/-! Roots of unity. -/

theorem natCast_pow_eq_neg_one {q x n : Nat} (hq : 1 < q) : x ^ n % q = q - 1 ↔ (x : ZMod q) ^ n = -1 := by
  have h1 : ((q - 1 : ℕ) : ZMod q) = -1 := by rw [Nat.cast_sub (by omega)]; simp
  rw [← h1, ← Nat.cast_pow, ZMod.natCast_eq_natCast_iff', Nat.mod_eq_of_lt (show q - 1 < q by omega)]

theorem natCast_pow_eq_one {q x n : Nat} : x ^ n % q = 1 % q ↔ (x : ZMod q) ^ n = 1 := by
  rw [← Nat.cast_pow, ← ZMod.natCast_eq_natCast_iff', Nat.cast_one]

theorem orderOf_of_pow_eq_neg_one {q k : Nat} (hq : q.Prime) (hq2 : 2 < q) {x : ZMod q} (h : x ^ 2 ^ k = -1) :
    orderOf x = 2 ^ (k + 1) := by
  have := Fact.mk hq
  have : Fact (2 < q) := ⟨hq2⟩
  refine orderOf_eq_prime_pow (by rw [h]; exact ZMod.neg_one_ne_one) ?_
  rw [pow_succ, pow_mul, h]
  norm_num

/-- R17: for an odd prime modulus and `n` a power of two, `x` is a primitive `2n`-th root exactly when `x^n ≡ -1`. -/
theorem isRootOfUnity_iff {q k : Nat} (hq : q.Prime) (hq2 : 2 < q) (x : Nat) :
    isRootOfUnity (2 ^ k) q x ↔ x ^ 2 ^ k % q = q - 1 := by
  have := Fact.mk hq
  rw [natCast_pow_eq_neg_one hq.one_lt]
  simp only [isRootOfUnity, ne_eq, natCast_pow_eq_one]
  constructor
  · rintro ⟨h1, hmin⟩
    have hsq : ((x : ZMod q) ^ 2 ^ k) ^ 2 = 1 := by rw [← pow_mul, mul_comm, h1]
    rcases sq_eq_one_iff.1 hsq with h | h
    · exact absurd h (hmin _ (by positivity) (by have := Nat.one_le_two_pow (n := k); omega))
    · exact h
  · intro h
    have hord := orderOf_of_pow_eq_neg_one hq hq2 h
    have he : 2 * 2 ^ k = orderOf (x : ZMod q) := by rw [hord, pow_succ']
    rw [he]
    exact ⟨pow_orderOf_eq_one _, fun j h0 hj h1 => absurd (orderOf_le_of_pow_eq_one h0 h1) (by omega)⟩

/-- R143: with no `2n` in `q - 1` there is no primitive `2n`-th root. -/
theorem two_mul_dvd_of_isRootOfUnity {q k x : Nat} (hq : q.Prime) (hq2 : 2 < q) (h : isRootOfUnity (2 ^ k) q x) :
    2 * 2 ^ k ∣ q - 1 := by
  have := Fact.mk hq
  have hx := (natCast_pow_eq_neg_one hq.one_lt).1 ((isRootOfUnity_iff hq hq2 x).1 h)
  have hne : (x : ZMod q) ≠ 0 := fun h0 => by
    rw [h0, zero_pow (by positivity)] at hx
    exact absurd hx.symm (neg_ne_zero.2 one_ne_zero)
  rw [← pow_succ', ← orderOf_of_pow_eq_neg_one hq hq2 hx]
  exact ZMod.orderOf_dvd_card_sub_one hne

theorem somePrimitiveRoot_spec {fuel a n q g : Nat} (hq : 1 < q) (hb : q < 2 ^ 64) (hn : n < 2 ^ 64)
    (h : somePrimitiveRoot fuel a n q = some g) : g < q ∧ g ^ n % q = q - 1 := by
  induction fuel generalizing a with
  | zero => simp [somePrimitiveRoot] at h
  | succ fuel ih =>
    have he : (q - 1) / (2 * n) < 2 ^ 64 := (Nat.div_le_self _ _).trans_lt (by omega)
    simp only [somePrimitiveRoot] at h
    split at h
    · next hr =>
      cases h
      rw [powMod_eq _ _ _ hn] at hr
      exact ⟨by rw [powMod_eq _ _ _ he]; exact Nat.mod_lt _ (by omega), hr⟩
    · exact ih h

theorem somePrimitiveRoot_isSome {fuel a n q b : Nat} (hb : q < 2 ^ 64) (hq : 0 < q) (hn : n < 2 ^ 64) (hab : a ≤ b)
    (hbf : b < a + fuel) (h : b ^ ((q - 1) / (2 * n) * n) % q = q - 1) : (somePrimitiveRoot fuel a n q).isSome := by
  induction fuel generalizing a with
  | zero => omega
  | succ fuel ih =>
    have he : (q - 1) / (2 * n) < 2 ^ 64 := (Nat.div_le_self _ _).trans_lt (by omega)
    simp only [somePrimitiveRoot]
    split
    · rfl
    · next hr =>
      rcases Nat.eq_or_lt_of_le hab with rfl | hlt
      · refine absurd ?_ hr
        rw [powMod_eq _ _ _ hn, powMod_eq _ _ _ he, ← Nat.pow_mod, ← pow_mul, h]
      · exact ih hlt (by omega)

theorem exists_pow_half_eq_neg_one {q : Nat} (hq : q.Prime) (hq2 : 2 < q) :
    ∃ b, 2 ≤ b ∧ b < q ∧ b ^ ((q - 1) / 2) % q = q - 1 := by
  have := Fact.mk hq
  have hodd := hq.eq_two_or_odd.resolve_left (by omega)
  obtain ⟨x, hx⟩ := FiniteField.exists_nonsquare (F := ZMod q) (by rw [ZMod.ringChar_zmod_n]; omega)
  have h0 : x ≠ 0 := by rintro rfl; exact hx (IsSquare.zero)
  have h1 : x ≠ 1 := by rintro rfl; exact hx (IsSquare.one)
  refine ⟨x.val, ?_, ZMod.val_lt x, ?_⟩
  · have h0' : x.val ≠ 0 := by rwa [Ne, ZMod.val_eq_zero]
    have h1' : x.val ≠ 1 := fun h => h1 (by rw [← ZMod.natCast_zmod_val x, h, Nat.cast_one])
    omega
  · rw [natCast_pow_eq_neg_one hq.one_lt, ZMod.natCast_zmod_val, show (q - 1) / 2 = q / 2 by omega]
    exact (ZMod.pow_div_two_eq_neg_one_or_one q h0).resolve_left fun h => hx ((ZMod.euler_criterion q h0).2 h)

theorem leastInOrbit_spec (g2 q : Nat) (count p best : Nat) (hp : p < q) :
    (leastInOrbit count p g2 q best = best ∨
      ∃ i < count, leastInOrbit count p g2 q best = p * g2 ^ i % q) ∧
    leastInOrbit count p g2 q best ≤ best ∧
    ∀ i < count, leastInOrbit count p g2 q best ≤ p * g2 ^ i % q := by
  induction count generalizing p best with
  | zero => simp [leastInOrbit]
  | succ count ih =>
    obtain ⟨hmem, hbest, hall⟩ := ih (p * g2 % q) (min best p) (Nat.mod_lt _ (by omega))
    have hshift : ∀ i, p * g2 % q * g2 ^ i % q = p * g2 ^ (i + 1) % q := fun i => by
      rw [Nat.mod_mul_mod, pow_succ', mul_assoc]
    simp only [leastInOrbit]
    refine ⟨?_, hbest.trans (min_le_left _ _), fun i hi => ?_⟩
    · rcases hmem with h | ⟨i, hi, h⟩
      · rcases le_total best p with hle | hle
        · exact .inl (by rw [h, min_eq_left hle])
        · exact .inr ⟨0, by omega, by rw [h, min_eq_right hle]; simp [Nat.mod_eq_of_lt hp]⟩
      · exact .inr ⟨i + 1, by omega, by rw [h, hshift]⟩
    · cases i with
      | zero => simpa [Nat.mod_eq_of_lt hp] using hbest.trans (min_le_right _ _)
      | succ i => rw [← hshift]; exact hall i (by omega)

/-- R143: for a prime modulus with `2n` dividing `q - 1`, the search gives the least primitive `2n`-th root. -/
theorem minimalPrimitiveRoot_spec {q k : Nat} (hq : q.Prime) (hb : q < 2 ^ 64) (hd : 2 * 2 ^ k ∣ q - 1) :
    ∃ r, minimalPrimitiveRoot (2 ^ k) q = some r ∧ isLeastRoot (2 ^ k) q r := by
  have := Fact.mk hq
  have h2 := hq.two_le
  have hpos : 0 < 2 ^ k := by positivity
  have hle := Nat.le_of_dvd (by omega) hd
  have hq2 : 2 < q := by omega
  obtain ⟨c, hc⟩ := hd
  have hcn : (q - 1) / (2 * 2 ^ k) = c := by rw [hc]; exact Nat.mul_div_cancel_left _ (by omega)
  obtain ⟨b, hb2, hbq, hbr⟩ := exists_pow_half_eq_neg_one hq hq2
  have hsome : (somePrimitiveRoot q 2 (2 ^ k) q).isSome := by
    refine somePrimitiveRoot_isSome hb (by omega) (by omega) hb2 (by omega) ?_
    rw [hcn]
    have : c * 2 ^ k = (q - 1) / 2 := by
      rw [hc, show 2 * 2 ^ k * c = 2 * (c * 2 ^ k) by ring, Nat.mul_div_cancel_left _ (by norm_num)]
    rw [this, hbr]
  obtain ⟨g, hg⟩ := Option.isSome_iff_exists.1 hsome
  obtain ⟨hgq, hgr⟩ := somePrimitiveRoot_spec hq.one_lt hb (by omega) hg
  have hgz := (natCast_pow_eq_neg_one hq.one_lt).1 hgr
  have hord := orderOf_of_pow_eq_neg_one hq hq2 hgz
  obtain ⟨hmem, hbest, hall⟩ := leastInOrbit_spec (g * g % q) q (2 ^ k) g g hgq
  have hpow : ∀ i, g * (g * g % q) ^ i % q = g ^ (2 * i + 1) % q := fun i => by
    rw [← Nat.mul_mod_mod, ← Nat.pow_mod, Nat.mul_mod_mod, ← pow_two, ← pow_mul, pow_succ']
  have hoddpow : ∀ i, (g ^ (2 * i + 1)) ^ 2 ^ k % q = q - 1 := fun i => by
    rw [natCast_pow_eq_neg_one hq.one_lt]
    push_cast
    rw [← pow_mul, mul_comm, pow_mul, hgz]
    exact Odd.neg_one_pow ⟨i, rfl⟩
  have hroot : ∀ i, isRootOfUnity (2 ^ k) q (g ^ (2 * i + 1) % q) := fun i => by
    rw [isRootOfUnity_iff hq hq2, ← Nat.pow_mod, hoddpow]
  refine ⟨_, by
    unfold minimalPrimitiveRoot
    rw [if_neg (by rw [not_not, hc]; exact Nat.mul_mod_right _ _), hg], ?_⟩
  generalize hr : leastInOrbit (2 ^ k) g (g * g % q) q g = r at hmem hbest hall
  have hrr : ∃ i, r = g ^ (2 * i + 1) % q := by
    rcases hmem with h | ⟨i, -, h⟩
    · exact ⟨0, by simp [h, Nat.mod_eq_of_lt hgq]⟩
    · exact ⟨i, by rw [h, hpow]⟩
  have hposr : ∀ y, isRootOfUnity (2 ^ k) q y → 1 ≤ y := fun y hy => by
    by_contra h0
    have : y = 0 := by omega
    rw [isRootOfUnity_iff hq hq2, this, zero_pow (by omega)] at hy
    simp at hy
    omega
  obtain ⟨i, hi⟩ := hrr
  refine ⟨⟨hposr r (hi ▸ hroot i), hi ▸ Nat.mod_lt _ (by omega), hi ▸ hroot i⟩, fun y _ hyq hy => ?_⟩
  have hyz := (natCast_pow_eq_neg_one hq.one_lt).1 ((isRootOfUnity_iff hq hq2 y).1 hy)
  have hprim : IsPrimitiveRoot (g : ZMod q) (2 ^ (k + 1)) := hord ▸ IsPrimitiveRoot.orderOf _
  obtain ⟨e, he, hey⟩ := hprim.eq_pow_of_pow_eq_one
    (show (y : ZMod q) ^ 2 ^ (k + 1) = 1 by rw [pow_succ, pow_mul, hyz]; norm_num)
  have hodd : Odd e := by
    by_contra hev
    rw [Nat.not_odd_iff_even] at hev
    rw [← hey, ← pow_mul, mul_comm, pow_mul, hgz, hev.neg_one_pow] at hyz
    have : Fact (2 < q) := ⟨hq2⟩
    exact ZMod.neg_one_ne_one hyz.symm
  obtain ⟨j, rfl⟩ := hodd
  have hyj : y = g ^ (2 * j + 1) % q := by
    rw [← Nat.mod_eq_of_lt hyq]
    exact (ZMod.natCast_eq_natCast_iff' _ _ _).1 (by push_cast; exact hey.symm)
  rw [hyj, ← hpow]
  exact hall j (by rw [pow_succ] at he; omega)

/-- The least root is unique. -/
theorem isLeastRoot_unique {n q x y : Nat} (hx : isLeastRoot n q x) (hy : isLeastRoot n q y) : x = y :=
  le_antisymm (hx.2 y hy.1.1 hy.1.2.1 hy.1.2.2) (hy.2 x hx.1.1 hx.1.2.1 hx.1.2.2)

/-- R144, R145: for a prime modulus and `a` not a multiple of it, the inverse exists and is the one in `[1, q)`. -/
theorem inverseMod_spec {a q : Nat} (hq : q.Prime) (hb : q < 2 ^ 64) (ha : ¬ q ∣ a) :
    ∃ v, inverseMod a q = some v ∧ v < q ∧ v * a % q = 1 := by
  have := Fact.mk hq
  have h2 := hq.two_le
  have hz : (a : ZMod q) ≠ 0 := fun h0 => ha ((ZMod.natCast_eq_zero_iff a q).1 h0)
  have hmul : a ^ (q - 2) % q * a % q = 1 := by
    rw [Nat.mod_mul_mod, ← pow_succ, show q - 2 + 1 = q - 1 by omega]
    have := ZMod.pow_card_sub_one_eq_one hz
    exact (natCast_pow_eq_one.2 this).trans (Nat.mod_eq_of_lt hq.one_lt)
  refine ⟨a ^ (q - 2) % q, ?_, Nat.mod_lt _ (by omega), hmul⟩
  unfold inverseMod
  rw [powMod_eq _ _ _ (by omega), if_pos hmul]

end Sys2Proof.Machine
end

