-- ==== Sys2Proof/Laws/Table.lean ====
section
/-! SUPPORT. Sys2Proof/Laws/Table.lean: what a built table is (R142 to R152). -/

namespace Sys2Proof.Machine

/-! The arrays. -/

@[simp] theorem bitrevPowers_length (k root q : Nat) : (bitrevPowers k root q).length = 2 ^ k := by simp [bitrevPowers]

/-- R146, R148: entry `r` is the power the bit reversal of `r` names. -/
theorem bitrevPowers_getElem? {k root q r : Nat} (hk : k ≤ 64) (hr : r < 2 ^ k) :
    (bitrevPowers k root q)[r]? = some (BitVec.ofNat 64 (root ^ bitrev r k % q)) := by
  rw [bitrevPowers, List.getElem?_map, List.getElem?_range hr, Option.map_some, powMod_eq]
  exact (bitrev_lt r k).trans_le (Nat.pow_le_pow_right (by norm_num) hk)

@[simp] theorem scaledArray_length (q : Word) (a : List Word) : (scaledArray q a).length = a.length := by
  simp [scaledArray]

theorem scaledArray_getElem? (q : Word) (a : List Word) (r : Nat) :
    (scaledArray q a)[r]? = a[r]?.map fun w => shoupRatio w q := by
  simp [scaledArray]

theorem reorderedSlices_length {k : Nat} {raw : List Word} (h : 2 ^ k ≤ raw.length) :
    (reorderedSlices k raw).length = 2 ^ k - 1 := by
  induction k with
  | zero => rfl
  | succ k ih =>
    have hp : 2 ^ (k + 1) = 2 ^ k + 2 ^ k := by ring
    have h1 := Nat.one_le_two_pow (n := k)
    simp only [reorderedSlices, List.length_append, List.length_take, List.length_drop, ih (by omega)]
    omega

theorem reorder_length {k : Nat} {raw : List Word} (h : raw.length = 2 ^ k) : (reorder k raw).length = 2 ^ k := by
  have h1 := Nat.one_le_two_pow (n := k)
  simp only [reorder, List.length_append, List.length_take, reorderedSlices_length h.ge]
  omega

/-- The slice of R150 for `m = 2^j` starts `2^k - 2m` entries into the slices. -/
theorem reorderedSlices_getElem? {k j i : Nat} {raw : List Word} (h : 2 ^ k ≤ raw.length) (hj : j < k) (hi : i < 2 ^ j) :
    (reorderedSlices k raw)[2 ^ k - 2 * 2 ^ j + i]? = raw[2 ^ j + i]? := by
  induction k with
  | zero => omega
  | succ k ih =>
    have hp : 2 ^ (k + 1) = 2 ^ k + 2 ^ k := by ring
    have hlen : ((raw.drop (2 ^ k)).take (2 ^ k)).length = 2 ^ k := by
      rw [List.length_take, List.length_drop]; omega
    simp only [reorderedSlices]
    rcases Nat.lt_succ_iff_lt_or_eq.1 hj with hlt | rfl
    · have hle : 2 * 2 ^ j ≤ 2 ^ k := by rw [← pow_succ']; exact Nat.pow_le_pow_right (by norm_num) hlt
      rw [List.getElem?_append_right (by rw [hlen]; omega), hlen, ← ih (by omega) hlt]
      congr 1
      omega
    · rw [List.getElem?_append_left (by rw [hlen]; omega), List.getElem?_take_of_lt (by omega), List.getElem?_drop]
      congr 1
      omega

/-- R150: in closed form, offset `n − 2m + 1 + i` of the reordered array is entry `m + i` of the raw one. -/
theorem reorder_getElem? {k j i : Nat} {raw : List Word} (h : raw.length = 2 ^ k) (hj : j < k) (hi : i < 2 ^ j) :
    (reorder k raw)[2 ^ k - 2 * 2 ^ j + 1 + i]? = raw[2 ^ j + i]? := by
  have h1 := Nat.one_le_two_pow (n := k)
  have hlen : (raw.take 1).length = 1 := by rw [List.length_take]; omega
  rw [reorder, List.getElem?_append_right (by omega), hlen, ← reorderedSlices_getElem? h.ge hj hi]
  congr 1
  omega

/-- R151: offset 0 keeps the raw entry. -/
theorem reorder_zero {k : Nat} {raw : List Word} (h : raw.length = 2 ^ k) : (reorder k raw)[0]? = raw[0]? := by
  have h1 := Nat.one_le_two_pow (n := k)
  rw [reorder, List.getElem?_append_left (by rw [List.length_take]; omega), List.getElem?_take_of_lt (by omega)]

/-! Building. -/

theorem degreeInRange_iff {p : Params} {k : Nat} : degreeInRange p k = true ↔ p.logNMin ≤ k ∧ k ≤ p.logNMax := by
  simp [degreeInRange]

/-- R7: the bounds of well-formed parameters. -/
theorem Params.wellFormed_bounds {p : Params} (h : p.wellFormed = true) :
    1 ≤ p.logNMin ∧ p.logNMin ≤ p.logNMax ∧ p.logNMax ≤ 17 := by
  simp only [Params.wellFormed, Params.boundsOk, Bool.and_eq_true, decide_eq_true_eq] at h
  exact h.1

theorem degree_bounds {p : Params} {k : Nat} (h : p.wellFormed = true) (hk : degreeInRange p k = true) : 1 ≤ k ∧ k ≤ 17 := by
  have h1 := Params.wellFormed_bounds h
  have h2 := degreeInRange_iff.1 hk
  omega

/-- R142, R143: when a modulus suits. -/
theorem modulusSuits_iff {k q : Nat} :
    modulusSuits k q = true ↔ 1 < q ∧ q < 2 ^ 62 ∧ 2 * 2 ^ k ∣ q - 1 ∧ q.Prime := by
  simp only [modulusSuits, decide_eq_true_eq, Nat.dvd_iff_mod_eq_zero]
  constructor
  · rintro ⟨h1, h2, h3, h4⟩
    exact ⟨h1, h2, h3, (isPrime_iff (by omega)).1 h4⟩
  · rintro ⟨h1, h2, h3, h4⟩
    exact ⟨h1, h2, h3, (isPrime_iff (by omega)).2 h4⟩

/-- R143 to R152: on a suitable modulus the build succeeds, with the least primitive root and the two inverses. -/
theorem buildForDegree_of_suits {k q : Nat} (h : modulusSuits k q = true) :
    ∃ root rootInv degreeInv, buildForDegree k q = some (tableOf k q root rootInv degreeInv) ∧
      isLeastRoot (2 ^ k) q root ∧ (rootInv < q ∧ rootInv * root % q = 1) ∧
      (degreeInv < q ∧ degreeInv * 2 ^ k % q = 1) := by
  obtain ⟨h1, h62, hd, hp⟩ := modulusSuits_iff.1 h
  obtain ⟨root, hr, hleast⟩ := minimalPrimitiveRoot_spec hp (by omega) hd
  have hle := Nat.le_of_dvd (by omega) hd
  obtain ⟨rootInv, hri, hri1, hri2⟩ := inverseMod_spec (a := root) hp (by omega)
    (Nat.not_dvd_of_pos_of_lt hleast.1.1 hleast.1.2.1)
  obtain ⟨degreeInv, hdi, hdi1, hdi2⟩ := inverseMod_spec (a := 2 ^ k) hp (by omega)
    (Nat.not_dvd_of_pos_of_lt (by positivity) (by omega))
  refine ⟨root, rootInv, degreeInv, ?_, hleast, ⟨hri1, hri2⟩, ⟨hdi1, hdi2⟩⟩
  simp only [buildForDegree, h, if_true, hr, hri, hdi]

/-- A build succeeds exactly on a suitable modulus. -/
theorem buildForDegree_isSome {k q : Nat} : (buildForDegree k q).isSome = true ↔ modulusSuits k q = true := by
  constructor
  · intro h
    by_contra hn
    simp [buildForDegree, hn] at h
  · intro h
    obtain ⟨_, _, _, hb, -⟩ := buildForDegree_of_suits h
    rw [hb]
    rfl

/-- Everything a built table is (R143 to R152), from the fact that it was built. -/
theorem buildForDegree_spec {k q : Nat} {t : Table} (h : buildForDegree k q = some t) :
    (1 < q ∧ q < 2 ^ 62 ∧ 2 * 2 ^ k ∣ q - 1 ∧ q.Prime) ∧
      ∃ root rootInv degreeInv, t = tableOf k q root rootInv degreeInv ∧ isLeastRoot (2 ^ k) q root ∧
        (rootInv < q ∧ rootInv * root % q = 1) ∧ (degreeInv < q ∧ degreeInv * 2 ^ k % q = 1) := by
  have hs : modulusSuits k q = true := buildForDegree_isSome.1 (by rw [h]; rfl)
  obtain ⟨root, rootInv, degreeInv, hb, hrest⟩ := buildForDegree_of_suits hs
  exact ⟨modulusSuits_iff.1 hs, root, rootInv, degreeInv, Option.some.inj (h.symm.trans hb), hrest⟩

/-! The table's scalars and lengths. -/

theorem tableOf_coeffCountPower {k q root rootInv degreeInv : Nat} (hk : k ≤ 17) :
    (tableOf k q root rootInv degreeInv).coeffCountPower.toNat = k := ofNat_toNat_of_lt (by omega)

theorem two_pow_lt_of_le {k : Nat} (hk : k ≤ 17) : 2 ^ k < 2 ^ 64 := Nat.pow_lt_pow_right (by norm_num) (by omega)

theorem tableOf_coeffCount {k q root rootInv degreeInv : Nat} (hk : k ≤ 17) :
    (tableOf k q root rootInv degreeInv).coeffCount.toNat = 2 ^ k := ofNat_toNat_of_lt (two_pow_lt_of_le hk)

theorem tableOf_modulus {k q root rootInv degreeInv : Nat} (hq : q < 2 ^ 62) :
    (tableOf k q root rootInv degreeInv).modulus.toNat = q := ofNat_toNat_of_lt (by omega)

theorem tableOf_coherent {k q root rootInv degreeInv : Nat} (hk : k ≤ 17) :
    tableCoherent (tableOf k q root rootInv degreeInv) = true := by
  simp only [tableCoherent, tableOf_coeffCount hk, tableOf_coeffCountPower hk, decide_eq_true_eq]
  simp [tableOf, rawInverseRoots, reorder_length]

/-- A table the invariant admits is coherent, so no command stops on it. -/
theorem tableInv_coherent {p : Params} {t : Table} (hp : p.wellFormed = true) (h : tableInv p (some t)) :
    tableCoherent t = true := by
  obtain ⟨hr, hb⟩ := h t rfl
  obtain ⟨-, root, rootInv, degreeInv, ht, -⟩ := buildForDegree_spec hb
  rw [ht]
  exact tableOf_coherent (degree_bounds hp hr).2

/-- The lengths and sizes a coherent table has (R36, R37). -/
theorem tableCoherent_spec {t : Table} (h : tableCoherent t = true) :
    t.coeffCount.toNat = 2 ^ t.coeffCountPower.toNat ∧
      t.rootPowers.length = t.coeffCount.toNat ∧ t.scaledRootPowers.length = t.coeffCount.toNat ∧
      t.invRootPowers.length = t.coeffCount.toNat ∧ t.scaledInvRootPowers.length = t.coeffCount.toNat ∧
      t.invRootPowersDivTwo.length = t.coeffCount.toNat ∧ t.scaledInvRootPowersDivTwo.length = t.coeffCount.toNat := by
  simpa [tableCoherent] using h

/-- A table the invariant admits fits the buffer (R37, R38). -/
theorem tableInv_coeffCount_le {p : Params} {t : Table} (hp : p.wellFormed = true) (h : tableInv p (some t)) :
    t.coeffCount.toNat ≤ p.nMax := by
  obtain ⟨hr, -⟩ := h t rfl
  rw [(tableCoherent_spec (tableInv_coherent hp h)).1]
  exact Nat.pow_le_pow_right (by norm_num) (degreeInRange_iff.1 hr).2

/-- What a successful build leaves satisfies the table's invariant. -/
theorem tableInv_of_build {p : Params} {k q : Nat} {t : Table} (hp : p.wellFormed = true)
    (hr : degreeInRange p k = true) (h : buildForDegree k q = some t) : tableInv p (some t) := by
  intro t' ht
  cases ht
  obtain ⟨⟨-, h62, -, -⟩, root, rootInv, degreeInv, ht, -⟩ := buildForDegree_spec h
  have hk := (degree_bounds hp hr).2
  have e1 : t.coeffCountPower.toNat = k := by rw [ht]; exact tableOf_coeffCountPower hk
  have e2 : t.modulus.toNat = q := by rw [ht]; exact tableOf_modulus h62
  rw [e1, e2]
  exact ⟨hr, h⟩

theorem tableInv_none (p : Params) : tableInv p none := fun _ h => by cases h

end Sys2Proof.Machine
end

