-- ==== Sys2Proof/Laws/Passes.lean ====
section
/-! SUPPORT. Sys2Proof/Laws/Passes.lean: what a stage does word by word, the lengths of the passes, and everything a pass
command can do. -/

namespace Sys2Proof.Machine

/-! Bit reversal of composed indices: the order of the roots (R146, R183, R206). -/

/-- Reversing `a + b` bits reverses the low `a` and the high `b` and swaps them. -/
theorem bitrev_append {u : Nat} (v a b : Nat) (hu : u < 2 ^ a) :
    bitrev (u + 2 ^ a * v) (a + b) = bitrev u a * 2 ^ b + bitrev v b := by
  induction a generalizing u with
  | zero =>
    obtain rfl : u = 0 := by simpa using hu
    simp [bitrev]
  | succ a ih =>
    have h1 : (u + 2 ^ (a + 1) * v) % 2 = u % 2 := by
      rw [pow_succ', mul_assoc]; exact Nat.add_mul_mod_self_left _ _ _
    have h2 : (u + 2 ^ (a + 1) * v) / 2 = u / 2 + 2 ^ a * v := by
      rw [pow_succ', mul_assoc]; exact Nat.add_mul_div_left _ _ (by norm_num)
    rw [show a + 1 + b = a + b + 1 by omega, bitrev, h1, h2, ih (by rw [pow_succ] at hu; omega), bitrev, add_mul, add_assoc,
      mul_assoc, ← pow_add]

/-! One stage. -/

theorem stage_length (bfly : Word → Word → Word → Word → Word × Word) (t : Nat) (roots : List (Word × Word))
    (a : List Word) (h : a.length = 2 * t * roots.length) : (stage bfly t roots a).length = a.length := by
  induction roots generalizing a with
  | nil => rfl
  | cons r roots ih =>
    rw [List.length_cons, Nat.mul_succ] at h
    have hd : (a.drop (2 * t)).length = 2 * t * roots.length := by rw [List.length_drop]; omega
    simp only [stage, List.length_append, List.length_map, List.length_zipWith, List.length_take, List.length_drop, ih _ hd]
    omega

/-- The words of block `i` after a stage, each from the two words of its butterfly before it (R183, R206). -/
theorem stage_getElem? (bfly : Word → Word → Word → Word → Word × Word) (t : Nat) (roots : List (Word × Word))
    (a : List Word) (h : a.length = 2 * t * roots.length) {i d : Nat} (hi : i < roots.length) (hd : d < t)
    {r : Word × Word} {x y : Word} (hr : roots[i]? = some r) (hx : a[2 * t * i + d]? = some x)
    (hy : a[2 * t * i + d + t]? = some y) :
    (stage bfly t roots a)[2 * t * i + d]? = some (bfly x y r.1 r.2).1 ∧
      (stage bfly t roots a)[2 * t * i + d + t]? = some (bfly x y r.1 r.2).2 := by
  induction roots generalizing a i with
  | nil => simp at hi
  | cons r0 roots ih =>
    rw [List.length_cons, Nat.mul_succ] at h
    set pairs := List.zipWith (fun x y => bfly x y r0.1 r0.2) (a.take t) ((a.drop t).take t) with hp
    have hpl : pairs.length = t := by
      rw [hp, List.length_zipWith, List.length_take, List.length_take, List.length_drop]; omega
    simp only [stage, ← hp]
    cases i with
    | zero =>
      obtain rfl : r0 = r := by simpa using hr
      simp only [Nat.mul_zero, Nat.zero_add] at hx hy ⊢
      have hpd : pairs[d]? = some (bfly x y r0.1 r0.2) := by
        rw [hp, List.getElem?_zipWith, List.getElem?_take_of_lt hd, hx, List.getElem?_take_of_lt hd, List.getElem?_drop,
          show t + d = d + t by omega, hy]
      constructor
      · rw [List.getElem?_append_left (by rw [List.length_map, hpl]; exact hd), List.getElem?_map, hpd]; rfl
      · rw [List.getElem?_append_right (by rw [List.length_map, hpl]; omega), List.length_map, hpl, Nat.add_sub_cancel,
          List.getElem?_append_left (by rw [List.length_map, hpl]; exact hd), List.getElem?_map, hpd]; rfl
    | succ i =>
      rw [Nat.mul_succ] at hx hy ⊢
      have skip (p : Nat) (hpos : 2 * t ≤ p) :
          (pairs.map Prod.fst ++ (pairs.map Prod.snd ++ stage bfly t roots (a.drop (2 * t))))[p]? =
            (stage bfly t roots (a.drop (2 * t)))[p - 2 * t]? := by
        rw [List.getElem?_append_right (by rw [List.length_map, hpl]; omega), List.length_map, hpl,
          List.getElem?_append_right (by rw [List.length_map, hpl]; omega), List.length_map, hpl]
        congr 1
        omega
      rw [skip _ (by omega), skip _ (by omega)]
      have e1 : 2 * t * i + 2 * t + d - 2 * t = 2 * t * i + d := by omega
      have e2 : 2 * t * i + 2 * t + d + t - 2 * t = 2 * t * i + d + t := by omega
      rw [e1, e2]
      refine ih _ (by rw [List.length_drop]; omega) (by simpa using hi) (by simpa using hr) ?_ ?_
      · rw [List.getElem?_drop, ← hx]; congr 1; omega
      · rw [List.getElem?_drop, ← hy]; congr 1; omega

theorem rootsFrom_length {roots scaled : List Word} {first count : Nat} (h1 : first + count ≤ roots.length)
    (h2 : first + count ≤ scaled.length) : (rootsFrom roots scaled first count).length = count := by
  simp only [rootsFrom, List.length_zip, List.length_take, List.length_drop]
  omega

theorem rootsFrom_getElem? {roots scaled : List Word} {first count i : Nat} {w w' : Word} (hi : i < count)
    (h1 : roots[first + i]? = some w) (h2 : scaled[first + i]? = some w') :
    (rootsFrom roots scaled first count)[i]? = some (w, w') := by
  rw [rootsFrom, List.getElem?_zip_eq_some]
  simp only [List.getElem?_take_of_lt hi, List.getElem?_drop]
  exact ⟨h1, h2⟩

/-! The passes keep the length of the buffer. -/

theorem forwardStages_length {tb : Table} {k : Nat} (h1 : tb.rootPowers.length = 2 ^ k)
    (h2 : tb.scaledRootPowers.length = 2 ^ k) (stages s : Nat) (hs : s + stages = k) (a : List Word)
    (ha : a.length = 2 ^ k) : (forwardStages tb stages (2 ^ s) (2 ^ stages / 2) a).length = 2 ^ k := by
  induction stages generalizing s a with
  | zero => exact ha
  | succ stages ih =>
    have hk : 2 ^ k = 2 ^ s * (2 * 2 ^ stages) := by rw [← hs, pow_add, pow_succ']
    have hle : 2 ^ s * 2 ≤ 2 ^ k := by
      rw [hk]; exact Nat.mul_le_mul_left _ (by have := Nat.one_le_two_pow (n := stages); omega)
    have ht : 2 ^ (stages + 1) / 2 = 2 ^ stages := by rw [pow_succ]; exact Nat.mul_div_cancel _ (by norm_num)
    have hr : (rootsFrom tb.rootPowers tb.scaledRootPowers (2 ^ s) (2 ^ s)).length = 2 ^ s :=
      rootsFrom_length (by omega) (by omega)
    rw [forwardStages, ht, ← pow_succ']
    refine ih (s + 1) (by omega) _ ?_
    rw [stage_length _ _ _ _ (by rw [hr, ha, hk]; ring), ha]

theorem forwardPass_length {tb : Table} (h : tableCoherent tb = true) {a : List Word}
    (ha : a.length = tb.coeffCount.toNat) : (forwardPass tb a).length = tb.coeffCount.toNat := by
  obtain ⟨hn, h1, h2, -⟩ := tableCoherent_spec h
  rw [hn] at ha h1 h2 ⊢
  rw [forwardPass, hn]
  exact forwardStages_length h1 h2 _ 0 (by omega) a ha

theorem inverseStages_length {tb : Table} {k : Nat} (h1 : tb.invRootPowers.length = 2 ^ k)
    (h2 : tb.scaledInvRootPowers.length = 2 ^ k) (stages s : Nat) (hs : s + stages + 1 = k) (a : List Word)
    (ha : a.length = 2 ^ k) :
    (inverseStages tb stages (2 ^ k - 2 * 2 ^ stages + 1) (2 ^ stages) (2 ^ s) a).length = 2 ^ k := by
  induction stages generalizing s a with
  | zero => exact ha
  | succ stages ih =>
    have hk : 2 ^ k = 2 ^ s * (2 * 2 * 2 ^ stages) := by
      rw [← hs]; ring
    have hle : 2 * 2 * 2 ^ stages ≤ 2 ^ k := by rw [hk]; exact Nat.le_mul_of_pos_left _ (by positivity)
    have hm : 2 ^ (stages + 1) / 2 = 2 ^ stages := by rw [pow_succ]; exact Nat.mul_div_cancel _ (by norm_num)
    have hp : 2 ^ (stages + 1) = 2 * 2 ^ stages := pow_succ' _ _
    have h1p := Nat.one_le_two_pow (n := stages)
    have hc : 2 ^ k - 2 * 2 ^ (stages + 1) + 1 + 2 ^ (stages + 1) = 2 ^ k - 2 * 2 ^ stages + 1 := by omega
    have hr : (rootsFrom tb.invRootPowers tb.scaledInvRootPowers (2 ^ k - 2 * 2 ^ (stages + 1) + 1)
        (2 ^ (stages + 1))).length = 2 ^ (stages + 1) := rootsFrom_length (by omega) (by omega)
    rw [inverseStages, hm, hc, show 2 * 2 ^ s = 2 ^ (s + 1) from (pow_succ' 2 s).symm]
    refine ih (s + 1) (by omega) _ ?_
    rw [stage_length _ _ _ _ (by rw [hr, ha, hk, hp]; ring), ha]

theorem inverseFinal_length {tb : Table} {a : List Word} (ha : a.length = tb.coeffCount.toNat)
    (hn : tb.coeffCount.toNat % 2 = 0) : (inverseFinal tb a).length = tb.coeffCount.toNat := by
  simp only [inverseFinal, List.length_append, List.length_map, List.length_zipWith, List.length_take, List.length_drop]
  omega

theorem inversePass_length {tb : Table} (h : tableCoherent tb = true) (hk : 1 ≤ tb.coeffCountPower.toNat) {a : List Word}
    (ha : a.length = tb.coeffCount.toNat) : (inversePass tb a).length = tb.coeffCount.toNat := by
  obtain ⟨hn, -, -, h1, h2, -⟩ := tableCoherent_spec h
  obtain ⟨k, hk'⟩ : ∃ k, tb.coeffCountPower.toNat = k + 1 := ⟨_, (Nat.sub_add_cancel hk).symm⟩
  rw [hk'] at hn
  have hhalf : 2 ^ (k + 1) / 2 = 2 ^ k := by rw [pow_succ]; exact Nat.mul_div_cancel _ (by norm_num)
  have hmain : (inverseStages tb k 1 (2 ^ k) 1 a).length = 2 ^ (k + 1) := by
    have := inverseStages_length (h1.trans hn) (h2.trans hn) k 0 (by omega) a (ha.trans hn)
    rwa [← pow_succ', Nat.sub_self, pow_zero] at this
  rw [inversePass]
  refine inverseFinal_length ?_ (by rw [hn, pow_succ]; omega)
  rw [hk', Nat.add_sub_cancel, hn, hhalf, hmain]

/-! A pass command. -/

/-- What a pass leaves when the table is initialized and coherent (R184, R208): the transformed words in `BUF[0..n)`,
`CODE = OK`, and what reading unwritten words and checking the input record. -/
theorem runPass_of_coherent {bound : Table → Nat} {transform : Table → List Word → List Word} {s : State} {t : Table}
    (ht : s.tbl = some t) (hc : tableCoherent t = true) :
    runPass bound transform s =
      .next (State.complete .ok (writeBufs 0 (transform t (readBufs t.coeffCount.toNat 0 s).1)
        (checkInputs (bound t) (readBufs t.coeffCount.toNat 0 s).1 (readBufs t.coeffCount.toNat 0 s).2))) := by
  simp only [runPass, ht, hc, if_true]

theorem runPass_uninitialized {bound : Table → Nat} {transform : Table → List Word → List Word} {s : State}
    (ht : s.tbl = none) : runPass bound transform s = raise .notInitialized s := by
  simp only [runPass, ht]

/-- Everything a pass can do. -/
theorem runPass_cases {bound : Table → Nat} {transform : Table → List Word → List Word} {s : State} :
    (s.tbl = none ∧ runPass bound transform s = raise .notInitialized s) ∨
      (∃ t, s.tbl = some t ∧ tableCoherent t = true ∧ ∃ u, runPass bound transform s = .next u ∧
        u = { s with mem := u.mem, faults := u.faults, draws := u.draws, code := .ok }) ∨
      (∃ t, s.tbl = some t ∧ tableCoherent t = false ∧ runPass bound transform s = .fault .tableIncoherent) := by
  cases ht : s.tbl with
  | none => exact .inl ⟨rfl, runPass_uninitialized ht⟩
  | some t =>
    cases hc : tableCoherent t with
    | false => exact .inr (.inr ⟨t, rfl, hc, by simp [runPass, ht, hc]⟩)
    | true =>
      refine .inr (.inl ⟨t, rfl, hc, _, runPass_of_coherent ht hc, ?_⟩)
      apply State.ext <;> simp [ht]

end Sys2Proof.Machine
end

