-- ==== Sys2Proof/Laws/Exec.lean ====
section
/-! SUPPORT. Sys2Proof/Laws/Exec.lean: everything a command can do, said once, and what an event at the port can do. -/

namespace Sys2Proof.Machine

/-! The shared operations. -/

/-- A failing command changes `CODE` and `ERR` only (R15, R241). -/
theorem raise_eq {c : StatusCode} (h : c ≠ .ok) (s : State) : raise c s = .next { s with code := c, err := true } := by
  rw [raise, State.complete_eq, errAfter_of_ne_ok h]

theorem withinDomain_cases (b : Bool) (v : Word) (s : State) :
    (b = true ∧ withinDomain b v s = .next { s with res0 := v, code := .ok }) ∨
      (b = false ∧ withinDomain b v s = .next { s with code := .domainError, err := true }) := by
  cases b
  · exact .inr ⟨rfl, raise_eq (by decide) s⟩
  · exact .inl ⟨rfl, rfl⟩

theorem withinDomainTwo_cases (b : Bool) (vs : Word × Word) (s : State) :
    (b = true ∧ withinDomainTwo b vs s = .next { s with res0 := vs.1, res1 := vs.2, code := .ok }) ∨
      (b = false ∧ withinDomainTwo b vs s = .next { s with code := .domainError, err := true }) := by
  cases b
  · exact .inr ⟨rfl, raise_eq (by decide) s⟩
  · exact .inl ⟨rfl, rfl⟩

theorem getScalar_eq (scalar : Table → Word) (s : State) :
    getScalar scalar s = .next { s with res0 := (match s.tbl with | some t => scalar t | none => 0), code := .ok } := rfl

/-- Everything TBL_GET_ARRAY can do (R160). -/
theorem getArray_cases (array : Table → List Word) (s : State) :
    (s.tbl = none ∧ getArray array s = .next { s with code := .notInitialized, err := true }) ∨
      (∃ t, s.tbl = some t ∧ t.coeffCount.toNat ≤ s.arg0.toNat ∧
        getArray array s = .next { s with code := .indexOutOfRange, err := true }) ∨
      (∃ t v, s.tbl = some t ∧ s.arg0.toNat < t.coeffCount.toNat ∧ (array t)[s.arg0.toNat]? = some v ∧
        getArray array s = .next { s with res0 := v, code := .ok }) ∨
      (∃ t, s.tbl = some t ∧ s.arg0.toNat < t.coeffCount.toNat ∧ (array t)[s.arg0.toNat]? = none ∧
        getArray array s = .fault .tableIncoherent) := by
  rcases Option.eq_none_or_eq_some s.tbl with ht | ⟨t, ht⟩
  · exact .inl ⟨ht, (show getArray array s = raise .notInitialized s by simp only [getArray, ht]).trans
      (raise_eq (by decide) s)⟩
  · refine .inr ?_
    by_cases hk : t.coeffCount.toNat ≤ s.arg0.toNat
    · exact .inl ⟨t, ht, hk, (show getArray array s = raise .indexOutOfRange s by
        simp only [getArray, ht, State.arg_zero, hk, if_true]).trans (raise_eq (by decide) s)⟩
    · refine .inr ?_
      rcases Option.eq_none_or_eq_some (array t)[s.arg0.toNat]? with hv | ⟨v, hv⟩
      · exact .inr ⟨t, ht, by omega, hv, by simp only [getArray, ht, State.arg_zero, hk, if_false, hv]⟩
      · exact .inl ⟨t, v, ht, by omega, hv, show getArray array s = .next (s.finishOne v) by
          simp only [getArray, ht, State.arg_zero, hk, if_false, hv]⟩

/-- Everything TBL_BUILD can do (R155). -/
theorem execTblBuild_cases (s : State) :
    (degreeInRange s.params s.arg0.toNat = false ∧
        execTblBuild s = .next { s with tbl := none, code := .invalidParameters, err := true }) ∨
      (degreeInRange s.params s.arg0.toNat = true ∧ buildForDegree s.arg0.toNat s.arg1.toNat = none ∧
        execTblBuild s = .next { s with tbl := none, code := .unsuitableModulus, err := true }) ∨
      (∃ t, degreeInRange s.params s.arg0.toNat = true ∧ buildForDegree s.arg0.toNat s.arg1.toNat = some t ∧
        execTblBuild s = .next { s with tbl := some t, code := .ok }) := by
  cases hd : degreeInRange s.params s.arg0.toNat with
  | false =>
    exact .inl ⟨rfl, by
      simp only [execTblBuild, State.arg_zero, hd, Bool.false_eq_true, if_false]; exact raise_eq (by decide) _⟩
  | true =>
    refine .inr ?_
    cases hb : buildForDegree s.arg0.toNat s.arg1.toNat with
    | none =>
      exact .inl ⟨rfl, rfl, by
        simp only [execTblBuild, State.arg_zero, State.arg_one, hd, if_true, hb]; exact raise_eq (by decide) _⟩
    | some t =>
      exact .inr ⟨t, rfl, rfl, by simp only [execTblBuild, State.arg_zero, State.arg_one, hd, if_true, hb]; rfl⟩

/-! Every command. -/

/-- Everything a command can do to the state. -/
inductive Effect (i : Instr) (s : State) : State → Prop where
  /-- It completes with `OK` and writes `RES` only, `RES[1]` only where R84 gives it a second result. -/
  | results (r0 r1 : Word) : i ∉ [Instr.nttFwd, .nttInv, .tblBuild, .clrErr] →
      (i ∉ [Instr.div128By64, .bflyFwd, .bflyInv, .bflyInvFinal] → r1 = s.res1) → Effect i s { s with res0 := r0, res1 := r1, code := .ok }
  /-- It fails and changes nothing but `STATUS`. -/
  | failure (c : StatusCode) : c ≠ .ok → i ≠ .tblBuild → Effect i s { s with code := c, err := true }
  /-- TBL_BUILD builds a table. -/
  | built (t : Table) : i = .tblBuild → degreeInRange s.params s.arg0.toNat = true →
      buildForDegree s.arg0.toNat s.arg1.toNat = some t → Effect i s { s with tbl := some t, code := .ok }
  /-- TBL_BUILD fails and resets the table. -/
  | unbuilt (c : StatusCode) : c ≠ .ok → i = .tblBuild → Effect i s { s with tbl := none, code := c, err := true }
  /-- CLR_ERR clears `ERR`. -/
  | cleared : i = .clrErr → Effect i s { s with err := false, code := .ok }
  /-- A pass runs. -/
  | passed (t : Table) (bound : Table → Nat) (transform : Table → List Word → List Word) (u : State) :
      (i = .nttFwd ∧ transform = forwardPass) ∨ (i = .nttInv ∧ transform = inversePass) →
      s.tbl = some t → tableCoherent t = true → runPass bound transform s = .next u →
      u = { s with mem := u.mem, faults := u.faults, draws := u.draws, code := .ok } → Effect i s u

theorem withinDomain_effect {i : Instr} {b : Bool} {v : Word} {s u : State} (h1 : i ∉ [Instr.nttFwd, .nttInv, .tblBuild, .clrErr])
    (h : withinDomain b v s = .next u) : Effect i s u := by
  rcases withinDomain_cases b v s with ⟨-, h'⟩ | ⟨-, h'⟩ <;> cases h'.symm.trans h
  · exact .results v s.res1 h1 fun _ => rfl
  · exact .failure _ (by decide) (by rintro rfl; exact h1 (by decide))

theorem withinDomainTwo_effect {i : Instr} {b : Bool} {vs : Word × Word} {s u : State} (h1 : i ∉ [Instr.nttFwd, .nttInv, .tblBuild, .clrErr])
    (h2 : i ∈ [Instr.div128By64, .bflyFwd, .bflyInv, .bflyInvFinal]) (h : withinDomainTwo b vs s = .next u) : Effect i s u := by
  rcases withinDomainTwo_cases b vs s with ⟨-, h'⟩ | ⟨-, h'⟩ <;> cases h'.symm.trans h
  · exact .results vs.1 vs.2 h1 fun h => absurd h2 h
  · exact .failure _ (by decide) (by rintro rfl; exact h1 (by decide))

theorem getArray_effect {i : Instr} {array : Table → List Word} {s u : State} (h1 : i ∉ [Instr.nttFwd, .nttInv, .tblBuild, .clrErr])
    (h : getArray array s = .next u) : Effect i s u := by
  rcases getArray_cases array s with ⟨-, h'⟩ | ⟨_, -, -, h'⟩ | ⟨_, v, -, -, -, h'⟩ | ⟨_, -, -, -, h'⟩ <;>
    cases h'.symm.trans h
  · exact .failure _ (by decide) (by rintro rfl; exact h1 (by decide))
  · exact .failure _ (by decide) (by rintro rfl; exact h1 (by decide))
  · exact .results v s.res1 h1 fun _ => rfl

theorem getScalar_effect {i : Instr} {scalar : Table → Word} {s u : State} (h1 : i ∉ [Instr.nttFwd, .nttInv, .tblBuild, .clrErr])
    (h : getScalar scalar s = .next u) : Effect i s u := by
  cases h
  exact .results _ s.res1 h1 fun _ => rfl

theorem runPass_effect {i : Instr} {bound : Table → Nat} {transform : Table → List Word → List Word} {s u : State}
    (hi : (i = .nttFwd ∧ transform = forwardPass) ∨ (i = .nttInv ∧ transform = inversePass))
    (h : runPass bound transform s = .next u) : Effect i s u := by
  rcases runPass_cases (bound := bound) (transform := transform) (s := s) with
    ⟨-, h'⟩ | ⟨t, ht, hc, u', h', hu⟩ | ⟨_, -, -, h'⟩
  · rw [raise_eq (by decide)] at h'
    cases h'.symm.trans h
    exact .failure _ (by decide) (by rcases hi with ⟨rfl, -⟩ | ⟨rfl, -⟩ <;> decide)
  · cases h'.symm.trans h
    exact .passed t bound transform _ hi ht hc h hu
  · cases h'.symm.trans h

/-- The inversion of exec: a next state is one of the effects above. -/
theorem exec_effect {i : Instr} {s u : State} (h : exec i s = .next u) : Effect i s u := by
  cases i with
  | tblBuild =>
    rcases execTblBuild_cases s with ⟨-, h'⟩ | ⟨-, -, h'⟩ | ⟨t, hd, hb, h'⟩ <;> cases h'.symm.trans h
    · exact .unbuilt _ (by decide) rfl
    · exact .unbuilt _ (by decide) rfl
    · exact .built t rfl hd hb
  | clrErr => cases h; exact .cleared rfl
  | nttFwd => exact runPass_effect (.inl ⟨rfl, rfl⟩) h
  | nttInv => exact runPass_effect (.inr ⟨rfl, rfl⟩) h
  | getRoot => exact getArray_effect (by decide) h
  | getScaledRoot => exact getArray_effect (by decide) h
  | getInvRoot => exact getArray_effect (by decide) h
  | getScaledInvRoot => exact getArray_effect (by decide) h
  | getInvRootDiv2 => exact getArray_effect (by decide) h
  | getScaledInvRootDiv2 => exact getArray_effect (by decide) h
  | getInvDegree => exact getScalar_effect (by decide) h
  | getModulus => exact getScalar_effect (by decide) h
  | getCoeffCountPower => exact getScalar_effect (by decide) h
  | getCoeffCount => exact getScalar_effect (by decide) h
  | getIsInitialized => exact getScalar_effect (by decide) h
  | mulHi => cases h; exact .results _ s.res1 (by decide) fun _ => rfl
  | mulMod => exact withinDomain_effect (by decide) h
  | shoupRatio => exact withinDomain_effect (by decide) h
  | div128By64 => exact withinDomainTwo_effect (by decide) (by decide) h
  | div2Mod => exact withinDomain_effect (by decide) h
  | shoupMul => cases h; exact .results _ s.res1 (by decide) fun _ => rfl
  | bitReverse => exact withinDomain_effect (by decide) h
  | bflyFwd => cases h; exact .results _ _ (by decide) fun h => absurd (by decide) h
  | bflyInv => cases h; exact .results _ _ (by decide) fun h => absurd (by decide) h
  | bflyInvFinal => exact withinDomainTwo_effect (by decide) (by decide) h

/-! The port. -/

theorem runCommandWord_of_decode {w : Word} {i : Instr} (h : decodeWord w = .ok i) (s : State) :
    runCommandWord w s = exec i (s.reply .written) := by
  simp [runCommandWord, decode, h]

theorem runCommandWord_of_reject {w : Word} {e : Reject} (h : decodeWord w = .error e) (s : State) :
    runCommandWord w s = .next { s.reply .written with code := .illegalCommand, err := true } := by
  simp only [runCommandWord, decode, bytesOfWord_length, if_true, wordOfBytes_bytesOfWord, h]
  exact raise_eq (by decide) _

theorem step_nil {s : State} (h : s.inbox = []) : step s = .next s := by simp [step, h]

theorem step_cons {s : State} {e : HostEvent} {rest : List HostEvent} (h : s.inbox = e :: rest) :
    step s = runEvent e { s with inbox := rest } := by simp [step, h]

/-- A host read changes the replies, and for an unwritten word the fault record or the draw counter, and nothing else
(R64). -/
theorem hostRead_frame (t : Target) (s : State) :
    hostRead t s =
      { s with
        replies := (hostRead t s).replies
        faults := (hostRead t s).faults
        draws := (hostRead t s).draws } := by
  cases t with
  | buf j => simp only [hostRead, State.reply]; rw [readBuf_frame]
  | res i => fin_cases i <;> rfl
  | _ => rfl

/-! Which target an access reaches. -/

theorem registerAt_ne_buf {n j : Nat} : registerAt n ≠ .buf j := by
  unfold registerAt
  split <;> simp

/-- An access inside the window that reaches no register is refused or is the buffer word at its offset. -/
theorem targetAt_eq_buf {p : Params} {off size j : Nat} (h : targetAt p off size = .buf j) :
    size = 8 ∧ off = bufOffset j ∧ j < p.nMax := by
  unfold targetAt at h
  split at h
  · cases h
  · split at h
    · exact absurd h registerAt_ne_buf
    · split at h
      · cases h
        unfold bufOffset at *
        omega
      · cases h

/-- Where the registers a write can change are (R52). -/
theorem targetAt_eq_register {p : Params} {off size : Nat} :
    (targetAt p off size = .cmd → size = 8 ∧ off = 0) ∧
      ∀ i : Fin 5, targetAt p off size = .arg i → size = 8 ∧ off = 0x10 + 8 * i.val := by
  unfold targetAt
  split
  · simp
  · split
    · rename_i h hoff
      obtain ⟨m, hm⟩ : ∃ m, off / 8 = m := ⟨_, rfl⟩
      rw [hm]
      constructor
      · unfold registerAt
        split <;> simp
        omega
      · intro i
        unfold registerAt
        split <;> simp <;> rintro rfl <;> simp <;> omega
    · split <;> simp

theorem busTarget_eq_cmd {p : Params} {addr size : Nat} (h : busTarget p addr size = .cmd) : addr = p.base ∧ size = 8 := by
  unfold busTarget at h
  split at h
  · have := targetAt_eq_register.1 h
    omega
  · cases h

theorem busTarget_eq_arg {p : Params} {addr size : Nat} {i : Fin 5} (h : busTarget p addr size = .arg i) :
    addr = p.base + (0x10 + 8 * i.val) ∧ size = 8 := by
  unfold busTarget at h
  split at h
  · have := targetAt_eq_register.2 i h
    omega
  · cases h

theorem busTarget_eq_buf {p : Params} {addr size j : Nat} (h : busTarget p addr size = .buf j) :
    addr = p.base + bufOffset j ∧ size = 8 ∧ j < p.nMax := by
  unfold busTarget at h
  split at h
  · have := targetAt_eq_buf h
    omega
  · cases h

/-! Every step. -/

/-- Everything a step can do to the state, by the first event at the port. -/
inductive StepEffect (s : State) : State → Prop where
  /-- The port is empty: the block is idle. -/
  | idle : s.inbox = [] → StepEffect s s
  /-- The platform resets the block. -/
  | reset (rest : List HostEvent) : s.inbox = .reset :: rest → StepEffect s (platformReset { s with inbox := rest })
  /-- The host reads: at most the fault record or the draw counter changes with the port. -/
  | read (rest : List HostEvent) (addr size : Nat) (r : Reply) : s.inbox = .read addr size :: rest →
      StepEffect s { s with
        inbox := rest
        replies := r :: s.replies
        faults := (hostRead (busTarget s.params addr size) { s with inbox := rest }).faults
        draws := (hostRead (busTarget s.params addr size) { s with inbox := rest }).draws }
  /-- The host writes a command's word to `CMD`. -/
  | command (rest : List HostEvent) (v : Word) (i : Instr) (u : State) : s.inbox = .write s.params.base 8 v :: rest →
      decodeWord v = .ok i → exec i { s with inbox := rest, replies := .written :: s.replies } = .next u → StepEffect s u
  /-- The host writes an illegal word to `CMD`. -/
  | illegal (rest : List HostEvent) (v : Word) (e : Reject) : s.inbox = .write s.params.base 8 v :: rest →
      decodeWord v = .error e → StepEffect s { s with
        inbox := rest
        replies := .written :: s.replies
        code := .illegalCommand
        err := true }
  /-- The host writes an operand register. -/
  | operand (rest : List HostEvent) (i : Fin 5) (v : Word) :
      s.inbox = .write (s.params.base + (0x10 + 8 * i.val)) 8 v :: rest →
      StepEffect s (({ s with inbox := rest }.setArg i v).reply .written)
  /-- The host writes a word of the buffer. -/
  | buffer (rest : List HostEvent) (j : Nat) (v : Word) : s.inbox = .write (s.params.base + bufOffset j) 8 v :: rest →
      j < s.params.nMax → StepEffect s { s with
        inbox := rest
        replies := .written :: s.replies
        mem := Memory.setBufWord s.mem j v }
  /-- A write that is ignored, refused or not the block's. -/
  | ignored (rest : List HostEvent) (addr size : Nat) (v : Word) (r : Reply) : s.inbox = .write addr size v :: rest →
      StepEffect s { s with inbox := rest, replies := r :: s.replies }

theorem hostRead_replies (t : Target) (s : State) : ∃ r, (hostRead t s).replies = r :: s.replies := by
  cases t with
  | buf j => exact ⟨.data (readBuf j s).1, by simp only [hostRead, State.reply_replies]; rw [readBuf_frame]⟩
  | res i => fin_cases i <;> exact ⟨_, rfl⟩
  | _ => exact ⟨_, rfl⟩

/-- The inversion of step: a next state is one of the effects above. -/
theorem step_effect {s u : State} (h : step s = .next u) : StepEffect s u := by
  rcases hi : s.inbox with _ | ⟨e, rest⟩
  · cases (step_nil hi).symm.trans h
    exact .idle hi
  have h := (step_cons hi).symm.trans h
  cases e with
  | reset => cases h; exact .reset rest hi
  | read addr size =>
    cases h
    obtain ⟨r, hr⟩ := hostRead_replies (busTarget s.params addr size) { s with inbox := rest }
    have := StepEffect.read rest addr size r hi
    rw [hostRead_frame, hr]
    exact this
  | write addr size v =>
    simp only [runEvent] at h
    split at h
    · rename_i ht
      obtain ⟨rfl, rfl⟩ := busTarget_eq_cmd ht
      cases hd : decodeWord v with
      | ok i => exact .command rest v i u hi hd ((runCommandWord_of_decode hd _).symm.trans h)
      | error e => cases (runCommandWord_of_reject hd _).symm.trans h; exact .illegal rest v e hi hd
    · rename_i hne
      cases h
      cases ht : busTarget s.params addr size with
      | cmd => exact absurd ht hne
      | arg i =>
        obtain ⟨rfl, rfl⟩ := busTarget_eq_arg ht
        exact .operand rest i v hi
      | buf j =>
        obtain ⟨rfl, rfl, hj⟩ := busTarget_eq_buf ht
        exact .buffer rest j v hi hj
      | _ => exact .ignored rest addr size v _ hi

end Sys2Proof.Machine
end

