-- ==== Sys2Proof/Laws/PerInstr.lean ====
section
/-! SUPPORT. Sys2Proof/Laws/PerInstr.lean: the family WordIsLegal: a command is well formed, its word is one of R88's legal
words, and on the bus it is eight bytes (R80, R90). -/

namespace Sys2Proof.Laws.WordIsLegal

open Sys2Proof

/-- What is said of each command. -/
def Statement (i : Instr) : Prop :=
  i.wellFormed = true ∧ CmdWord.wellFormed (encodeWord i) = true ∧ (encode i).length = 8

theorem tblBuild : Statement .tblBuild := by unfold Statement; decide
theorem clrErr : Statement .clrErr := by unfold Statement; decide
theorem nttFwd : Statement .nttFwd := by unfold Statement; decide
theorem nttInv : Statement .nttInv := by unfold Statement; decide
theorem getRoot : Statement .getRoot := by unfold Statement; decide
theorem getScaledRoot : Statement .getScaledRoot := by unfold Statement; decide
theorem getInvRoot : Statement .getInvRoot := by unfold Statement; decide
theorem getScaledInvRoot : Statement .getScaledInvRoot := by unfold Statement; decide
theorem getInvRootDiv2 : Statement .getInvRootDiv2 := by unfold Statement; decide
theorem getScaledInvRootDiv2 : Statement .getScaledInvRootDiv2 := by unfold Statement; decide
theorem getInvDegree : Statement .getInvDegree := by unfold Statement; decide
theorem getModulus : Statement .getModulus := by unfold Statement; decide
theorem getCoeffCountPower : Statement .getCoeffCountPower := by unfold Statement; decide
theorem getCoeffCount : Statement .getCoeffCount := by unfold Statement; decide
theorem getIsInitialized : Statement .getIsInitialized := by unfold Statement; decide
theorem mulHi : Statement .mulHi := by unfold Statement; decide
theorem mulMod : Statement .mulMod := by unfold Statement; decide
theorem shoupRatio : Statement .shoupRatio := by unfold Statement; decide
theorem div128By64 : Statement .div128By64 := by unfold Statement; decide
theorem div2Mod : Statement .div2Mod := by unfold Statement; decide
theorem shoupMul : Statement .shoupMul := by unfold Statement; decide
theorem bitReverse : Statement .bitReverse := by unfold Statement; decide
theorem bflyFwd : Statement .bflyFwd := by unfold Statement; decide
theorem bflyInv : Statement .bflyInv := by unfold Statement; decide
theorem bflyInvFinal : Statement .bflyInvFinal := by unfold Statement; decide

end Sys2Proof.Laws.WordIsLegal
end

