-- ==== Sys2Proof/Tests/Slice0.lean ====
section
/-! SUPPORT. Sys2Proof/Tests/Slice0.lean: the model's own tests. Every expected value is from 95_test_vectors.md or from the
rule named beside it. -/

namespace Sys2Proof.Tests

open Sys2Proof Sys2Proof.Machine

-- One theorem at a time: a thread for each of these small evaluations runs into the memory limit.
set_option Elab.async false

/-! The smoke test: one well-formed term and an ill-formed one for each check. -/

theorem test_word_wellFormed : CmdWord.wellFormed 0x520 = true := by decide
theorem test_word_reserved_refused : CmdWord.wellFormed 0x0001000000000010 = false := by decide
theorem test_word_opcode_refused : CmdWord.wellFormed 0x36 = false := by decide
theorem test_word_array_selector_refused : CmdWord.wellFormed 0x620 = false := by decide
theorem test_word_scalar_selector_refused : CmdWord.wellFormed 0x521 = false := by decide
theorem test_word_plain_selector_refused : CmdWord.wellFormed 0x110 = false := by decide
theorem test_params_wellFormed : Params.default.wellFormed = true := by decide
theorem test_params_min_refused : Params.wellFormed { Params.default with logNMin := 0 } = false := by decide
theorem test_params_order_refused : Params.wellFormed { Params.default with logNMin := 9, logNMax := 8 } = false := by decide
theorem test_params_max_refused : Params.wellFormed { Params.default with logNMax := 18 } = false := by decide
theorem test_params_base_refused : Params.wellFormed { Params.default with base := 8 } = false := by decide

/-! Decoding: each command's word, written from R85 to R87 and opcode_table.json. -/

theorem test_decode_tblBuild : decodeTableWord 64 0x0000000000000001 = some .tblBuild := by decide
theorem test_decode_clrErr : decodeTableWord 64 0x0000000000000002 = some .clrErr := by decide
theorem test_decode_nttFwd : decodeTableWord 64 0x0000000000000010 = some .nttFwd := by decide
theorem test_decode_nttInv : decodeTableWord 64 0x0000000000000011 = some .nttInv := by decide
theorem test_decode_getRoot : decodeTableWord 64 0x0000000000000020 = some .getRoot := by decide
theorem test_decode_getScaledRoot : decodeTableWord 64 0x0000000000000120 = some .getScaledRoot := by decide
theorem test_decode_getInvRoot : decodeTableWord 64 0x0000000000000220 = some .getInvRoot := by decide
theorem test_decode_getScaledInvRoot : decodeTableWord 64 0x0000000000000320 = some .getScaledInvRoot := by decide
theorem test_decode_getInvRootDiv2 : decodeTableWord 64 0x0000000000000420 = some .getInvRootDiv2 := by decide
theorem test_decode_getScaledInvRootDiv2 : decodeTableWord 64 0x0000000000000520 = some .getScaledInvRootDiv2 := by decide
theorem test_decode_getInvDegree : decodeTableWord 64 0x0000000000000021 = some .getInvDegree := by decide
theorem test_decode_getModulus : decodeTableWord 64 0x0000000000000121 = some .getModulus := by decide
theorem test_decode_getCoeffCountPower : decodeTableWord 64 0x0000000000000221 = some .getCoeffCountPower := by decide
theorem test_decode_getCoeffCount : decodeTableWord 64 0x0000000000000321 = some .getCoeffCount := by decide
theorem test_decode_getIsInitialized : decodeTableWord 64 0x0000000000000421 = some .getIsInitialized := by decide
theorem test_decode_mulHi : decodeTableWord 64 0x0000000000000030 = some .mulHi := by decide
theorem test_decode_mulMod : decodeTableWord 64 0x0000000000000031 = some .mulMod := by decide
theorem test_decode_shoupRatio : decodeTableWord 64 0x0000000000000032 = some .shoupRatio := by decide
theorem test_decode_div128By64 : decodeTableWord 64 0x0000000000000033 = some .div128By64 := by decide
theorem test_decode_div2Mod : decodeTableWord 64 0x0000000000000034 = some .div2Mod := by decide
theorem test_decode_shoupMul : decodeTableWord 64 0x0000000000000035 = some .shoupMul := by decide
theorem test_decode_bitReverse : decodeTableWord 64 0x0000000000000038 = some .bitReverse := by decide
theorem test_decode_bflyFwd : decodeTableWord 64 0x0000000000000040 = some .bflyFwd := by decide
theorem test_decode_bflyInv : decodeTableWord 64 0x0000000000000041 = some .bflyInv := by decide
theorem test_decode_bflyInvFinal : decodeTableWord 64 0x0000000000000042 = some .bflyInvFinal := by decide

/-- The byte order of R58: `OP` is the byte at the lowest address, `SEL` the next. -/
theorem test_decode_bytes : decode [0x20, 0x05, 0, 0, 0, 0, 0, 0] = .ok .getScaledInvRootDiv2 := by decide
theorem test_decode_short : decode [0x10] = .error .notOneWord := by decide
theorem test_decode_zero : decodeWord 0 = .error .opcodeNotListed := by decide
theorem test_decode_reserved : decodeWord 0x0001000000000010 = .error .reservedBitsSet := by decide
theorem test_decode_selector : decodeWord 0x110 = .error .selectorNotListed := by decide

/-! One command each, on a small state. -/

/-- The outcome is a next state that has the property. -/
def nextIs (r : Result) (holds : State → Bool) : Bool :=
  match r with
  | .next t => holds t
  | _ => false

/-- The reset state with operands. -/
def withArgs (a0 a1 a2 a3 a4 : Word) : State :=
  { State.reset with arg0 := a0, arg1 := a1, arg2 := a2, arg3 := a3, arg4 := a4 }

/-- The words of `STATUS`, `RES[0]` and `RES[1]`. -/
def outputs (t : State) : List Nat := [t.statusWord.toNat, t.res0.toNat, t.res1.toNat]

theorem test_mulHi_largest : nextIs (exec .mulHi (withArgs (-1) (-1) 0 0 0))
    (fun t => outputs t = [0, 0xFFFFFFFFFFFFFFFE, 0]) = true := by decide +kernel
theorem test_mulHi : nextIs (exec .mulHi (withArgs 0x123456789ABCDEF0 0x0FEDCBA987654321 0 0 0))
    (fun t => outputs t = [0, 0x0121FA00AD77D742, 0]) = true := by decide +kernel
theorem test_mulMod : nextIs (exec .mulMod (withArgs (-1) (-1) 97 0 0)) (fun t => outputs t = [0, 11, 0]) = true := by
  decide +kernel
theorem test_mulMod_zero : nextIs (exec .mulMod (withArgs 1 1 0 0 0)) (fun t => outputs t = [0x205, 0, 0]) = true := by
  decide +kernel
theorem test_shoupRatio : nextIs (exec .shoupRatio (withArgs 33 97 0 0 0))
    (fun t => outputs t = [0, 0x5717C0A8E83F5717, 0]) = true := by decide +kernel
theorem test_shoupRatio_domain : nextIs (exec .shoupRatio (withArgs 17 17 0 0 0))
    (fun t => outputs t = [0x205, 0, 0]) = true := by decide +kernel
theorem test_div128 : nextIs (exec .div128By64 (withArgs 0 0x8000000000000000 3 0 0))
    (fun t => outputs t = [0, 0xAAAAAAAAAAAAAAAA, 0x2AAAAAAAAAAAAAAA]) = true := by decide +kernel
theorem test_div128_zero : nextIs (exec .div128By64 (withArgs 1 1 0 0 0))
    (fun t => outputs t = [0x205, 0, 0]) = true := by decide +kernel
theorem test_div2Mod : nextIs (exec .div2Mod (withArgs (-3) (-1) 0 0 0))
    (fun t => outputs t = [0, 0xFFFFFFFFFFFFFFFE, 0]) = true := by decide +kernel
theorem test_div2Mod_even : nextIs (exec .div2Mod (withArgs 1 16 0 0 0))
    (fun t => outputs t = [0x205, 0, 0]) = true := by decide +kernel
theorem test_shoupMul : nextIs (exec .shoupMul (withArgs 4 0x3C3C3C3C3C3C3C3C (-1) 17 0))
    (fun t => outputs t = [0, 17, 0]) = true := by decide +kernel
theorem test_bitReverse : nextIs (exec .bitReverse (withArgs 3 17 0 0 0))
    (fun t => outputs t = [0, 98304, 0]) = true := by decide +kernel
theorem test_bitReverse_domain : nextIs (exec .bitReverse (withArgs 1 65 0 0 0))
    (fun t => outputs t = [0x205, 0, 0]) = true := by decide +kernel
theorem test_bflyFwd : nextIs (exec .bflyFwd (withArgs 67 67 4 0x3C3C3C3C3C3C3C3C 17))
    (fun t => outputs t = [0, 46, 54]) = true := by decide +kernel
theorem test_bflyFwd_wide : nextIs (exec .bflyFwd (withArgs 68 0 4 0x3C3C3C3C3C3C3C3C 17))
    (fun t => outputs t = [0, 34, 68]) = true := by decide +kernel
/-- Log 15: the formula of R180 for `q = 0` and `W·Y = 6`, where R182's corner case would give `(1, 1)`. -/
theorem test_bflyFwd_zeroModulus : nextIs (exec .bflyFwd (withArgs 1 2 3 0 0))
    (fun t => outputs t = [0, 7, 0xFFFFFFFFFFFFFFFB]) = true := by decide +kernel
theorem test_bflyInv : nextIs (exec .bflyInv (withArgs 33 33 13 0xC3C3C3C3C3C3C3C3 17))
    (fun t => outputs t = [0, 32, 17]) = true := by decide +kernel
theorem test_bflyInv_borrow : nextIs (exec .bflyInv (withArgs 0 33 13 0xC3C3C3C3C3C3C3C3 17))
    (fun t => outputs t = [0, 33, 13]) = true := by decide +kernel
theorem test_bflyInvFinal : nextIs (exec .bflyInvFinal (withArgs 33 33 9 15 17))
    (fun t => outputs t = [0, 16, 17]) = true := by decide +kernel
theorem test_bflyInvFinal_domain : nextIs (exec .bflyInvFinal (withArgs 1 1 17 15 17))
    (fun t => outputs t = [0x205, 0, 0]) = true := by decide +kernel
theorem test_clrErr : nextIs (exec .clrErr { State.reset with code := .unsuitableModulus, err := true })
    (fun t => outputs t = [0, 0, 0]) = true := by decide +kernel

/-! Tables. -/

/-- The words of an array. -/
def nats (ws : List Word) : List Nat := ws.map BitVec.toNat

/-- V-T2, TBL_BUILD of `(2, 97)`: what 95_test_vectors.md lists. -/
def table97 : Table :=
  { coeffCountPower := 2
    coeffCount := 4
    modulus := 97
    invDegreeModulo := 73
    rootPowers := [1, 22, 33, 47]
    scaledRootPowers := [0x02A3A0FD5C5F02A3, 0x3A0FD5C5F02A3A0F, 0x5717C0A8E83F5717, 0x7C0A8E83F5717C0A]
    invRootPowers := [1, 50, 64, 75]
    scaledInvRootPowers := [0x02A3A0FD5C5F02A3, 0x83F5717C0A8E83F5, 0xA8E83F5717C0A8E8, 0xC5F02A3A0FD5C5F0]
    invRootPowersDivTwo := [49, 86, 25, 32]
    scaledInvRootPowersDivTwo := [0x8151D07EAE2F8151, 0xE2F8151D07EAE2F8, 0x41FAB8BE054741FA, 0x54741FAB8BE05474] }

/-- V-T1, TBL_BUILD of `(1, 17)`. -/
def table17 : Table :=
  { coeffCountPower := 1
    coeffCount := 2
    modulus := 17
    invDegreeModulo := 9
    rootPowers := [1, 4]
    scaledRootPowers := [0x0F0F0F0F0F0F0F0F, 0x3C3C3C3C3C3C3C3C]
    invRootPowers := [1, 13]
    scaledInvRootPowers := [0x0F0F0F0F0F0F0F0F, 0xC3C3C3C3C3C3C3C3]
    invRootPowersDivTwo := [9, 15]
    scaledInvRootPowersDivTwo := [0x8787878787878787, 0xE1E1E1E1E1E1E1E1] }

theorem test_build_97 : nextIs (exec .tblBuild (withArgs 2 97 0 0 0))
    (fun t => t.tbl = some table97 ∧ outputs t = [0x100, 0, 0]) = true := by decide +kernel
theorem test_build_17 : nextIs (exec .tblBuild (withArgs 1 17 0 0 0))
    (fun t => t.tbl = some table17) = true := by decide +kernel
/-- V-T3: the reordering at three levels. -/
theorem test_build_113 : nextIs (exec .tblBuild (withArgs 3 113 0 0 0))
    (fun t => t.tbl.map (fun u => (nats u.rootPowers, nats u.invRootPowers, nats u.invRootPowersDivTwo)) =
      some ([1, 98, 95, 44, 35, 40, 48, 71], [1, 42, 65, 73, 78, 69, 18, 15], [57, 64, 91, 9, 21, 89, 93, 39])) = true := by
  decide +kernel
/-- V-T6: a 62-bit modulus. -/
theorem test_build_big : nextIs (exec .tblBuild (withArgs 3 0x3FFFFFFFFFE80001 0 0 0))
    (fun t => t.tbl.map (fun u => (nats u.rootPowers, u.invDegreeModulo.toNat)) =
      some ([1, 2437333975419583459, 1905292814141738466, 4409573266002224370, 111072393612247067, 3340872475024739188,
        4025485170818812772, 1618848095335151628], 4035225266122588161)) = true := by decide +kernel

/-- `STATUS` after TBL_BUILD over an initialized table, and whether a table is left. -/
def buildStatus (k q : Word) : Nat :=
  match exec .tblBuild { withArgs k q 0 0 0 with tbl := some table17 } with
  | .next t => t.statusWord.toNat
  | _ => 0

theorem test_build_failures :
    [buildStatus 0 17, buildStatus 18 17, buildStatus 0 15, buildStatus 2 15, buildStatus 10 1053697, buildStatus 1 0,
      buildStatus 1 1, buildStatus 1 2, buildStatus 1 0x4000000000000000, buildStatus 2 4611686018427387847] =
    [0x201, 0x201, 0x201, 0x202, 0x202, 0x202, 0x202, 0x202, 0x202, 0x202] := by decide +kernel

/-- The reset state with table `(2, 97)` and `ARG[0]`. -/
def with97 (k : Word) : State := { withArgs k 0 0 0 0 with tbl := some table97 }

theorem test_getRoot : nextIs (exec .getRoot (with97 2)) (fun t => outputs t = [0x100, 33, 0]) = true := by decide +kernel
theorem test_getRoot_range : nextIs (exec .getRoot (with97 4)) (fun t => outputs t = [0x304, 0, 0]) = true := by
  decide +kernel
theorem test_getScaledRoot : nextIs (exec .getScaledRoot (with97 3))
    (fun t => outputs t = [0x100, 0x7C0A8E83F5717C0A, 0]) = true := by decide +kernel
theorem test_getInvRoot : nextIs (exec .getInvRoot (with97 3)) (fun t => outputs t = [0x100, 75, 0]) = true := by
  decide +kernel
theorem test_getScaledInvRoot : nextIs (exec .getScaledInvRoot (with97 0))
    (fun t => outputs t = [0x100, 0x02A3A0FD5C5F02A3, 0]) = true := by decide +kernel
theorem test_getInvRootDiv2 : nextIs (exec .getInvRootDiv2 (with97 1)) (fun t => outputs t = [0x100, 86, 0]) = true := by
  decide +kernel
theorem test_getScaledInvRootDiv2 : nextIs (exec .getScaledInvRootDiv2 (with97 3))
    (fun t => outputs t = [0x100, 0x54741FAB8BE05474, 0]) = true := by decide +kernel
theorem test_getRoot_uninitialized : nextIs (exec .getRoot (withArgs 0 0 0 0 0))
    (fun t => outputs t = [0x203, 0, 0]) = true := by decide +kernel
theorem test_getInvDegree : nextIs (exec .getInvDegree (with97 0)) (fun t => outputs t = [0x100, 73, 0]) = true := by
  decide +kernel
theorem test_getModulus : nextIs (exec .getModulus (with97 0)) (fun t => outputs t = [0x100, 97, 0]) = true := by
  decide +kernel
theorem test_getCoeffCountPower : nextIs (exec .getCoeffCountPower (with97 0)) (fun t => outputs t = [0x100, 2, 0]) = true := by
  decide +kernel
theorem test_getCoeffCount : nextIs (exec .getCoeffCount (with97 0)) (fun t => outputs t = [0x100, 4, 0]) = true := by
  decide +kernel
theorem test_getIsInitialized : nextIs (exec .getIsInitialized (with97 0)) (fun t => outputs t = [0x100, 1, 0]) = true := by
  decide +kernel
theorem test_getIsInitialized_not : nextIs (exec .getIsInitialized { withArgs 0 0 0 0 0 with res0 := 5 })
    (fun t => outputs t = [0, 0, 0]) = true := by decide +kernel

/-! Passes. -/

/-- A state with table `t` and the words `a` in the buffer. -/
def withBuf (t : Table) (a : List Word) : State := writeBufs 0 a { State.reset with tbl := some t }

/-- The first words of the buffer, unwritten ones left out. -/
def bufWords (n : Nat) (s : State) : List Nat :=
  ((List.range n).filterMap fun j => Memory.bufWord s.mem j).map BitVec.toNat

theorem test_nttFwd : nextIs (exec .nttFwd (withBuf table97 [1, 1, 1, 1, 9]))
    (fun t => bufWords 6 t = [103, 137, 253, 287, 9]) = true := by decide +kernel
theorem test_nttFwd_oor : nextIs (exec .nttFwd
      { withBuf table97 [387, 387, 387, 387] with params := { Params.default with oorMode := .fault } })
    (fun t => bufWords 4 t = [91, 251, 135, 295] ∧ t.faults = { unwrittenRead := false, inputOutOfRange := true }) = true := by
  decide +kernel
theorem test_nttInv : nextIs (exec .nttInv (withBuf table97 [103, 137, 59, 93]))
    (fun t => bufWords 4 t = [1, 1, 1, 1] ∧ t.faults = FaultRecord.empty) = true := by decide +kernel
theorem test_nttInv_two : nextIs (exec .nttInv (withBuf table17 [1, 1])) (fun t => bufWords 2 t = [1, 17]) = true := by
  decide +kernel
theorem test_nttInv_direct : nextIs (exec .nttInv (withBuf table97 [103, 137, 253, 287]))
    (fun t => bufWords 4 t = [1, 1, 5, 1]) = true := by decide +kernel
theorem test_nttFwd_uninitialized : nextIs (exec .nttFwd State.reset)
    (fun t => t.statusWord = 0x203 ∧ t.mem = [] ∧ t.faults = FaultRecord.empty) = true := by decide +kernel
/-- An unwritten buffer: the pass runs, and the read is recorded (R185). -/
theorem test_nttFwd_unwritten : nextIs (exec .nttFwd { State.reset with tbl := some table17 })
    (fun t => t.written 0 ∧ t.written 1 ∧ ¬ t.written 2 ∧ t.faults.unwrittenRead) = true := by decide +kernel

/-! The host port. -/

/-- One step with one event at the port. -/
def stepOn (e : HostEvent) (s : State) : Result := step { s with inbox := [e] }

theorem test_step_command : nextIs (step ((withArgs 2 97 0 0 0).withFetchWord 64 1))
    (fun t => t.tbl = some table97 ∧ t.replies = [.written] ∧ t.inbox = []) = true := by decide +kernel
theorem test_step_illegal : nextIs (step ((with97 0).withFetchWord 64 0)) (fun t => t.statusWord = 0x306) = true := by
  decide +kernel
theorem test_step_idle : nextIs (step State.reset) (fun t => t = State.reset) = true := by decide +kernel
theorem test_step_caps : nextIs (stepOn (.read 0x48 8) State.reset) (fun t => t.replies = [.data 0x1101]) = true := by
  decide +kernel
theorem test_step_reserved : nextIs (stepOn (.read 0x50 8) State.reset) (fun t => t.replies = [.data 0]) = true := by
  decide +kernel
theorem test_step_narrow : nextIs (stepOn (.read 0x10 4) State.reset) (fun t => t.replies = [.busError]) = true := by
  decide +kernel
theorem test_step_misaligned : nextIs (stepOn (.read 0x14 8) State.reset) (fun t => t.replies = [.busError]) = true := by
  decide +kernel
theorem test_step_pastBuffer : nextIs
    (stepOn (.write (0x100000 + 8 * 2 ^ 16) 8 1) { State.reset with params := { Params.default with logNMax := 16 } })
    (fun t => t.replies = [.busError] ∧ t.mem = []) = true := by decide +kernel
theorem test_step_writeBuf : nextIs (stepOn (.write 0x1FFFF8 8 7) State.reset)
    (fun t => Memory.bufWord t.mem 131071 = some 7 ∧ t.replies = [.written]) = true := by decide +kernel
theorem test_step_writeArg : nextIs (stepOn (.write 0x30 8 7) State.reset) (fun t => t.arg4 = 7) = true := by decide +kernel
theorem test_step_statusReadOnly : nextIs (stepOn (.write 0x08 8 7) State.reset)
    (fun t => t.statusWord = 0 ∧ t.replies = [.written]) = true := by decide +kernel
theorem test_step_unwrittenRead : nextIs (stepOn (.read 0x100028 8) State.reset)
    (fun t => t.faults.unwrittenRead ∧ t.replies.length = 1) = true := by decide +kernel
theorem test_step_reset : nextIs (stepOn .reset (withBuf table17 [1, 2]))
    (fun t => t.tbl = none ∧ t.mem = [] ∧ t.code = .ok) = true := by decide +kernel

/-! Witnesses: for each statement with hypotheses, a state and operands that meet all of them together, and one for each of
its clauses at the boundaries of its range. -/

/-- A state with a table, the words 1, 2, 3, 4 in the buffer, a sticky error and stale results. -/
def busy : State :=
  { withBuf table97 [1, 2, 3, 4] with arg0 := 3, arg1 := 5, res0 := 6, res1 := 7, code := .domainError, err := true }

/-- The words of `busy`. -/
def busyWords (j : Nat) : Nat := j + 1

/-- A state with one event at the port and one reply taken. -/
def atPort (e : HostEvent) (s : State) : State := { s with inbox := [e, .read 0x08 8], replies := [.written] }

theorem holdsBuffer_of {s : State} {n : Nat} {a : Nat → Nat}
    (h : ∀ j < n, (Memory.bufWord s.mem j).map BitVec.toNat = some (a j)) : holdsBuffer s n a := fun j hj => by
  obtain ⟨w, hw, hv⟩ := Option.map_eq_some_iff.1 (h j hj)
  exact ⟨w, hw, hv⟩

theorem inv_of {s : State} (hp : s.params.wellFormed = true) (hw : Memory.wf s.mem)
    (hm : ∀ c ∈ s.mem, bufOffset 0 ≤ c.1 ∧ c.1 < bufOffset s.params.nMax ∧
      (Memory.bufWord s.mem ((c.1 - bufOffset 0) / 8)).isSome = true)
    (ht : s.tbl = some table97) (hd : degreeInRange s.params 2 = true) : Inv s := by
  refine ⟨hp, ⟨hw, hm⟩, fun t h => ?_⟩
  rw [ht] at h
  cases h
  exact ⟨hd, by decide +kernel⟩

theorem test_busy_inv : Inv busy := inv_of (by decide) (by decide) (by decide +kernel) rfl (by decide)
theorem test_busy_holds : holdsBuffer busy 4 busyWords := holdsBuffer_of (by decide +kernel)
theorem test_busy_table : busy.tbl = some table97 ∧ tableCoherent table97 = true ∧ table97.coeffCount.toNat = 4 ∧
    table97.modulus.toNat = 97 ∧ table97.coeffCountPower.toNat = 2 := by decide +kernel

/-- V-T2: the root of table `(2, 97)` is 33. -/
theorem test_leastRoot : isLeastRoot 4 97 33 := by
  have h := fun x => isRootOfUnity_iff (q := 97) (k := 2) (by norm_num) (by norm_num) x
  refine ⟨⟨by norm_num, by norm_num, (h 33).2 (by norm_num)⟩, fun y _ hy hr => ?_⟩
  have hall : ∀ y < 97, y ^ 4 % 97 = 96 → 33 ≤ y := by decide +kernel
  exact hall y hy ((h y).1 hr)

/-- The prime 7 has no primitive fourth root of unity (R143). -/
theorem test_noRoot : ∀ x, 1 ≤ x → x < 7 → ¬ isRootOfUnity (2 ^ 1) 7 x := fun x _ hx hr => by
  have h := (isRootOfUnity_iff (q := 7) (k := 1) (by norm_num) (by norm_num) x).1 hr
  have hall : ∀ y < 7, y ^ 2 ^ 1 % 7 ≠ 7 - 1 := by decide
  exact hall x hx h

/-! Encoding and the port. -/

/-- Whether a word decodes to a command. -/
def decodes (w : Word) : Bool := (decodeWord w).toBool

theorem test_witness_illegalWords : (List.map decodes [0x1000000000010, 0, 0x36, 0xFF, 0x620, 0x521, 0x110]) =
    List.replicate 7 false := by decide +kernel
theorem test_witness_lastLegalSelectors : (List.map decodes [0x520, 0x421]) = [true, true] := by decide +kernel
theorem test_witness_stepRuns : (atPort (.write 0 8 0x10) busy).inbox = .write busy.params.base 8 0x10 :: [.read 0x08 8] ∧
    decodeWord 0x10 = .ok .nttFwd := by decide +kernel
theorem test_witness_illegalStep : CmdWord.wellFormed 0x110 = false ∧
    (atPort (.write 0 8 0x110) busy).inbox = .write busy.params.base 8 0x110 :: [.read 0x08 8] := by decide +kernel

/-- R24: what `STATUS` reads after each code, and that an illegal word's reads 6 (R231). -/
theorem test_witness_statusCodes : (List.map
    (fun c : StatusCode => nextIs (step (atPort (.read 0x08 8) { State.reset with code := c }))
      fun t => t.replies.take 1 = [.data (match c with
        | .ok => 0 | .invalidParameters => 1 | .unsuitableModulus => 2 | .notInitialized => 3
        | .indexOutOfRange => 4 | .domainError => 5 | .illegalCommand => 6)])
    [.ok, .invalidParameters, .unsuitableModulus, .notInitialized, .indexOutOfRange, .domainError, .illegalCommand]) =
    List.replicate 7 true := by decide +kernel

/-- The answer to one aligned read of the register window of `busy`. -/
def readsAs (off v : Nat) : Bool :=
  nextIs (step (atPort (.read off 8) busy)) fun t => t.replies = [.data (BitVec.ofNat 64 v), .written] ∧ t.inbox.length = 1

theorem test_witness_registerReads : [readsAs 0x00 0, readsAs 0x08 0x305, readsAs 0x10 3, readsAs 0x18 5, readsAs 0x20 0,
    readsAs 0x28 0, readsAs 0x30 0, readsAs 0x38 6, readsAs 0x40 7, readsAs 0x48 0x1101, readsAs 0x50 0, readsAs 0xF8 0] =
    List.replicate 12 true := by decide +kernel
theorem test_witness_registerWrite : ∀ off ∈ [0x08, 0x10, 0x18, 0x20, 0x28, 0x30, 0x38, 0x48, 0xF8],
    0 < off ∧ off < 0x100 ∧ off % 8 = 0 ∧
      nextIs (step (atPort (.write off 8 9) busy)) (fun t => t.replies = [.written, .written]) = true := by decide +kernel

/-- An access refused with a bus error and no other effect. -/
def refusedBy (e : HostEvent) (s : State) : Bool :=
  nextIs (step (atPort e s)) fun t => t = { s with inbox := [.read 0x08 8], replies := [.busError, .written] }

/-- `busy` in an instance with a smaller buffer. -/
def smaller : State := { busy with params := { Params.default with logNMax := 16 } }

theorem test_witness_refused : smaller.params.wellFormed = true ∧
    [refusedBy (.read 0x10 4) smaller, refusedBy (.write 0x10 16 1) smaller, refusedBy (.write 0 4 0x30) smaller,
      refusedBy (.read 0x11 8) smaller, refusedBy (.read 0x100 8) smaller, refusedBy (.write 0xFFFF8 8 1) smaller,
      refusedBy (.read (0x100000 + 8 * 2 ^ 16) 8) smaller, refusedBy (.write 0x1FFFF8 8 1) smaller] =
    List.replicate 8 true := by decide +kernel
theorem test_witness_bufferEnds : ∀ j ∈ [0, 2 ^ 17 - 1], j < 2 ^ busy.params.logNMax ∧
    nextIs (step (atPort (.write (0x100000 + 8 * j) 8 0x0807060504030201) busy)) (fun t =>
      Memory.bufWord t.mem j = some 0x0807060504030201 ∧ Memory.readByte t.mem (0x100000 + 8 * j + 7) = some 8 ∧
        Memory.bufWord t.mem 1 = some 2) = true := by decide +kernel
theorem test_witness_bufferReads : Memory.bufWord busy.mem 3 = some 4 ∧ busy.written 4 = false ∧
    busy.params.bufUnwritten = .fault ∧
    nextIs (step (atPort (.read 0x100018 8) busy)) (fun t => t.replies = [.data 4, .written]) = true := by decide +kernel

/-- `busy` with `BUF_UNWRITTEN = draw` and `OOR_MODE = fault`. -/
def drawing : State := { busy with params := { Params.default with bufUnwritten := .draw, oorMode := .fault } }

theorem test_witness_bufferDraw : drawing.written 4 = false ∧
    nextIs (step (atPort (.read 0x100020 8) drawing)) (fun t => t.draws = 1 ∧ t.faults = FaultRecord.empty) = true := by
  decide +kernel
theorem test_witness_reset : (atPort .reset busy).inbox = .reset :: [.read 0x08 8] ∧
    nextIs (step (atPort .reset busy)) (fun t => t.res0 = 0 ∧ t.err = false ∧ t.tbl = none ∧ t.written 0 = false) = true := by
  decide +kernel

/-! Primitives and butterflies: the boundaries of the domains. -/

theorem test_witness_domains :
    [nextIs (exec .mulMod (withArgs 5 5 1 0 0)) fun t => outputs t = [0, 0, 0],
      nextIs (exec .shoupRatio (withArgs 1 2 0 0 0)) fun t => outputs t = [0, 2 ^ 63, 0],
      nextIs (exec .shoupRatio (withArgs 0 0 0 0 0)) fun t => outputs t = [0x205, 0, 0],
      nextIs (exec .div128By64 (withArgs (-1) (-1) (-1) 0 0)) fun t => outputs t = [0, 1, 1],
      nextIs (exec .div2Mod (withArgs 0 1 0 0 0)) fun t => outputs t = [0, 0, 0],
      nextIs (exec .div2Mod (withArgs 17 17 0 0 0)) fun t => outputs t = [0x205, 0, 0],
      nextIs (exec .bitReverse (withArgs 1 64 0 0 0)) fun t => outputs t = [0, 2 ^ 63, 0],
      nextIs (exec .bitReverse (withArgs 7 0 0 0 0)) fun t => outputs t = [0, 0, 0],
      nextIs (exec .bflyInvFinal (withArgs 1 35 9 15 17)) fun t => outputs t = [0, 1, 0],
      nextIs (exec .bflyInvFinal (withArgs 1 1 9 17 17)) fun t => outputs t = [0x205, 0, 0],
      nextIs (exec .bflyInvFinal (withArgs 1 1 0 0 0)) fun t => outputs t = [0x205, 0, 0]] = List.replicate 11 true := by
  decide +kernel

/-- The hypotheses of R107, R181, R201 and R203 at their bounds: `q = 2^62 - 1`, `w = q - 1`, `X = 4q - 1` and `2q - 1`. -/
theorem test_witness_ranges :
    let q : Word := 0x3FFFFFFFFFFFFFFF
    (1 < q.toNat ∧ q.toNat < 2 ^ 62 ∧ (q - 1).toNat < q.toNat) ∧ (4 * q - 1).toNat < 4 * q.toNat ∧
      (2 * q - 1).toNat < 2 * q.toNat ∧ (0x7FFFFFFFFFFFFFFF : Word).toNat < 2 ^ 63 := by decide +kernel

/-! Tables. -/

theorem test_witness_buildSucceeds : Nat.Prime 97 ∧ 97 % (2 * 2 ^ 2) = 1 ∧ busy.params.wellFormed = true ∧
    busy.params.logNMin ≤ 2 ∧ 2 ≤ busy.params.logNMax := by
  refine ⟨by norm_num, ?_⟩
  decide
theorem test_witness_smallestDegree : Nat.Prime 17 ∧ 17 % (2 * 2 ^ 1) = 1 ∧ busy.params.logNMin = 1 :=
  ⟨by norm_num, by decide, rfl⟩
theorem test_witness_cursor : ∀ ji ∈ [(0, 0), (1, 0), (1, 1)], ji.1 < 2 ∧ ji.2 < 2 ^ ji.1 ∧
    (table97.invRootPowers.getD (2 ^ 2 - 2 * 2 ^ ji.1 + 1 + ji.2) 0).toNat *
      (table97.rootPowers.getD (2 ^ ji.1 + ji.2) 0).toNat % 97 = 1 := by decide +kernel
theorem test_witness_accessors : tableCoherent table97 = true ∧ (with97 3).tbl = some table97 ∧
    (with97 3).arg0.toNat < table97.coeffCount.toNat ∧ table97.coeffCount.toNat ≤ (with97 4).arg0.toNat ∧
    (withArgs 3 0 0 0 0).tbl = none := by decide +kernel

/-! Passes. -/

theorem test_witness_schedule : busy.tbl = some table97 ∧ tableCoherent table97 = true ∧
    1 ≤ table97.coeffCountPower.toNat ∧
    ∀ j < table97.coeffCount.toNat, Memory.bufWord busy.mem j = some (BitVec.ofNat 64 (busyWords j)) := by decide +kernel
/-- Words 1 and 3 are never written: the two values of `BUF_UNWRITTEN` (R57, R185). -/
def gaps (p : Params) : State := writeBuf 2 7 (writeBuf 0 5 { State.reset with params := p, tbl := some table97 })

theorem test_witness_gaps : passInput (gaps Params.default) 1 = Config.storedWord 0 1 ∧
    passInput (gaps Params.default) 2 = 7 ∧ passInput (gaps drawing.params) 3 = Config.drawnWord 1 := ⟨rfl, rfl, rfl⟩
theorem test_witness_gapsRecord : [nextIs (exec .nttInv (gaps Params.default)) fun t => t.faults.unwrittenRead ∧ t.draws = 0,
    nextIs (exec .nttInv (gaps { Params.default with bufUnwritten := .draw })) fun t => ¬ t.faults.unwrittenRead ∧ t.draws = 2,
    nextIs (exec .nttFwd (writeBuf 0 97 (gaps drawing.params)))
      fun t => t.faults.inputOutOfRange] = [true, true, true] := by decide +kernel
theorem test_witness_complete : [nextIs (exec .nttFwd busy) fun t => t.code = .ok,
    nextIs (exec .nttInv busy) fun t => t.code = .ok, nextIs (exec .nttInv State.reset) fun t => t.code = .notInitialized] =
    [true, true, true] := by decide +kernel
/-- The bounds of the fault record: `q - 1` and `q` for NTT_FWD, `2q - 1` and `2q` for NTT_INV (R185, R209). -/
theorem test_witness_record : (List.map
    (fun c : Instr × Word => nextIs (exec c.1 { withBuf table97 [0, c.2, 0, 0] with params := drawing.params })
      fun t => t.faults.inputOutOfRange) [(.nttFwd, 96), (.nttFwd, 97), (.nttInv, 193), (.nttInv, 194)]) =
    [false, true, false, true] := by decide +kernel
theorem test_witness_evaluate : Inv busy ∧ isLeastRoot 4 97 33 ∧ holdsBuffer busy 4 busyWords ∧
    ∀ j < 4, busyWords j < 4 * 97 := ⟨test_busy_inv, test_leastRoot, test_busy_holds, by decide⟩
theorem test_witness_interpolate : Inv busy ∧ isLeastRoot 4 97 33 ∧ 50 * 33 % 97 = 1 ∧ 73 * 4 % 97 = 1 ∧
    holdsBuffer busy 4 busyWords ∧ ∀ k < 4, busyWords k < 2 * 97 :=
  ⟨test_busy_inv, test_leastRoot, by decide, by decide, test_busy_holds, by decide⟩

/-- V-T2 and scenario 2: the words NTT_FWD leaves for `[1, 1, 1, 1]`, reduced below `2q` by the host. -/
theorem test_witness_roundTrip : holdsBuffer (withBuf table97 [1, 1, 1, 1]) 4 (fun _ => 1) ∧
    holdsBuffer (withBuf table97 [103, 137, 59, 93]) 4
      (fun j => if 2 * 97 ≤ [103, 137, 253, 287].getD j 0 then [103, 137, 253, 287].getD j 0 - 2 * 97
        else [103, 137, 253, 287].getD j 0) :=
  ⟨holdsBuffer_of (by decide +kernel), holdsBuffer_of (by decide +kernel)⟩
theorem test_witness_pointwise : holdsBuffer (withBuf table97 [103 * 103 % 97, 137 * 137 % 97, 253 * 253 % 97, 287 * 287 % 97]) 4
    (fun k => [103, 137, 253, 287].getD k 0 * [103, 137, 253, 287].getD k 0 % 97) := holdsBuffer_of (by decide +kernel)

/-- `busy` with words `(2 · (j + 1)) mod 97`: the sum of `busy`'s words with themselves. -/
def doubled : State := withBuf table97 [2, 4, 6, 8]

theorem test_witness_linear : Inv doubled ∧ doubled.tbl = some table97 ∧
    holdsBuffer doubled 4 (fun j => (busyWords j + busyWords j) % 97) :=
  ⟨inv_of (by decide) (by decide) (by decide +kernel) rfl (by decide), rfl, holdsBuffer_of (by decide +kernel)⟩

/-! Failures and the whole machine. -/

theorem test_witness_failing : nextIs (exec .shoupRatio { busy with arg1 := 0 })
    (fun t => t.code ≠ .ok ∧ t.res0 = 6 ∧ t.res1 = 7) = true := by decide +kernel
theorem test_witness_failingBuild : nextIs (exec .tblBuild { busy with arg0 := 2, arg1 := 15 })
    (fun t => t.code = .unsuitableModulus ∧ t.tbl = none ∧ t.res0 = 6) = true := by decide +kernel
theorem test_witness_errCleared : nextIs (step (atPort (.write 0 8 2) busy)) (fun t => t.err = false) = true ∧
    nextIs (step (atPort .reset busy)) (fun t => t.err = false) = true ∧ busy.err = true := by decide +kernel
theorem test_witness_invariantStep : Inv (atPort (.write 0x100020 8 9) busy) ∧
    nextIs (step (atPort (.write 0x100020 8 9) busy)) (fun t => Memory.bufWord t.mem 4 = some 9) = true :=
  ⟨inv_of (by decide) (by decide) (by decide +kernel) rfl (by decide), by decide +kernel⟩
theorem test_witness_tableChanges : nextIs (step (atPort (.write 0 8 1) busy)) (fun t => t.tbl ≠ busy.tbl) = true ∧
    nextIs (step (atPort .reset busy)) (fun t => t.tbl ≠ busy.tbl) = true := by decide +kernel
theorem test_witness_operandChanges : nextIs (step (atPort (.write 0x18 8 9) busy)) (fun t => t.arg 1 ≠ busy.arg 1) = true ∧
    nextIs (step (atPort .reset busy)) (fun t => t.arg 1 ≠ busy.arg 1) = true := by decide +kernel
theorem test_witness_recordGrows : nextIs (step (atPort (.read 0x100020 8) busy))
    (fun t => t.faults.unwrittenRead ∧ ¬ busy.faults.unwrittenRead) = true := by decide +kernel
theorem test_witness_recordEmpty : nextIs
    (step (atPort (.read 0x100020 8) { busy with params := { Params.default with bufUnwritten := .draw } }))
    (fun t => t.faults = FaultRecord.empty) = true := by decide +kernel

end Sys2Proof.Tests
end

/-! PROOFS for 10_state.md: what reset leaves (R42), that ERR is sticky (R25), and what an initialized table holds
(R32 to R36). -/

namespace Sys2Proof.Machine

/-! The values after reset (R42). -/

/-- Empty memory holds no written word (R39). -/
theorem State.written_of_mem_nil {s : State} (h : s.mem = []) (j : Nat) : s.written j = false := by
  rw [State.written_eq_false, h]
  rfl

/-- `STATUS` reads 0 exactly with all three of its fields 0 (R23). -/
theorem State.statusWord_eq_zero_iff {s : State} : s.statusWord = 0 ↔ s.code = .ok ∧ s.err = false ∧ s.tbl = none := by
  have hcode : s.code.number = 0 ↔ s.code = .ok := by cases s.code <;> decide
  have hinit : s.initialized.toNat = 0 ↔ s.tbl = none := by simp [State.initialized]
  have hzero : s.statusWord = 0 ↔ s.statusWord.toNat = 0 := BitVec.toNat_inj.symm
  rw [hzero, State.statusWord_toNat, ← hcode, ← Bool.toNat_eq_zero (b := s.err), ← hinit]
  omega

@[simp] theorem platformReset_arg (s : State) (i : Fin 5) : (platformReset s).arg i = 0 := by fin_cases i <;> rfl

theorem State.reset_arg (i : Fin 5) : State.reset.arg i = 0 := by fin_cases i <;> rfl

/-- A reset at the port is the platform's reset of the state whose port has moved past it (R270). -/
theorem step_reset {s : State} {rest : List HostEvent} (h : s.inbox = .reset :: rest) :
    step s = .next (platformReset { s with inbox := rest }) := step_cons h

/-- Settles O12: each row of R42 is one field of `platformReset` and of `State.reset`. -/
theorem resetLeavesTheResetValues : Obligations.ResetLeavesTheResetValues := by
  refine ⟨fun s rest h => ⟨_, step_reset h, platformReset_arg _, rfl, rfl, ?_, rfl, rfl, rfl, rfl, ?_, rfl⟩,
    State.reset_arg, rfl, rfl, ?_, rfl, rfl, rfl, ?_, rfl⟩
  · exact State.statusWord_eq_zero_iff.2 ⟨rfl, rfl, rfl⟩
  · exact State.written_of_mem_nil rfl
  · exact State.statusWord_eq_zero_iff.2 ⟨rfl, rfl, rfl⟩
  · exact State.written_of_mem_nil rfl

/-! `ERR` (R25). -/

/-- A command that ends with a code other than `OK` leaves `ERR` set. -/
theorem exec_err_of_code_ne_ok {i : Instr} {s u : State} (h : exec i s = .next u) (hc : u.code ≠ .ok) : u.err = true := by
  cases exec_effect h with
  | failure | unbuilt => rfl
  | results | built | cleared => exact absurd rfl hc
  | passed _ _ _ _ _ _ _ _ hu => exact absurd (congrArg State.code hu) hc

/-- CLR_ERR is the only command that takes `ERR` from 1 to 0. -/
theorem exec_err_cleared {i : Instr} {s u : State} (h : exec i s = .next u) (hs : s.err = true) (hu : u.err = false) :
    i = .clrErr := by
  cases exec_effect h with
  | cleared hi => exact hi
  | failure | unbuilt => cases hu
  | results | built => cases hs.symm.trans hu
  | passed _ _ _ _ _ _ _ _ he => cases hs.symm.trans ((congrArg State.err he).symm.trans hu)

/-- Settles O48: a word at `CMD` runs its command or completes with ILLEGAL_COMMAND, and of the events a step can take only
a reset and a command can clear `ERR`. -/
theorem errIsSticky : Obligations.ErrIsSticky := by
  refine ⟨fun w s u h hc => ?_, fun s u h hs hu => ?_⟩
  · cases hd : decodeWord w with
    | ok i => exact exec_err_of_code_ne_ok ((runCommandWord_of_decode hd s).symm.trans h) hc
    | error e =>
      cases (runCommandWord_of_reject hd s).symm.trans h
      rfl
  · cases step_effect h with
    | reset rest hi => exact ⟨rest, .inl hi⟩
    | command rest v i _ hi hd hx =>
      obtain rfl := exec_err_cleared hx hs hu
      exact ⟨rest, .inr ⟨v, hi, hd⟩⟩
    | illegal => cases hu
    | operand => simp [hs] at hu
    | idle | read | buffer | ignored => cases hs.symm.trans hu

/-! Bit reversal (R105). -/

@[simp] theorem bitrev_zero (k : Nat) : bitrev 0 k = 0 := by
  induction k with
  | zero => rfl
  | succ k ih => simp [bitrev, ih]

/-- Reversing `k` bits twice gives the number back. -/
theorem bitrev_bitrev {i k : Nat} (h : i < 2 ^ k) : bitrev (bitrev i k) k = i := by
  induction k generalizing i with
  | zero => rw [pow_zero, Nat.lt_one_iff] at h; rw [h]; rfl
  | succ k ih =>
    have hhalf : bitrev (bitrev (i / 2) k) k = i / 2 := ih (by rw [pow_succ] at h; omega)
    calc bitrev (bitrev i (k + 1)) (k + 1)
        = bitrev (bitrev (i / 2) k + 2 ^ k * (i % 2)) (k + 1) := by
          rw [bitrev.eq_2 i k, add_comm, mul_comm (i % 2)]
      _ = bitrev (bitrev (i / 2) k) k * 2 ^ 1 + bitrev (i % 2) 1 := bitrev_append _ _ _ (bitrev_lt _ _)
      _ = i := by simp only [hhalf, bitrev]; omega

/-! The entries of the table's arrays. -/

/-- Every entry of the array is below the modulus. -/
def entriesBelow (q : Nat) (a : List Word) : Prop := ∀ w ∈ a, w.toNat < q

/-- R146, R148: entry `r` is the power the bit reversal of `r` names. -/
theorem hasEntry_bitrevPowers {k root q r : Nat} (hk : k ≤ 17) (hq1 : 1 < q) (hq : q < 2 ^ 62) (hr : r < 2 ^ k) :
    hasEntry (bitrevPowers k root q) r (root ^ bitrev r k % q) :=
  have hlt : root ^ bitrev r k % q < q := Nat.mod_lt _ (by omega)
  ⟨_, bitrevPowers_getElem? (by omega) hr, ofNat_toNat_of_lt (by omega)⟩

theorem entriesBelow_bitrevPowers {k root q : Nat} (hk : k ≤ 17) (hq1 : 1 < q) (hq : q < 2 ^ 62) :
    entriesBelow q (bitrevPowers k root q) := fun w hw => by
  obtain ⟨r, hr⟩ := List.mem_iff_getElem?.1 hw
  have hlt : r < 2 ^ k := by simpa using (List.getElem?_eq_some_iff.1 hr).1
  obtain ⟨w', hw', hv⟩ := hasEntry_bitrevPowers (root := root) hk hq1 hq hlt
  rw [Option.some.inj (hr.symm.trans hw'), hv]
  exact Nat.mod_lt _ (by omega)

/-- R147 to R149: a scaled array holds the pre-multiplier of each entry. -/
theorem hasEntry_scaledArray {q r v : Nat} {qw : Word} {a : List Word} (hqw : qw.toNat = q) (ha : entriesBelow q a)
    (h : hasEntry a r v) : hasEntry (scaledArray qw a) r (v * 2 ^ 64 / q) := by
  subst hqw
  obtain ⟨w, hw, rfl⟩ := h
  exact ⟨shoupRatio w qw, by rw [scaledArray_getElem?, hw, Option.map_some],
    shoupRatio_toNat (ha w (List.mem_of_getElem? hw))⟩

/-- R149: a halved array holds the half modulo `q` of each entry. -/
theorem hasEntry_halved {q r v : Nat} {qw : Word} {a : List Word} (hqw : qw.toNat = q) (ha : entriesBelow q a)
    (h : hasEntry a r v) :
    hasEntry (a.map fun w => div2Mod w qw) r (if v % 2 = 0 then v / 2 else (v + q) / 2) := by
  subst hqw
  obtain ⟨w, hw, rfl⟩ := h
  exact ⟨div2Mod w qw, by rw [List.getElem?_map, hw, Option.map_some], div2Mod_toNat (ha w (List.mem_of_getElem? hw))⟩

theorem entriesBelow_halved {q : Nat} {qw : Word} {a : List Word} (hqw : qw.toNat = q) (ha : entriesBelow q a) :
    entriesBelow q (a.map fun w => div2Mod w qw) := fun w hw => by
  subst hqw
  obtain ⟨x, hx, rfl⟩ := List.mem_map.1 hw
  have hlt := ha x hx
  rw [div2Mod_toNat hlt]
  split <;> omega

theorem reorderedSlices_map (f : Word → Word) (k : Nat) (raw : List Word) :
    reorderedSlices k (raw.map f) = (reorderedSlices k raw).map f := by
  induction k with
  | zero => rfl
  | succ k ih => simp only [reorderedSlices, ih, List.map_append, List.map_take, List.map_drop]

/-- R149, R150: reordering the pre-multipliers gives the pre-multipliers of the reordered array. -/
theorem reorder_scaledArray (qw : Word) (k : Nat) (raw : List Word) :
    reorder k (scaledArray qw raw) = scaledArray qw (reorder k raw) := by
  simp only [reorder, scaledArray, reorderedSlices_map, List.map_append, List.map_take]

theorem mem_of_mem_reorderedSlices {k : Nat} {raw : List Word} {w : Word} (h : w ∈ reorderedSlices k raw) : w ∈ raw := by
  induction k with
  | zero => cases h
  | succ k ih =>
    rcases List.mem_append.1 h with h | h
    · exact List.mem_of_mem_drop (List.mem_of_mem_take h)
    · exact ih h

theorem entriesBelow_reorder {q k : Nat} {raw : List Word} (h : entriesBelow q raw) : entriesBelow q (reorder k raw) :=
  fun w hw => (List.mem_append.1 hw).elim (fun h' => h w (List.mem_of_mem_take h'))
    fun h' => h w (mem_of_mem_reorderedSlices h')

/-! A built table. -/

/-- Entry `r` of the inverse roots in bit-reversed order (R148). -/
def rawRoot (k q rootInv r : Nat) : Nat := rootInv ^ bitrev r k % q

/-- R32 to R36: the table R152 makes of the least root and the two inverses has the contents the rules give. -/
theorem tableOf_matchesRules {k q root rootInv degreeInv : Nat} (hk : k ≤ 17) (hq1 : 1 < q) (hq : q < 2 ^ 62)
    (hroot : isLeastRoot (2 ^ k) q root) (hinv : rootInv < q ∧ rootInv * root % q = 1)
    (hdeg : degreeInv < q ∧ degreeInv * 2 ^ k % q = 1) :
    tableMatchesRules k q (tableOf k q root rootInv degreeInv) root rootInv (rawRoot k q rootInv) := by
  have hqw : (BitVec.ofNat 64 q : Word).toNat = q := ofNat_toNat_of_lt (by omega)
  have hdinv : (tableOf k q root rootInv degreeInv).invDegreeModulo.toNat = degreeInv := ofNat_toNat_of_lt (by omega)
  have hlen : (rawInverseRoots k rootInv q).length = 2 ^ k := bitrevPowers_length k rootInv q
  have hraw (r : Nat) (hr : r < 2 ^ k) : hasEntry (rawInverseRoots k rootInv q) r (rawRoot k q rootInv r) :=
    hasEntry_bitrevPowers hk hq1 hq hr
  have hrawBelow : entriesBelow q (rawInverseRoots k rootInv q) := entriesBelow_bitrevPowers hk hq1 hq
  refine ⟨⟨tableOf_coeffCountPower hk, tableOf_coeffCount hk, tableOf_modulus hq⟩, ?degree, ⟨hroot, ?pos, hinv⟩, ?raw,
    ?lengths, ?roots, fun r _ v => hasEntry_scaledArray hqw (entriesBelow_bitrevPowers hk hq1 hq), ?first, ?reordered,
    ?scaledInv, fun r hr => hasEntry_halved hqw hrawBelow (hraw r hr),
    fun r _ v => hasEntry_scaledArray hqw (entriesBelow_halved hqw hrawBelow)⟩
  case degree => rw [hdinv]; exact hdeg
  case pos => exact Nat.pos_of_ne_zero fun h0 => by simp [h0] at hinv
  case raw => exact fun i hi => by rw [rawRoot, bitrev_bitrev hi]
  case lengths => simpa [tableOf_coeffCount hk] using (tableCoherent_spec (tableOf_coherent hk)).2
  case roots =>
    intro i hi
    have h := hasEntry_bitrevPowers (root := root) hk hq1 hq (bitrev_lt i k)
    rwa [bitrev_bitrev hi] at h
  case first =>
    obtain ⟨w, hw, hv⟩ := hraw 0 (by positivity)
    refine ⟨w, (reorder_zero hlen).trans hw, ?_⟩
    rw [hv, rawRoot, bitrev_zero, pow_zero, Nat.mod_eq_of_lt hq1]
  case reordered =>
    intro j hj i hi
    have hle : 2 ^ j + 2 ^ j ≤ 2 ^ k := by
      rw [← two_mul, ← pow_succ']; exact Nat.pow_le_pow_right (by norm_num) hj
    obtain ⟨w, hw, hv⟩ := hraw (2 ^ j + i) (by omega)
    exact ⟨w, (reorder_getElem? hlen hj hi).trans hw, hv⟩
  case scaledInv =>
    intro r _ v h
    have hs := hasEntry_scaledArray hqw (entriesBelow_reorder hrawBelow) h
    rwa [← reorder_scaledArray] at hs

/-- Settles O31: the invariant says that TBL_BUILD made the table, and what it makes has the contents of the rules. -/
theorem initializedTableContents : Obligations.InitializedTableContents := by
  rintro s t ⟨hp, -, ht⟩ hs
  obtain ⟨hr, hb⟩ := ht t hs
  obtain ⟨⟨hq1, hq, hd, hprime⟩, root, rootInv, degreeInv, htab, hroot, hinv, hdeg⟩ := buildForDegree_spec hb
  obtain ⟨hmin, hmax⟩ := degreeInRange_iff.1 hr
  have hn : 1 < 2 * 2 ^ t.coeffCountPower.toNat := by
    have := Nat.one_le_two_pow (n := t.coeffCountPower.toNat)
    omega
  have hrules := tableOf_matchesRules (degree_bounds hp hr).2 hq1 hq hroot hinv hdeg
  rw [← htab] at hrules
  have hmod := Nat.mod_eq_of_modEq ((Nat.modEq_iff_dvd' hq1.le).2 hd).symm hn
  exact ⟨_, _, root, rootInv, _, hrules, hmin, hmax, hprime, hq, hmod⟩

end Sys2Proof.Machine

/-! PROOFS for 20_memory.md: the accesses the block refuses (R54, R55), the coefficient buffer at the host port and in the
passes (R57, R185, R209), and the order of a 128-bit result's two words (R59). -/

namespace Sys2Proof.Machine

/-! Where an access inside the block's range goes (R51 to R55). -/

theorem busTarget_base_add (p : Params) {off : Nat} (size : Nat) (h : off < 2 ^ 21) :
    busTarget p (p.base + off) size = targetAt p off size := by
  rw [busTarget, if_pos (by omega), Nat.add_sub_cancel_left]

/-- R54, R55: an access of another size, a misaligned one and one to an unmapped offset are refused. -/
theorem targetAt_eq_refused {p : Params} {off size : Nat}
    (h : size ≠ 8 ∨ off % 8 ≠ 0 ∨ (0x100 ≤ off ∧ off < bufOffset 0) ∨ bufOffset p.nMax ≤ off) :
    targetAt p off size = .refused := by
  unfold targetAt
  split
  · rfl
  · have hunmapped : 0x100 ≤ off ∧ ¬ (bufOffset 0 ≤ off ∧ off < bufOffset p.nMax) := by
      unfold bufOffset at *
      omega
    rw [if_neg (by omega), if_neg hunmapped.2]

/-- R51, R57: an aligned access of one word at the offset of `BUF[j]` reaches `BUF[j]`. -/
theorem targetAt_bufOffset {p : Params} {j : Nat} (h : j < p.nMax) : targetAt p (bufOffset j) 8 = .buf j := by
  unfold targetAt bufOffset
  rw [if_neg (by omega), if_neg (by omega), if_pos (by omega)]
  congr 1
  omega

/-- The buffer window ends inside the block's range (R7, R51). -/
theorem bufOffset_lt_of_lt_nMax {p : Params} (hp : p.wellFormed = true) {j : Nat} (h : j < p.nMax) :
    bufOffset j < 2 ^ 21 := by
  have hmax : p.nMax ≤ 2 ^ 17 := Nat.pow_le_pow_right (by norm_num) (Params.wellFormed_bounds hp).2.2
  unfold bufOffset
  omega

theorem busTarget_bufOffset {p : Params} (hp : p.wellFormed = true) {j : Nat} (h : j < p.nMax) :
    busTarget p (p.base + bufOffset j) 8 = .buf j := by
  rw [busTarget_base_add p 8 (bufOffset_lt_of_lt_nMax hp h), targetAt_bufOffset h]

/-! A step whose event is an access, by the access's target. -/

theorem step_read {s : State} {addr size : Nat} {rest : List HostEvent} {t : Target}
    (hi : s.inbox = .read addr size :: rest) (ht : busTarget s.params addr size = t) :
    step s = .next (hostRead t { s with inbox := rest }) := by
  subst ht
  exact step_cons hi

theorem step_write {s : State} {addr size : Nat} {v : Word} {rest : List HostEvent} {t : Target}
    (hi : s.inbox = .write addr size v :: rest) (ht : busTarget s.params addr size = t) (hne : t ≠ .cmd) :
    step s = .next (hostWrite t v { s with inbox := rest }) := by
  subst ht
  exact (step_cons hi).trans (if_neg hne)

/-- Settles O8: the access reaches the target `refused`, whose read and write only answer with the bus error. -/
theorem refusedAccessesChangeNothing : Obligations.RefusedAccessesChangeNothing := by
  intro s rest off size v _ hoff hrefused hi
  have ht : busTarget s.params (s.params.base + off) size = .refused :=
    (busTarget_base_add _ size hoff).trans (targetAt_eq_refused hrefused)
  rcases hi with hi | hi
  · exact step_read hi ht
  · exact step_write hi ht (by decide)

/-! The coefficient buffer at the host port (R57). -/

theorem readBuf_of_unwritten_fault {j : Nat} {s : State} (h : s.written j = false) (hm : s.params.bufUnwritten = .fault) :
    readBuf j s = (Config.storedWord s.resetEpoch j, s.recordUnwrittenRead) := by
  simp only [readBuf, State.written_eq_false.1 h, hm]

theorem readBuf_of_unwritten_draw {j : Nat} {s : State} (h : s.written j = false) (hm : s.params.bufUnwritten = .draw) :
    readBuf j s = (Config.drawnWord s.draws, { s with draws := s.draws + 1 }) := by
  simp only [readBuf, State.written_eq_false.1 h, hm]

/-- A write of `BUF[j]` sets its written flag (R39). -/
theorem written_writeBuf (j : Nat) (v : Word) (s : State) : (writeBuf j v s).written j = true := by
  simp [State.written]

/-- A host read of `BUF[j]` steps as `readBuf` answers for it. -/
theorem step_read_bufOffset {s : State} {rest : List HostEvent} {j : Nat} (hp : s.params.wellFormed = true)
    (hj : j < s.params.nMax) (hi : s.inbox = .read (s.params.base + bufOffset j) 8 :: rest) {v : Word} {u : State}
    (hr : readBuf j { s with inbox := rest } = (v, u)) : step s = .next (u.reply (.data v)) := by
  rw [step_read hi (busTarget_bufOffset hp hj), hostRead, hr]

/-- A host write of `BUF[j]` changes the memory and the port only. -/
theorem step_write_bufOffset {s : State} {rest : List HostEvent} {j : Nat} {v : Word} (hp : s.params.wellFormed = true)
    (hj : j < s.params.nMax) (hi : s.inbox = .write (s.params.base + bufOffset j) 8 v :: rest) :
    step s = .next { s with
      inbox := rest, replies := .written :: s.replies, mem := Memory.setBufWord s.mem j v } :=
  step_write hi (busTarget_bufOffset hp hj) (by simp)

/-- Settles O9: an access at the word's offset reaches `BUF[j]`; a write is one write of its word, and a read is one of the
three cases of `readBuf`. -/
theorem bufferWindowReadsAndWrites : Obligations.BufferWindowReadsAndWrites := by
  intro s rest j hp hj
  refine ⟨fun v hi => ?write, fun hi => ⟨fun v hv => ?read, fun hw hm => ?stored, fun hw hm => ?drawn⟩⟩
  case write =>
    refine ⟨_, step_write_bufOffset hp hj hi, rfl, ?_, written_writeBuf j v s, fun i hne => ?_, fun x hx => ?_⟩
    · rw [Memory.bufWord_setBufWord, if_pos rfl]
    · rw [Memory.bufWord_setBufWord, if_neg hne]
    · exact Memory.readByte_setBufWord_outside v hx
  case read => exact step_read_bufOffset hp hj hi (readBuf_of_written hv)
  case stored => exact step_read_bufOffset hp hj hi (readBuf_of_unwritten_fault hw hm)
  case drawn => exact step_read_bufOffset hp hj hi (readBuf_of_unwritten_draw hw hm)

/-! The two words of a 128-bit result (R59, R101). -/

/-- The two result words, low word first, are the exact quotient. -/
theorem div128By64_words (lo hi d : Word) :
    (div128By64 lo hi d).2.toNat * 2 ^ 64 + (div128By64 lo hi d).1.toNat = quotient128 lo hi d := by
  obtain ⟨hlow, hhigh⟩ := div128By64_toNat lo hi d
  rw [hlow, hhigh, Nat.div_add_mod']

/-- Settles O17: the two cases of the command's domain, with the exact quotient split into its words. -/
theorem div128By64Result : Obligations.Div128By64Result := by
  refine ⟨rfl, fun s => ?_⟩
  have hzero : s.arg2.toNat = 0 ↔ s.arg2 = 0 := BitVec.toNat_inj (y := 0)
  rcases withinDomainTwo_cases (s.arg2 ≠ 0) (div128By64 s.arg0 s.arg1 s.arg2) s with ⟨hdom, h⟩ | ⟨hdom, h⟩
  · have hne := of_decide_eq_true hdom
    exact ⟨fun _ => ⟨_, h, rfl, div128By64_words s.arg0 s.arg1 s.arg2⟩, fun h0 => absurd (hzero.1 h0) hne⟩
  · have heq := not_not.1 (of_decide_eq_false hdom)
    exact ⟨fun h0 => absurd (hzero.2 heq) h0, fun _ => h⟩

/-! What a pass records and draws (R57, R185, R209). -/

theorem readBufs_inputOutOfRange (count : Nat) (s : State) :
    (readBufs count 0 s).2.faults.inputOutOfRange = s.faults.inputOutOfRange := by
  rw [readBufs_eq]
  cases s.params.bufUnwritten <;> rfl

theorem readBufs_unwrittenRead (count : Nat) (s : State) :
    (readBufs count 0 s).2.faults.unwrittenRead = true ↔
      s.faults.unwrittenRead = true ∨ (s.params.bufUnwritten = .fault ∧ ∃ j < count, s.written j = false) := by
  rw [readBufs_eq, ← unwrittenBelow_pos]
  cases s.params.bufUnwritten <;> simp

theorem readBufs_draws (count : Nat) (s : State) :
    (readBufs count 0 s).2.draws = match s.params.bufUnwritten with
      | .fault => s.draws
      | .draw => s.draws + unwrittenBelow s count := by
  rw [readBufs_eq]
  cases s.params.bufUnwritten <;> rfl

@[simp] theorem checkInputs_unwrittenRead (bound : Nat) (a : List Word) (s : State) :
    (checkInputs bound a s).faults.unwrittenRead = s.faults.unwrittenRead := by
  unfold checkInputs
  split
  · rfl
  · split <;> rfl

/-- The next state of a pass, where it has one. -/
theorem eq_of_runPass_next {bound : Table → Nat} {transform : Table → List Word → List Word} {s u : State} {t : Table}
    (ht : s.tbl = some t) (h : runPass bound transform s = .next u) :
    u = State.complete .ok (writeBufs 0 (transform t (readBufs t.coeffCount.toNat 0 s).1)
      (checkInputs (bound t) (readBufs t.coeffCount.toNat 0 s).1 (readBufs t.coeffCount.toNat 0 s).2)) := by
  cases hc : tableCoherent t with
  | false => simp [runPass, ht, hc] at h
  | true => cases (runPass_of_coherent ht hc).symm.trans h; rfl

/-- Everything a pass adds to the fault record and to the count of draws, for any input bound and any transform. -/
theorem runPass_records {bound : Table → Nat} {transform : Table → List Word → List Word} {s u : State} {t : Table}
    (ht : s.tbl = some t) (h : runPass bound transform s = .next u) :
    (u.faults.inputOutOfRange = true ↔ s.faults.inputOutOfRange = true ∨
      (s.params.oorMode = .fault ∧ ∃ j < t.coeffCount.toNat, bound t ≤ (passInput s j).toNat)) ∧
    (u.faults.unwrittenRead = true ↔ s.faults.unwrittenRead = true ∨
      (s.params.bufUnwritten = .fault ∧ ∃ j < t.coeffCount.toNat, s.written j = false)) ∧
    u.draws = (match s.params.bufUnwritten with
      | .fault => s.draws
      | .draw => s.draws + unwrittenBelow s t.coeffCount.toNat) := by
  have hwords : (readBufs t.coeffCount.toNat 0 s).1 = (List.range t.coeffCount.toNat).map (passInput s) := by
    rw [readBufs_eq]
  rw [eq_of_runPass_next ht h]
  simp only [State.complete_faults, State.complete_draws, writeBufs_faults, writeBufs_draws]
  refine ⟨?outOfRange, ?unwritten, ?draws⟩
  case outOfRange =>
    rw [checkInputs_inputOutOfRange, readBufs_inputOutOfRange, readBufs_params, hwords]
    simp
  case unwritten => rw [checkInputs_unwrittenRead, readBufs_unwrittenRead]
  case draws => exact (checkInputs_draws _ _ _).trans (readBufs_draws _ _)

/-- Settles O39: both passes are `runPass`, with R185's bound `q` and R209's bound `2q`. -/
theorem passesRecordBrokenInputs : Obligations.PassesRecordBrokenInputs := by
  intro i factor hi s u t ht h
  simp only [List.mem_cons, List.not_mem_nil, or_false, Prod.mk.injEq] at hi
  rcases hi with ⟨rfl, rfl⟩ | ⟨rfl, rfl⟩
  · rw [Nat.one_mul]
    exact runPass_records ht h
  · exact runPass_records ht h

end Sys2Proof.Machine

/-! PROOFS for 30_encoding.md: which words decode to a command, and what writing any other does (R88). -/

namespace Sys2Proof.Machine

/-! Which fields name a command (R85 to R87). -/

theorem exists_arrayCommand_iff {sel : Nat} : (∃ i, arrayCommand sel = .ok i) ↔ sel ≤ 5 := by
  constructor
  · rintro ⟨i, h⟩
    obtain ⟨-, rfl⟩ := arrayCommand_ok h
    cases i <;> decide
  · intro h
    interval_cases sel <;> exact ⟨_, rfl⟩

theorem exists_scalarCommand_iff {sel : Nat} : (∃ i, scalarCommand sel = .ok i) ↔ sel ≤ 4 := by
  constructor
  · rintro ⟨i, h⟩
    obtain ⟨hop, rfl⟩ := scalarCommand_ok h
    cases i <;> revert hop <;> decide
  · intro h
    interval_cases sel <;> exact ⟨_, rfl⟩

theorem exists_plainCommand_iff {op : Nat} : (∃ i, plainCommand op = .ok i) ↔ op ∈ plainOpcodes := by
  constructor
  · rintro ⟨i, h⟩
    obtain ⟨rfl, -⟩ := plainCommand_ok h
    cases i <;> revert h <;> decide
  · intro h
    fin_cases h <;> exact ⟨_, rfl⟩

/-- The opcodes that take a selector are not among those that take none (R85). -/
theorem notMem_plainOpcodes_of_selectorOpcode {op : Nat} (h : op = 0x20 ∨ op = 0x21) : op ∉ plainOpcodes := by
  rcases h with rfl | rfl <;> decide

/-! Which words decode to a command (R88, R91). -/

theorem decodeWord_of_plain {w : Word} (hrsvd : rsvdField w = 0) (harray : opField w ≠ 0x20) (hscalar : opField w ≠ 0x21)
    (i : Instr) : decodeWord w = .ok i ↔ plainCommand (opField w) = .ok i ∧ selField w = 0 := by
  simp only [decodeWord, hrsvd, harray, hscalar, ne_eq, not_true_eq_false, if_false]
  cases plainCommand (opField w) with
  | error e => simp
  | ok j => by_cases hsel : selField w = 0 <;> simp [hsel]

/-- A word is a command exactly when `RSVD` is 0 and `SEL` is one that `OP` has. -/
theorem exists_decodeWord_iff {w : Word} : (∃ i, decodeWord w = .ok i) ↔ rsvdField w = 0 ∧
    ((opField w = 0x20 ∧ selField w ≤ 5) ∨ (opField w = 0x21 ∧ selField w ≤ 4) ∨
      (opField w ∈ plainOpcodes ∧ selField w = 0)) := by
  by_cases hrsvd : rsvdField w = 0
  case neg => simp [decodeWord, hrsvd]
  by_cases harray : opField w = 0x20
  · simp [decodeWord, hrsvd, harray, notMem_plainOpcodes_of_selectorOpcode, exists_arrayCommand_iff]
  by_cases hscalar : opField w = 0x21
  · simp [decodeWord, hrsvd, hscalar, notMem_plainOpcodes_of_selectorOpcode, exists_scalarCommand_iff]
  · simp [decodeWord_of_plain hrsvd harray hscalar, hrsvd, harray, hscalar, exists_plainCommand_iff]

/-- R88's conditions, by the fields of R80. -/
theorem forall_decodeWord_ne_ok_iff {w : Word} : (∀ i, decodeWord w ≠ .ok i) ↔ rsvdField w ≠ 0 ∨
    (opField w ∉ plainOpcodes ∧ opField w ≠ 0x20 ∧ opField w ≠ 0x21) ∨ (opField w = 0x20 ∧ 5 < selField w) ∨
      (opField w = 0x21 ∧ 4 < selField w) ∨ (opField w ∈ plainOpcodes ∧ selField w ≠ 0) := by
  rw [← not_exists, exists_decodeWord_iff]
  by_cases harray : opField w = 0x20
  · simp [harray, notMem_plainOpcodes_of_selectorOpcode, imp_iff_not_or]
  by_cases hscalar : opField w = 0x21
  · simp [hscalar, notMem_plainOpcodes_of_selectorOpcode, imp_iff_not_or]
  · by_cases hplain : opField w ∈ plainOpcodes <;> simp [harray, hscalar, hplain, imp_iff_not_or]

/-- Settles O3: R88's conditions are the complement of what decodes, and the block completes a rejected word with
ILLEGAL_COMMAND. -/
theorem illegalWordsAreThoseOfTheRule : Obligations.IllegalWordsAreThoseOfTheRule := by
  refine fun w => ⟨forall_decodeWord_ne_ok_iff, fun hillegal s => ?_⟩
  cases hd : decodeWord w with
  | ok i => exact absurd hd (hillegal i)
  | error e => exact runCommandWord_of_reject hd s

end Sys2Proof.Machine

/-! PROOFS for 40_arith_primitives.md: what the arithmetic commands write and where they fail (R110 to R116), the half
modulo an odd `q` (R104), bit reversal as a sum (R105) and the Shoup bound (R107). -/

namespace Sys2Proof.Machine

/-! A command with a domain and one result (R108), on each side of its domain. -/

theorem withinDomain_of {P : Prop} [Decidable P] (h : P) (v : Word) (s : State) :
    withinDomain (decide P) v s = .next { s with res0 := v, code := .ok } := by
  rw [decide_eq_true h]
  rfl

theorem withinDomain_of_not {P : Prop} [Decidable P] (h : ¬ P) (v : Word) (s : State) :
    withinDomain (decide P) v s = .next { s with code := .domainError, err := true } := by
  rw [decide_eq_false h]
  exact raise_eq (by decide) s

theorem word_toNat_eq_zero_iff {w : Word} : w.toNat = 0 ↔ w = 0 := BitVec.toNat_inj (y := 0)

/-! Products and quotients (R100, R102, R103). -/

/-- Settles O14: the command is total and its result is `mul_hi`. -/
theorem mulHiResult : Obligations.MulHiResult :=
  ⟨rfl, fun s => ⟨_, rfl, rfl, mulHi_toNat s.arg0 s.arg1⟩⟩

/-- Settles O15: the domain of the command is that of `mul_mod`. -/
theorem mulModResult : Obligations.MulModResult := by
  refine ⟨rfl, fun s => ⟨fun hq => ?_, fun hq => ?_⟩⟩
  · exact ⟨_, withinDomain_of (mt word_toNat_eq_zero_iff.2 hq) _ s, rfl, mulMod_toNat hq⟩
  · exact withinDomain_of_not (not_not.2 (word_toNat_eq_zero_iff.1 hq)) _ s

/-- Settles O16: in the domain the quotient fits one word, and R112's failure is the complement of the domain. -/
theorem shoupRatioResult : Obligations.ShoupRatioResult := by
  refine ⟨rfl, fun s => ⟨fun ⟨hq, hlt⟩ => ?_, fun hout => ?_⟩⟩
  · exact ⟨_, withinDomain_of ⟨mt word_toNat_eq_zero_iff.2 hq, hlt⟩ _ s, rfl, shoupRatio_toNat hlt⟩
  · refine withinDomain_of_not (fun ⟨hq, hlt⟩ => ?_) _ s
    exact hout.elim (mt word_toNat_eq_zero_iff.1 hq) hlt.not_ge

/-! The half modulo an odd `q` (R104). -/

/-- The half is below `q`. -/
theorem div2Mod_lt {x q : Word} (h : x.toNat < q.toNat) : (div2Mod x q).toNat < q.toNat := by
  rw [div2Mod_toNat h]
  split <;> omega

/-- Twice the half is the operand modulo `q`: for an odd operand the sum with the odd `q` is even, so its half is exact. -/
theorem two_mul_div2Mod_mod {x q : Word} (hodd : q.toNat % 2 = 1) (h : x.toNat < q.toNat) :
    2 * (div2Mod x q).toNat % q.toNat = x.toNat := by
  rw [div2Mod_toNat h]
  split
  case isTrue heven =>
    rw [Nat.mul_div_cancel' (Nat.dvd_of_mod_eq_zero heven), Nat.mod_eq_of_lt h]
  case isFalse =>
    have hsum : 2 ∣ x.toNat + q.toNat := by omega
    rw [Nat.mul_div_cancel' hsum, Nat.add_mod_right, Nat.mod_eq_of_lt h]

/-- Settles O18: the command's domain is R104's, where the half has the three properties. -/
theorem div2ModResult : Obligations.Div2ModResult := by
  refine ⟨rfl, fun s => ⟨fun hdom => ?_, fun hout => ?_⟩⟩
  · obtain ⟨hodd, hlt⟩ := hdom
    exact ⟨_, withinDomain_of ⟨hodd, hlt⟩ _ s, rfl, div2Mod_toNat hlt, div2Mod_lt hlt, two_mul_div2Mod_mod hodd hlt⟩
  · refine withinDomain_of_not (fun ⟨hodd, hlt⟩ => ?_) _ s
    simp only [State.arg_zero, State.arg_one] at hodd hlt
    omega

/-! The Shoup product (R106, R107). -/

/-- Settles O19: the command is total, and its wrapping product is one reduction of the exact value. -/
theorem shoupMulResult : Obligations.ShoupMulResult :=
  ⟨rfl, fun s => ⟨_, rfl, rfl, shoupMul_toNat s.arg0 s.arg1 s.arg2 s.arg3⟩⟩

/-- What the two floors of the Shoup product lose, scaled by `b`: the first division's remainder times `y` and the second
one's times `q`. -/
theorem shoup_floor_loss (b w y q : ℕ) :
    b * (w * y) = b * (w * b / q * y / b * q) + (w * b % q * y + w * b / q * y % b * q) := by
  have hratio := Nat.div_add_mod (w * b) q
  have hhigh := Nat.div_add_mod (w * b / q * y) b
  calc b * (w * y)
      = (q * (w * b / q) + w * b % q) * y := by rw [hratio]; ring
    _ = (w * b / q * y) * q + w * b % q * y := by ring
    _ = (b * (w * b / q * y / b) + w * b / q * y % b) * q + w * b % q * y := by rw [hhigh]
    _ = b * (w * b / q * y / b * q) + (w * b % q * y + w * b / q * y % b * q) := by ring

/-- R107 on naturals: the multiple of `q` taken off `w · y` leaves less than `2q`, as each floor loses less than `q`. -/
theorem shoup_remainder_lt {b w y q : ℕ} (hq : 0 < q) (hy : y < b) :
    ∃ t < 2 * q, w * y = w * b / q * y / b * q + t := by
  have hb : 0 < b := by omega
  have hloss := shoup_floor_loss b w y q
  have hratio : w * b % q * y < b * q := by
    rw [mul_comm b]
    exact Nat.mul_lt_mul'' (Nat.mod_lt _ hq) hy
  have hhigh : w * b / q * y % b * q < b * q := Nat.mul_lt_mul_of_pos_right (Nat.mod_lt _ hb) hq
  have hle : w * b / q * y / b * q ≤ w * y := Nat.le_of_mul_le_mul_left (Nat.le.intro hloss.symm) hb
  obtain ⟨t, ht⟩ := Nat.exists_eq_add_of_le hle
  refine ⟨t, Nat.lt_of_mul_lt_mul_left (a := b) ?_, ht⟩
  rw [ht, mul_add] at hloss
  linarith

/-- R107: with the true pre-multiplier the wrapping product is exact. -/
theorem shoupMul_shoupRatio {w y q : Word} (hq0 : 0 < q.toNat) (hq : q.toNat < 2 ^ 63) (hw : w.toNat < q.toNat) :
    (shoupMul w (shoupRatio w q) y q).toNat < 2 * q.toNat ∧
      w.toNat * y.toNat = w.toNat * 2 ^ 64 / q.toNat * y.toNat / 2 ^ 64 * q.toNat +
        (shoupMul w (shoupRatio w q) y q).toNat := by
  obtain ⟨t, hlt, ht⟩ := shoup_remainder_lt (w := w.toNat) hq0 y.isLt
  have hval : (shoupMul w (shoupRatio w q) y q).toNat = t := by
    have hmul := shoupMul_toNat w (shoupRatio w q) y q
    rw [shoupRatio_toNat hw, ← Nat.cast_mul w.toNat, ht, Nat.cast_add, Nat.cast_mul, add_sub_cancel_left] at hmul
    omega
  rw [hval]
  exact ⟨hlt, ht⟩

/-- Settles O22: the product is what is left of `W · Y` after a multiple of `q`. -/
theorem shoupProductBound : Obligations.ShoupProductBound := by
  intro w y q hq0 hq hw
  obtain ⟨hlt, heq⟩ := shoupMul_shoupRatio (y := y) hq0 hq hw
  exact ⟨hlt, by rw [heq, Nat.mul_add_mod']⟩

/-! Bit reversal as a sum (R105). -/

/-- R105: bit `b` of the operand counts `2^(k - 1 - b)`. -/
theorem bitrev_eq_sum (i k : ℕ) : bitrev i k = ∑ b ∈ Finset.range k, i / 2 ^ b % 2 * 2 ^ (k - 1 - b) := by
  induction k generalizing i with
  | zero => rfl
  | succ k ih =>
    have hshift (b : ℕ) : i / 2 / 2 ^ b % 2 * 2 ^ (k - 1 - b) = i / 2 ^ (b + 1) % 2 * 2 ^ (k + 1 - 1 - (b + 1)) := by
      rw [Nat.div_div_eq_div_mul, ← pow_succ', Nat.add_sub_cancel, Nat.sub_sub, add_comm 1]
    rw [Finset.sum_range_succ', bitrev, ih, add_comm]
    simp [hshift]

/-- Settles O20: a reversal of up to 64 bits fits a word. -/
theorem bitReverseResult : Obligations.BitReverseResult := by
  refine ⟨rfl, fun s => ⟨fun hk => ?_, fun hk => ?_⟩⟩
  · have hfits : bitrev s.arg0.toNat s.arg1.toNat < 2 ^ 64 :=
      (bitrev_lt _ _).trans_le (Nat.pow_le_pow_right (by norm_num) hk)
    exact ⟨_, withinDomain_of hk _ s, rfl, (ofNat_toNat_of_lt hfits).trans (bitrev_eq_sum _ _)⟩
  · exact withinDomain_of_not hk.not_ge _ s

end Sys2Proof.Machine

/-! PROOFS for 41_root_power_table.md: when TBL_BUILD fails and what it builds (R141 to R153), the properties of a built
table (R156), what the accessors read (R160 to R172), and that nothing else writes the table (R173). -/

namespace Sys2Proof.Machine

/-! TBL_BUILD (R140 to R155). -/

/-- R142, R143: what the steps after the degree check fail on, for a degree of any size. -/
theorem buildForDegree_eq_none {k q : Nat}
    (h : q ≤ 1 ∨ 2 ^ 62 ≤ q ∨ ¬ q.Prime ∨ ∀ x, 1 ≤ x → x < q → ¬ isRootOfUnity (2 ^ k) q x) :
    buildForDegree k q = none := by
  refine Option.eq_none_iff_forall_ne_some.2 fun t ht => ?_
  obtain ⟨⟨hq1, hq, -, hprime⟩, root, _, _, -, ⟨⟨hpos, hlt, hroot⟩, -⟩, -⟩ := buildForDegree_spec ht
  rcases h with h | h | h | h
  · exact h.not_gt hq1
  · exact h.not_gt hq
  · exact h hprime
  · exact h root hpos hlt hroot

/-- Settles O29: each failure rules out the other two outcomes of `execTblBuild_cases`. -/
theorem tblBuildFails : Obligations.TblBuildFails := by
  rintro s _ _ rfl rfl
  refine ⟨fun hout => ?degree, fun hin hbad => ?modulus⟩
  case degree =>
    have hr : degreeInRange s.params s.arg0.toNat ≠ true := mt degreeInRange_iff.1 (by omega)
    rcases execTblBuild_cases s with ⟨-, h⟩ | ⟨hr', -⟩ | ⟨_, hr', -⟩
    · exact h
    · exact absurd hr' hr
    · exact absurd hr' hr
  case modulus =>
    have hr := degreeInRange_iff.2 hin
    have hnone := buildForDegree_eq_none hbad
    rcases execTblBuild_cases s with ⟨hr', -⟩ | ⟨-, -, h⟩ | ⟨t, -, hb, -⟩
    · cases hr'.symm.trans hr
    · exact h
    · cases hb.symm.trans hnone

/-- R23: bit 8 of `STATUS` is `INIT`. -/
theorem State.statusWord_init (s : State) : s.statusWord.toNat / 2 ^ 8 % 2 = s.initialized.toNat := by
  have hcode := s.code.number_lt
  have hinit := Bool.toNat_le s.initialized
  rw [State.statusWord_toNat]
  omega

/-- Settles O30: the modulus suits, so the build gives the table of R152, which has the contents of the rules. -/
theorem tblBuildSucceeds : Obligations.TblBuildSucceeds := by
  refine ⟨rfl, ?_⟩
  rintro s k q hp rfl rfl hmin hmax hprime hq hmod
  have hr := degreeInRange_iff.2 ⟨hmin, hmax⟩
  have hd : 2 * 2 ^ s.arg0.toNat ∣ s.arg1.toNat - 1 := hmod ▸ Nat.dvd_sub_mod s.arg1.toNat
  obtain ⟨root, rootInv, degreeInv, hb, hroot, hinv, hdeg⟩ :=
    buildForDegree_of_suits (modulusSuits_iff.2 ⟨hprime.one_lt, hq, hd, hprime⟩)
  rcases execTblBuild_cases s with ⟨hr', -⟩ | ⟨-, hb', -⟩ | ⟨t, -, hb', h⟩
  · cases hr'.symm.trans hr
  · cases hb'.symm.trans hb
  · cases hb'.symm.trans hb
    exact ⟨_, _, h, rfl, State.statusWord_init _, root, rootInv, _,
      tableOf_matchesRules (degree_bounds hp hr).2 hprime.one_lt hq hroot hinv hdeg⟩

/-! The properties of a built table (R156). -/

/-- A table the invariant admits is the one R152 makes of a least root and the two inverses. -/
theorem Inv.exists_tableOf {s : State} {t : Table} (h : Inv s) (hs : s.tbl = some t) :
    ∃ k q root rootInv degreeInv, t = tableOf k q root rootInv degreeInv ∧ (1 ≤ k ∧ k ≤ 17) ∧
      (1 < q ∧ q < 2 ^ 62 ∧ 2 * 2 ^ k ∣ q - 1 ∧ q.Prime) ∧ isLeastRoot (2 ^ k) q root ∧
      (rootInv < q ∧ rootInv * root % q = 1) ∧ (degreeInv < q ∧ degreeInv * 2 ^ k % q = 1) := by
  obtain ⟨hp, -, ht⟩ := h
  obtain ⟨hr, hb⟩ := ht t hs
  obtain ⟨hq, root, rootInv, degreeInv, htab, hroot, hinv, hdeg⟩ := buildForDegree_spec hb
  exact ⟨_, _, root, rootInv, degreeInv, htab, degree_bounds hp hr, hq, hroot, hinv, hdeg⟩

/-- No entry of the array is 0. -/
def entriesPositive (a : List Word) : Prop := ∀ w ∈ a, 1 ≤ w.toNat

/-- The powers of a residue other than 0 are not 0 modulo a prime. -/
theorem entriesPositive_bitrevPowers {k root q : Nat} (hk : k ≤ 17) (hq : q < 2 ^ 62) (hprime : q.Prime)
    (hroot : ¬ q ∣ root) : entriesPositive (bitrevPowers k root q) := fun w hw => by
  obtain ⟨r, hr⟩ := List.mem_iff_getElem?.1 hw
  have hlt : r < 2 ^ k := by simpa using (List.getElem?_eq_some_iff.1 hr).1
  obtain ⟨w', hw', hv⟩ := hasEntry_bitrevPowers (root := root) hk hprime.one_lt hq hlt
  rw [Option.some.inj (hr.symm.trans hw'), hv]
  exact Nat.pos_of_ne_zero fun h0 => hroot (hprime.dvd_of_dvd_pow (Nat.dvd_of_mod_eq_zero h0))

theorem entriesPositive_halved {qw : Word} {a : List Word} (hbelow : entriesBelow qw.toNat a) (hpos : entriesPositive a) :
    entriesPositive (a.map fun w => div2Mod w qw) := fun w hw => by
  obtain ⟨x, hx, rfl⟩ := List.mem_map.1 hw
  have hlt := hbelow x hx
  have hx1 := hpos x hx
  rw [div2Mod_toNat hlt]
  split <;> omega

theorem entriesPositive_reorder {k : Nat} {raw : List Word} (h : entriesPositive raw) :
    entriesPositive (reorder k raw) := fun w hw =>
  (List.mem_append.1 hw).elim (fun h' => h w (List.mem_of_mem_take h')) fun h' => h w (mem_of_mem_reorderedSlices h')

/-- Property 3 of R156 and its range clause, at entry `r` of an array and its scaled array. -/
def scaledEntryAt (q r : Nat) (a b : List Word) : Prop :=
  ∃ v v', hasEntry a r v ∧ hasEntry b r v' ∧ 1 ≤ v ∧ v < q ∧ v' * q ≤ v * 2 ^ 64 ∧ v * 2 ^ 64 < (v' + 1) * q

/-- Property 3 of R156: the pre-multiplier is the quotient `v · 2^64 / q` rounded down. -/
theorem scaledEntryAt_scaledArray {q r : Nat} {qw : Word} {a : List Word} (hqw : qw.toNat = q)
    (hbelow : entriesBelow q a) (hpos : entriesPositive a) (hr : r < a.length) :
    scaledEntryAt q r a (scaledArray qw a) := by
  have hmem : a[r] ∈ a := List.getElem_mem hr
  have hentry : hasEntry a r a[r].toNat := ⟨a[r], List.getElem?_eq_getElem hr, rfl⟩
  have hlt := hbelow _ hmem
  exact ⟨_, _, hentry, hasEntry_scaledArray hqw hbelow hentry, hpos _ hmem, hlt, Nat.div_mul_le_self _ _,
    Nat.lt_mul_of_div_lt (Nat.lt_succ_self _) (by omega)⟩

/-- Property 4 of R156: twice a halved entry is the entry modulo an odd `q`. -/
theorem two_mul_halved_mod {q r v : Nat} {qw : Word} {a : List Word} (hqw : qw.toNat = q) (hodd : q % 2 = 1)
    (hbelow : entriesBelow q a) (h : hasEntry a r v) :
    ∃ half, hasEntry (a.map fun w => div2Mod w qw) r half ∧ 2 * half % q = v := by
  subst hqw
  obtain ⟨w, hw, rfl⟩ := h
  exact ⟨_, ⟨div2Mod w qw, by rw [List.getElem?_map, hw, Option.map_some], rfl⟩,
    two_mul_div2Mod_mod hodd (hbelow w (List.mem_of_getElem? hw))⟩

/-- Property 3 of R156 for each of the three pairs of arrays that R152 makes. -/
theorem scaledEntryAt_tableOf {k q root rootInv degreeInv : Nat} (hk : k ≤ 17) (hq : q < 2 ^ 62) (hprime : q.Prime)
    (hroot : ¬ q ∣ root) (hinv : ¬ q ∣ rootInv) {t : Table} (ht : t = tableOf k q root rootInv degreeInv)
    {r : Nat} (hr : r < 2 ^ k) {a b : List Word}
    (hab : (a, b) ∈ [(t.rootPowers, t.scaledRootPowers), (t.invRootPowers, t.scaledInvRootPowers),
      (t.invRootPowersDivTwo, t.scaledInvRootPowersDivTwo)]) : scaledEntryAt q r a b := by
  subst ht
  have hqw : (BitVec.ofNat 64 q : Word).toNat = q := ofNat_toNat_of_lt (by omega)
  have hlen : (rawInverseRoots k rootInv q).length = 2 ^ k := bitrevPowers_length k rootInv q
  have hbelow : entriesBelow q (rawInverseRoots k rootInv q) := entriesBelow_bitrevPowers hk hprime.one_lt hq
  have hpos : entriesPositive (rawInverseRoots k rootInv q) := entriesPositive_bitrevPowers hk hq hprime hinv
  simp only [List.mem_cons, List.not_mem_nil, or_false, Prod.mk.injEq] at hab
  rcases hab with ⟨rfl, rfl⟩ | ⟨rfl, rfl⟩ | ⟨rfl, rfl⟩
  · exact scaledEntryAt_scaledArray hqw (entriesBelow_bitrevPowers hk hprime.one_lt hq)
      (entriesPositive_bitrevPowers hk hq hprime hroot) (by simpa [tableOf] using hr)
  · have h := scaledEntryAt_scaledArray hqw (entriesBelow_reorder hbelow) (entriesPositive_reorder hpos)
      ((reorder_length hlen).symm ▸ hr)
    rwa [← reorder_scaledArray] at h
  · exact scaledEntryAt_scaledArray hqw (entriesBelow_halved hqw hbelow)
      (entriesPositive_halved (hqw.symm ▸ hbelow) hpos) (by simpa [tableOf, hlen] using hr)

/-- Settles O32: the table is `tableOf` of the least root, so properties 1, 2 and 5 are among its contents, and 3 and 4
hold of its arrays. -/
theorem builtTableProperties : Obligations.BuiltTableProperties := by
  rintro s t _ _ hI hs rfl rfl
  obtain ⟨k, q, root, rootInv, degreeInv, rfl, ⟨hk1, hk⟩, ⟨hq1, hq, hd, hprime⟩, hroot, hinv, hdeg⟩ :=
    hI.exists_tableOf hs
  have hn : 1 < 2 ^ k := Nat.one_lt_two_pow (by omega)
  have hodd : q % 2 = 1 := by
    have heven : 2 ∣ q - 1 := dvd_of_mul_right_dvd hd
    omega
  obtain ⟨-, ⟨-, hdegree⟩, ⟨-, hinv1, hinvlt, hinverse⟩, hraw, -, hroots, -⟩ :=
    tableOf_matchesRules hk hq1 hq hroot hinv hdeg
  rw [tableOf_coeffCount hk, tableOf_modulus hq, tableOf_coeffCountPower hk]
  obtain ⟨hroot1, hrootlt, -⟩ := hroot.1
  refine ⟨⟨root, hroot, ?first⟩, ?zero, fun r hr a b hab => ?scaled,
    ⟨_, root, rootInv, hroot, hinverse, hraw, fun r hr => ?halved⟩, hdegree⟩
  case first =>
    have h := hroots 1 hn
    rwa [pow_one, Nat.mod_eq_of_lt hrootlt] at h
  case zero =>
    have h := hroots 0 (by omega)
    rwa [bitrev_zero, pow_zero, Nat.mod_eq_of_lt hq1] at h
  case scaled =>
    exact scaledEntryAt_tableOf hk hq hprime (Nat.not_dvd_of_pos_of_lt hroot1 hrootlt)
      (Nat.not_dvd_of_pos_of_lt hinv1 hinvlt) rfl hr hab
  case halved =>
    obtain ⟨v, hv, hdouble⟩ := two_mul_halved_mod (ofNat_toNat_of_lt (by omega)) hodd
      (entriesBelow_bitrevPowers hk hq1 hq) (hasEntry_bitrevPowers (root := rootInv) hk hq1 hq hr)
    exact ⟨v, hv, hdouble.trans (Nat.mod_mod _ q).symm⟩

/-! The accessors (R160 to R172). -/

section
variable {array : Table → List Word} {s : State} {t : Table}

theorem getArray_uninitialized (ht : s.tbl = none) :
    getArray array s = .next { s with code := .notInitialized, err := true } := by
  rw [← raise_eq (c := .notInitialized) (by decide)]
  simp only [getArray, ht]

theorem getArray_outOfRange (ht : s.tbl = some t) (hk : t.coeffCount.toNat ≤ s.arg0.toNat) :
    getArray array s = .next { s with code := .indexOutOfRange, err := true } := by
  rw [← raise_eq (c := .indexOutOfRange) (by decide)]
  simp only [getArray, ht, State.arg_zero, hk, if_true]

theorem getArray_entry {v : Word} (ht : s.tbl = some t) (hk : s.arg0.toNat < t.coeffCount.toNat)
    (hv : (array t)[s.arg0.toNat]? = some v) : getArray array s = .next { s with res0 := v, code := .ok } := by
  simp only [getArray, ht, State.arg_zero, if_neg hk.not_ge, hv, State.finishOne_eq]

end

/-- Settles O34: the six commands are `getArray` on their arrays, each of which has `n` entries in a coherent table. -/
theorem tblGetArrayReads : Obligations.TblGetArrayReads := by
  intro w i array hmem
  have hrow : decodeWord w = .ok i ∧ (∀ s, exec i s = getArray array s) ∧
      ∀ t, tableCoherent t = true → (array t).length = t.coeffCount.toNat := by
    simp only [List.mem_cons, List.not_mem_nil, or_false, Prod.mk.injEq] at hmem
    rcases hmem with ⟨rfl, rfl, rfl⟩ | ⟨rfl, rfl, rfl⟩ | ⟨rfl, rfl, rfl⟩ | ⟨rfl, rfl, rfl⟩ | ⟨rfl, rfl, rfl⟩ |
      ⟨rfl, rfl, rfl⟩ <;>
    exact ⟨rfl, fun _ => rfl, fun t ht => by simp [tableCoherent_spec ht]⟩
  obtain ⟨hdecode, hexec, hlength⟩ := hrow
  refine ⟨hdecode, fun s => ?_⟩
  rw [hexec]
  refine ⟨getArray_uninitialized, fun t ht => ⟨getArray_outOfRange ht, fun hc hlt => ?_⟩⟩
  have hv := List.getElem?_eq_getElem ((hlength t hc).symm ▸ hlt)
  exact ⟨_, hv, getArray_entry ht hlt hv⟩

/-- Settles O35: the five commands are `getScalar` on their scalars. -/
theorem tblGetScalarReads : Obligations.TblGetScalarReads := by
  intro w i scalar hmem
  have hrow : decodeWord w = .ok i ∧ ∀ s, exec i s = getScalar scalar s := by
    simp only [List.mem_cons, List.not_mem_nil, or_false, Prod.mk.injEq] at hmem
    rcases hmem with ⟨rfl, rfl, rfl⟩ | ⟨rfl, rfl, rfl⟩ | ⟨rfl, rfl, rfl⟩ | ⟨rfl, rfl, rfl⟩ | ⟨rfl, rfl, rfl⟩ <;>
    exact ⟨rfl, fun _ => rfl⟩
  obtain ⟨hdecode, hexec⟩ := hrow
  refine ⟨hdecode, fun s => ⟨fun ht => ?_, fun t ht => ?_⟩⟩
  · rw [hexec, getScalar_eq, ht]
  · rw [hexec, getScalar_eq, ht]

/-! Who writes the table (R173). -/

/-- TBL_BUILD is the only command that changes the table. -/
theorem exec_tbl_changed {i : Instr} {s u : State} (h : exec i s = .next u) (hne : u.tbl ≠ s.tbl) : i = .tblBuild := by
  cases exec_effect h with
  | built _ hi | unbuilt _ _ hi => exact hi
  | results | failure | cleared => exact absurd rfl hne
  | passed _ _ _ _ _ _ _ _ hu => exact absurd (congrArg State.tbl hu) hne

/-- Settles O53: of the events a step can take only a reset and a command can change the table. -/
theorem onlyTblBuildAndResetWriteTheTable : Obligations.OnlyTblBuildAndResetWriteTheTable := by
  intro s u h hne
  cases step_effect h with
  | reset rest hi => exact ⟨rest, .inl hi⟩
  | command rest v i _ hi hd hx =>
    obtain rfl := exec_tbl_changed hx hne
    exact ⟨rest, .inr ⟨v, hi, hd⟩⟩
  | operand => simp at hne
  | idle | read | illegal | buffer | ignored => exact absurd rfl hne

end Sys2Proof.Machine

/-! PROOFS for 42_forward_ntt.md: the forward butterfly (R181), the forward pass as the rule's index loops (R183), and what
it computes (R186, R188). -/

namespace Sys2Proof.Machine

/-! The forward butterfly (R180, R181). -/

/-- R180, step 1: the conditional subtraction is exact. -/
theorem reduceOnce_toNat (x q2 : Word) :
    (reduceOnce x q2).toNat = if q2.toNat ≤ x.toNat then x.toNat - q2.toNat else x.toNat := by
  unfold reduceOnce
  split
  · next h => exact BitVec.toNat_sub_of_le (BitVec.le_def.2 h)
  · rfl

theorem two_mul_toNat {q : Word} (hq : q.toNat < 2 ^ 63) : (2 * q).toNat = 2 * q.toNat := by
  have h2 : (2 : Word).toNat = 2 := rfl
  rw [BitVec.toNat_mul, h2]
  omega

/-- Reducing a word below `4q` by `2q` leaves its residue below `2q`. -/
theorem reduceOnce_two_mul {x q : Word} (hq : q.toNat < 2 ^ 63) (hx : x.toNat < 4 * q.toNat) :
    (reduceOnce x (2 * q)).toNat < 2 * q.toNat ∧ (reduceOnce x (2 * q)).toNat ≡ x.toNat [MOD q.toNat] := by
  rw [reduceOnce_toNat, two_mul_toNat hq]
  split
  · next h =>
    rw [mul_comm] at h
    exact ⟨by omega, by rw [mul_comm, Nat.ModEq, Nat.sub_mul_mod h]⟩
  · next h => exact ⟨by omega, rfl⟩

/-- R181: inside its range no sum of the forward butterfly wraps. -/
theorem bflyFwd_toNat {x y w w' q : Word} (hq : q.toNat < 2 ^ 62)
    (hx : (reduceOnce x (2 * q)).toNat < 2 * q.toNat) (ht : (shoupMul w w' y q).toNat < 2 * q.toNat) :
    (bflyFwd x y w w' q).1.toNat = (reduceOnce x (2 * q)).toNat + (shoupMul w w' y q).toNat ∧
      (bflyFwd x y w w' q).2.toNat = (reduceOnce x (2 * q)).toNat + 2 * q.toNat - (shoupMul w w' y q).toNat := by
  have h2 := two_mul_toNat (q := q) (by omega)
  simp only [bflyFwd]
  constructor
  · rw [BitVec.toNat_add]
    omega
  · rw [BitVec.toNat_sub, BitVec.toNat_add, h2]
    omega

/-- Settles O26: the left input is reduced below `2q` and the Shoup product lies below `2q`, so neither sum wraps. -/
theorem forwardButterflyRange : Obligations.ForwardButterflyRange := by
  intro x y w q hq1 hq hw hx
  obtain ⟨hxr, hxmod⟩ := reduceOnce_two_mul (by omega) hx
  obtain ⟨ht, heq⟩ := shoupMul_shoupRatio (y := y) (by omega) (by omega) hw
  have htmod : ((shoupMul w (shoupRatio w q) y q).toNat : ℤ) ≡ w.toNat * y.toNat [ZMOD q.toNat] := by
    have hnat : (shoupMul w (shoupRatio w q) y q).toNat ≡ w.toNat * y.toNat [MOD q.toNat] := by
      rw [heq]
      exact (Nat.mul_add_mod' _ _ _).symm
    exact_mod_cast Int.natCast_modEq_iff.2 hnat
  have hxmod' := Int.natCast_modEq_iff.2 hxmod
  obtain ⟨h1, h2⟩ := bflyFwd_toNat hq hxr ht
  rw [h1, h2]
  refine ⟨by omega, by omega, by omega, ?_, ?_⟩
  · rw [Nat.cast_add]
    exact hxmod'.add htmod
  · have h2q : (2 * q.toNat : ℤ) ≡ 0 [ZMOD q.toNat] := Int.modEq_zero_iff_dvd.2 (Dvd.intro_left _ rfl)
    rw [Nat.cast_sub (by omega), Nat.cast_add, Nat.cast_mul]
    simpa using (hxmod'.add h2q).sub htmod

/-! Loops over disjoint blocks (R16, R187). -/

theorem forLoop_succ (count : Nat) (body : Nat → (Nat → Word) → Nat → Word) (a : Nat → Word) :
    forLoop (count + 1) body a = body count (forLoop count body a) := by
  simp [forLoop, List.range_succ]

/-- The step reads and writes the words of a block only. -/
def actsOn (block : Nat → Prop) (f : (Nat → Word) → Nat → Word) : Prop :=
  (∀ a p, ¬ block p → f a p = a p) ∧ ∀ a b, (∀ p, block p → a p = b p) → ∀ p, block p → f a p = f b p

/-- Steps on disjoint blocks do not meet: a word of block `i` is what step `i` alone makes of it, any other word stays. -/
theorem forLoop_of_blocks {count : Nat} {body : Nat → (Nat → Word) → Nat → Word} {block : Nat → Nat → Prop}
    (hdisjoint : ∀ i < count, ∀ i' < count, ∀ p, block i p → block i' p → i = i')
    (hacts : ∀ i < count, actsOn (block i) (body i)) (a : Nat → Word) :
    (∀ i < count, ∀ p, block i p → forLoop count body a p = body i a p) ∧
      ∀ p, (∀ i < count, ¬ block i p) → forLoop count body a p = a p := by
  induction count with
  | zero => exact ⟨fun i hi => absurd hi (Nat.not_lt_zero i), fun _ _ => rfl⟩
  | succ count ih =>
    obtain ⟨hin, hout⟩ := ih (fun i hi i' hi' => hdisjoint i (by omega) i' (by omega)) fun i hi => hacts i (by omega)
    obtain ⟨hframe, hlocal⟩ := hacts count (by omega)
    rw [forLoop_succ]
    refine ⟨fun i hi p hp => ?_, fun p hp => ?_⟩
    · rcases Nat.lt_succ_iff_lt_or_eq.1 hi with hlt | rfl
      · have hnot : ¬ block count p := fun h => hlt.ne (hdisjoint i hi count (by omega) p hp h)
        rw [hframe _ p hnot, hin i hlt p hp]
      · refine hlocal _ _ (fun p' hp' => hout p' fun i' hi' h => ?_) p hp
        exact hi'.ne (hdisjoint i' (by omega) i hi p' h hp')
    · rw [hframe _ p (hp count (by omega)), hout p fun i hi => hp i (by omega)]

section
variable (bfly : Word → Word → Word × Word)

theorem butterflyAt_left (j j' : Nat) (a : Nat → Word) : butterflyAt bfly j j' a j = (bfly (a j) (a j')).1 := by
  simp [butterflyAt]

theorem butterflyAt_right {j j' : Nat} (h : j ≠ j') (a : Nat → Word) :
    butterflyAt bfly j j' a j' = (bfly (a j) (a j')).2 := by
  simp [butterflyAt, h.symm]

theorem butterflyAt_actsOn (j j' : Nat) : actsOn (fun p => p = j ∨ p = j') (butterflyAt bfly j j') := by
  refine ⟨fun a p hp => ?_, fun a b hab p hp => ?_⟩
  · obtain ⟨h, h'⟩ := not_or.1 hp
    simp [butterflyAt, h, h']
  · rw [butterflyAt, butterflyAt, hab j (.inl rfl), hab j' (.inr rfl), hab p hp]

/-- The butterflies of one block of `2t` words from `base` up (R183). -/
def blockLoop (t base : Nat) : (Nat → Word) → Nat → Word :=
  forLoop t fun d => butterflyAt bfly (base + d) (base + d + t)

/-- The pairs of one block are disjoint. -/
theorem blockLoop_of_pairs (t base : Nat) (a : Nat → Word) :
    (∀ d < t, ∀ p, p = base + d ∨ p = base + d + t →
      blockLoop bfly t base a p = butterflyAt bfly (base + d) (base + d + t) a p) ∧
    ∀ p, (∀ d < t, ¬ (p = base + d ∨ p = base + d + t)) → blockLoop bfly t base a p = a p :=
  forLoop_of_blocks (block := fun d p => p = base + d ∨ p = base + d + t) (fun d hd d' hd' p h h' => by omega)
    (fun d _ => butterflyAt_actsOn bfly _ _) a

/-- Each pair of a block holds its butterfly of the two words before. -/
theorem blockLoop_apply {t d : Nat} (base : Nat) (hd : d < t) (a : Nat → Word) :
    blockLoop bfly t base a (base + d) = (bfly (a (base + d)) (a (base + d + t))).1 ∧
      blockLoop bfly t base a (base + d + t) = (bfly (a (base + d)) (a (base + d + t))).2 := by
  obtain ⟨hpair, -⟩ := blockLoop_of_pairs bfly t base a
  rw [hpair d hd _ (.inl rfl), hpair d hd _ (.inr rfl)]
  exact ⟨butterflyAt_left .., butterflyAt_right bfly (by omega) a⟩

theorem blockLoop_actsOn (t base : Nat) :
    actsOn (fun p => base ≤ p ∧ p < base + 2 * t) (blockLoop bfly t base) := by
  refine ⟨fun a p hp => ?_, fun a b hab p hp => ?_⟩
  · exact (blockLoop_of_pairs bfly t base a).2 p fun d hd h => hp (by omega)
  · obtain ⟨d, hd, rfl | rfl⟩ : ∃ d < t, p = base + d ∨ p = base + d + t := by
      by_cases h : p < base + t
      · exact ⟨p - base, by omega, .inl (by omega)⟩
      · exact ⟨p - base - t, by omega, .inr (by omega)⟩
    all_goals
      have hleft := hab (base + d) ⟨by omega, by omega⟩
      have hright := hab (base + d + t) ⟨by omega, by omega⟩
    · rw [(blockLoop_apply bfly base hd a).1, (blockLoop_apply bfly base hd b).1, hleft, hright]
    · rw [(blockLoop_apply bfly base hd a).2, (blockLoop_apply bfly base hd b).2, hleft, hright]

end

/-- One stage of a pass: block `i` of `m` has `2t` words and its own butterfly (R183, R206). -/
def stageLoop (bfly : Nat → Word → Word → Word × Word) (m t : Nat) : (Nat → Word) → Nat → Word :=
  forLoop m fun i => blockLoop (bfly i) t (2 * t * i)

/-- Each pair of each block of a stage holds its butterfly of the two words before. -/
theorem stageLoop_apply (bfly : Nat → Word → Word → Word × Word) {m t i d : Nat} (hi : i < m) (hd : d < t)
    (a : Nat → Word) :
    stageLoop bfly m t a (2 * t * i + d) = (bfly i (a (2 * t * i + d)) (a (2 * t * i + d + t))).1 ∧
      stageLoop bfly m t a (2 * t * i + d + t) = (bfly i (a (2 * t * i + d)) (a (2 * t * i + d + t))).2 := by
  have hquot {i p : Nat} (h : 2 * t * i ≤ p ∧ p < 2 * t * i + 2 * t) : p / (2 * t) = i :=
    Nat.div_eq_of_lt_le (by rw [mul_comm]; exact h.1) (by rw [mul_comm, Nat.mul_succ]; exact h.2)
  obtain ⟨hblock, -⟩ := forLoop_of_blocks (count := m)
    (block := fun i p => 2 * t * i ≤ p ∧ p < 2 * t * i + 2 * t)
    (fun i _ i' _ p h h' => (hquot h).symm.trans (hquot h')) (fun i _ => blockLoop_actsOn (bfly i) t (2 * t * i)) a
  rw [stageLoop, hblock i hi _ ⟨by omega, by omega⟩, hblock i hi _ ⟨by omega, by omega⟩]
  exact blockLoop_apply (bfly i) _ hd a

/-- R187: the pairs of a stage cover its words. -/
theorem exists_block_pair {m t p : Nat} (h : p < 2 * t * m) :
    ∃ i < m, ∃ d < t, p = 2 * t * i + d ∨ p = 2 * t * i + d + t := by
  have hpos : 0 < 2 * t := Nat.pos_of_mul_pos_right (Nat.zero_lt_of_lt h)
  have hmod := Nat.mod_lt p hpos
  have hp := Nat.div_add_mod p (2 * t)
  refine ⟨p / (2 * t), Nat.div_lt_of_lt_mul h, ?_⟩
  by_cases hd : p % (2 * t) < t
  · exact ⟨_, hd, .inl hp.symm⟩
  · exact ⟨p % (2 * t) - t, by omega, .inr (by omega)⟩

/-! The passes on lists and on index functions (log 12). -/

/-- A stage of the list form is the loop of the index form (R187). -/
theorem stage_map_range {bfly : Word → Word → Word → Word → Word × Word} {m t : Nat} {roots : List (Word × Word)}
    (hl : roots.length = m) {w w' : Nat → Word} (hr : ∀ i < m, roots[i]? = some (w i, w' i)) (f : Nat → Word) :
    stage bfly t roots ((List.range (2 * t * m)).map f) =
      (List.range (2 * t * m)).map (stageLoop (fun i x y => bfly x y (w i) (w' i)) m t f) := by
  subst hl
  have hget (g : Nat → Word) {p : Nat} (hp : p < 2 * t * roots.length) :
      ((List.range (2 * t * roots.length)).map g)[p]? = some (g p) := by simp [hp]
  have hlen : ((List.range (2 * t * roots.length)).map f).length = 2 * t * roots.length := by simp
  have hstage := stage_length bfly t roots _ hlen
  refine List.ext_getElem? fun p => ?_
  by_cases hp : p < 2 * t * roots.length
  · rw [hget _ hp]
    obtain ⟨i, hi, d, hd, hpair⟩ := exists_block_pair hp
    have hend : 2 * t * i + 2 * t ≤ 2 * t * roots.length := by
      rw [← Nat.mul_succ]; exact Nat.mul_le_mul_left _ hi
    obtain ⟨hleft, hright⟩ := stage_getElem? bfly t roots _ hlen hi hd (hr i hi) (hget f (by omega)) (hget f (by omega))
    obtain ⟨hleft', hright'⟩ := stageLoop_apply (fun i x y => bfly x y (w i) (w' i)) hi hd f
    rcases hpair with rfl | rfl
    · rw [hleft, hleft']
    · rw [hright, hright']
  · rw [List.getElem?_eq_none (by omega), List.getElem?_eq_none (by simpa using hp)]

theorem getElem?_eq_some_getD {l : List Word} {i : Nat} (h : i < l.length) : l[i]? = some (l.getD i 0) := by
  rw [List.getElem?_eq_getElem h, List.getD_eq_getElem _ _ h]

/-- What a pass leaves in `BUF[0..n)` (R184, R208): the transform of the words it reads. -/
theorem runPass_words {bound : Table → Nat} {transform : Table → List Word → List Word} {s : State} {t : Table}
    (ht : s.tbl = some t) (hc : tableCoherent t = true)
    (hlen : ∀ a : List Word, a.length = t.coeffCount.toNat → (transform t a).length = t.coeffCount.toNat) :
    ∃ u, runPass bound transform s = .next u ∧ ∀ j < t.coeffCount.toNat,
      Memory.bufWord u.mem j = (transform t ((List.range t.coeffCount.toNat).map (passInput s)))[j]? := by
  refine ⟨_, runPass_of_coherent ht hc, fun j hj => ?_⟩
  have hwords : (readBufs t.coeffCount.toNat 0 s).1 = (List.range t.coeffCount.toNat).map (passInput s) := by
    rw [readBufs_eq]
  rw [State.complete_mem, writeBufs_bufWord, hwords, if_pos ⟨by omega, by rw [hlen _ (by simp)]; omega⟩, Nat.sub_zero]

/-- The roots of stage `s`, the entries from `2^s` up to `2^(s + 1)`, lie in an array of `2^k` entries (R183). -/
theorem two_pow_add_two_pow_le {s k : Nat} (h : s < k) : 2 ^ s + 2 ^ s ≤ 2 ^ k := by
  rw [← two_mul, ← pow_succ']
  exact Nat.pow_le_pow_right (by norm_num) h

/-- The butterfly of block `i` at stage `s` of the forward pass (R183). -/
def forwardButterfly (tb : Table) (s i : Nat) (x y : Word) : Word × Word :=
  bflyFwd x y (tb.rootPowers.getD (2 ^ s + i) 0) (tb.scaledRootPowers.getD (2 ^ s + i) 0) tb.modulus

/-- The first `s` stages of the forward pass as R183 writes them. -/
def forwardLoopsUpTo (tb : Table) (s : Nat) : (Nat → Word) → Nat → Word :=
  forLoop s fun s => stageLoop (forwardButterfly tb s) (2 ^ s) (tb.coeffCount.toNat / (2 * 2 ^ s))

theorem forwardLoops_eq (tb : Table) (a : Nat → Word) :
    forwardLoops tb a = forwardLoopsUpTo tb tb.coeffCountPower.toNat a := rfl

@[simp] theorem forwardLoopsUpTo_zero (tb : Table) (a : Nat → Word) : forwardLoopsUpTo tb 0 a = a := rfl

/-- R183: at stage `s`, with `r` stages after it, `t` is `2^r`. -/
theorem forwardLoopsUpTo_succ {tb : Table} {s r : Nat} (hn : tb.coeffCount.toNat = 2 ^ (s + (r + 1))) (a : Nat → Word) :
    forwardLoopsUpTo tb (s + 1) a = stageLoop (forwardButterfly tb s) (2 ^ s) (2 ^ r) (forwardLoopsUpTo tb s a) := by
  have ht : tb.coeffCount.toNat / (2 * 2 ^ s) = 2 ^ r := by
    rw [hn]
    exact Nat.div_eq_of_eq_mul_right (by positivity) (by ring)
  rw [forwardLoopsUpTo, forLoop_succ, ht]
  rfl

/-- The stages still to run in the list form finish the loops of the index form (log 12). -/
theorem forwardStages_map_range {tb : Table} (hc : tableCoherent tb = true) {s r : Nat}
    (hk : s + r = tb.coeffCountPower.toNat) (f : Nat → Word) :
    forwardStages tb r (2 ^ s) (2 ^ r / 2) ((List.range (2 ^ (s + r))).map (forwardLoopsUpTo tb s f)) =
      (List.range (2 ^ (s + r))).map (forwardLoopsUpTo tb (s + r) f) := by
  obtain ⟨hn, hroots, hscaled, -⟩ := tableCoherent_spec hc
  rw [← hk] at hn
  induction r generalizing s with
  | zero => rfl
  | succ r ih =>
    have hsize : 2 ^ (s + (r + 1)) = 2 * 2 ^ r * 2 ^ s := by ring
    have hfit : 2 ^ s + 2 ^ s ≤ 2 ^ (s + (r + 1)) := two_pow_add_two_pow_le (by omega)
    have hpair (i : Nat) (hi : i < 2 ^ s) : (rootsFrom tb.rootPowers tb.scaledRootPowers (2 ^ s) (2 ^ s))[i]? =
        some (tb.rootPowers.getD (2 ^ s + i) 0, tb.scaledRootPowers.getD (2 ^ s + i) 0) :=
      rootsFrom_getElem? hi (getElem?_eq_some_getD (by omega)) (getElem?_eq_some_getD (by omega))
    have hstage := stage_map_range (bfly := fun x y w w' => bflyFwd x y w w' tb.modulus) (t := 2 ^ r)
      (rootsFrom_length (by omega) (by omega)) hpair (forwardLoopsUpTo tb s f)
    have hhalf : 2 ^ (r + 1) / 2 = 2 ^ r := by rw [pow_succ]; exact Nat.mul_div_cancel _ (by norm_num)
    rw [forwardStages, hhalf, ← pow_succ', hsize, hstage, ← hsize]
    have hnext := forwardLoopsUpTo_succ hn f
    have hassoc : s + (r + 1) = s + 1 + r := by omega
    rw [hassoc] at hk hn ⊢
    exact hnext ▸ ih hk hn

theorem forwardPass_map_range {tb : Table} (hc : tableCoherent tb = true) (f : Nat → Word) :
    forwardPass tb ((List.range tb.coeffCount.toNat).map f) = (List.range tb.coeffCount.toNat).map (forwardLoops tb f) := by
  have h := forwardStages_map_range hc (Nat.zero_add _) f
  rw [Nat.zero_add, ← (tableCoherent_spec hc).1] at h
  exact h

/-- Settles O37: the pass writes back its transform of the words it reads, and the transform is the loops. -/
theorem forwardPassFollowsTheSchedule : Obligations.ForwardPassFollowsTheSchedule := by
  intro s t ht hc
  obtain ⟨u, hu, hwords⟩ := runPass_words (bound := fun t => t.modulus.toNat) ht hc fun a => forwardPass_length hc
  refine ⟨u, hu, fun j hj => ?_⟩
  rw [hwords j hj, forwardPass_map_range hc]
  simp [hj]

/-! What the forward pass computes (R186). -/

/-- R105: reversing the `s + 1 + r` bits of `2^s + i`. -/
theorem bitrev_two_pow_add {s i : Nat} (r : Nat) (hi : i < 2 ^ s) :
    bitrev (2 ^ s + i) (s + 1 + r) = (2 * bitrev i s + 1) * 2 ^ r := by
  have hhigh : bitrev (i + 2 ^ s * 1) (s + 1) = bitrev i s * 2 ^ 1 + bitrev 1 1 := bitrev_append 1 s 1 hi
  have hall : bitrev (2 ^ s + i + 2 ^ (s + 1) * 0) (s + 1 + r) = bitrev (2 ^ s + i) (s + 1) * 2 ^ r + bitrev 0 r :=
    bitrev_append 0 (s + 1) r (by rw [pow_succ]; omega)
  rw [mul_zero, add_zero, bitrev_zero, add_zero] at hall
  rw [hall, add_comm (2 ^ s), ← mul_one (2 ^ s), hhigh, mul_comm (bitrev i s)]
  rfl

section
variable {q : Nat} (ψ : ZMod q)

/-- The `ζ` of block `i` after `s` stages with `r` still to run: the block holds residues modulo `x^(2^r) - ζ` (R186). -/
def blockRoot (s r i : Nat) : ZMod q := ψ ^ ((2 * bitrev i s + 1) * 2 ^ r)

/-- The root the forward pass uses on block `i` at stage `s` is a square root of the block's `ζ`. -/
theorem blockRoot_eq_sq {s r i : Nat} (hi : i < 2 ^ s) :
    blockRoot ψ s (r + 1) i = (ψ ^ bitrev (2 ^ s + i) (s + 1 + r)) ^ 2 := by
  rw [blockRoot, bitrev_two_pow_add r hi, ← pow_mul, pow_succ, mul_assoc]

/-- The left half of block `i` is reduced by that root. -/
theorem blockRoot_two_mul {s r i : Nat} (hi : i < 2 ^ s) :
    blockRoot ψ (s + 1) r (2 * i) = ψ ^ bitrev (2 ^ s + i) (s + 1 + r) := by
  have hbits : bitrev (2 * i) (s + 1) = bitrev i s := by simp [bitrev]
  rw [blockRoot, bitrev_two_pow_add r hi, hbits]

/-- The right half of block `i` is reduced by its negative. -/
theorem blockRoot_two_mul_add_one {s r i : Nat} (hi : i < 2 ^ s) (hψ : ψ ^ 2 ^ (s + 1 + r) = -1) :
    blockRoot ψ (s + 1) r (2 * i + 1) = -ψ ^ bitrev (2 ^ s + i) (s + 1 + r) := by
  have hbits : bitrev (2 * i + 1) (s + 1) = 2 ^ s + bitrev i s := by
    rw [bitrev, show (2 * i + 1) % 2 = 1 by omega, show (2 * i + 1) / 2 = i by omega, one_mul]
  have hexp : (2 * (2 ^ s + bitrev i s) + 1) * 2 ^ r = 2 ^ (s + 1 + r) + (2 * bitrev i s + 1) * 2 ^ r := by ring
  rw [blockRoot, bitrev_two_pow_add r hi, hbits, hexp, pow_add, hψ, neg_one_mul]

/-- A polynomial at `w` from its even and its odd coefficients at `w²`. -/
theorem sum_range_two_mul_pow (a : Nat → ZMod q) (w : ZMod q) (m : Nat) :
    ∑ c ∈ Finset.range (2 * m), a c * w ^ c =
      ∑ c ∈ Finset.range m, a (2 * c) * (w ^ 2) ^ c + w * ∑ c ∈ Finset.range m, a (2 * c + 1) * (w ^ 2) ^ c := by
  induction m with
  | zero => simp
  | succ m ih =>
    rw [Nat.mul_succ, Finset.sum_range_succ, Finset.sum_range_succ, ih, Finset.sum_range_succ, Finset.sum_range_succ]
    ring

/-- Coefficient `d` of the residue of `Σ a[j] x^j`, of degree below `2^(s + r)`, modulo `x^(2^r) - ζ`. -/
def residue (a : Nat → ZMod q) (s r d : Nat) (ζ : ZMod q) : ZMod q :=
  ∑ c ∈ Finset.range (2 ^ s), a (2 ^ r * c + d) * ζ ^ c

/-- A residue modulo `x^(2t) - w²` gives the one modulo `x^t - w` (R186). -/
theorem residue_succ (a : Nat → ZMod q) (s r d : Nat) (w : ZMod q) :
    residue a (s + 1) r d w = residue a s (r + 1) d (w ^ 2) + w * residue a s (r + 1) (d + 2 ^ r) (w ^ 2) := by
  have heven (c : Nat) : 2 ^ r * (2 * c) + d = 2 ^ (r + 1) * c + d := by ring
  have hodd (c : Nat) : 2 ^ r * (2 * c + 1) + d = 2 ^ (r + 1) * c + (d + 2 ^ r) := by ring
  rw [residue, pow_succ', sum_range_two_mul_pow (fun c => a (2 ^ r * c + d))]
  simp only [heven, hodd]
  rfl

/-- After `s` stages with `r` still to run: every word is below `4q`, and block `i` holds the residue of the input modulo
`x^(2^r) - ζ` (R186). -/
def holdsResidues (a : Nat → ZMod q) (s r : Nat) (f : Nat → Word) : Prop :=
  ∀ i < 2 ^ s, ∀ d < 2 ^ r, (f (2 ^ r * i + d)).toNat < 4 * q ∧
    ((f (2 ^ r * i + d)).toNat : ZMod q) = residue a s r d (blockRoot ψ s r i)

end

/-- R181 in the ring of residues: from `X` below `4q` and any `Y` the butterfly gives words below `4q` that are `X + w·Y`
and `X - w·Y`. -/
def evaluatesAt {q : Nat} (w : ZMod q) (bfly : Word → Word → Word × Word) : Prop :=
  ∀ x y : Word, x.toNat < 4 * q →
    ((bfly x y).1.toNat < 4 * q ∧ ((bfly x y).1.toNat : ZMod q) = x.toNat + w * y.toNat) ∧
      (bfly x y).2.toNat < 4 * q ∧ ((bfly x y).2.toNat : ZMod q) = x.toNat - w * y.toNat

theorem bflyFwd_evaluatesAt {w q : Word} (hq1 : 1 < q.toNat) (hq : q.toNat < 2 ^ 62) (hw : w.toNat < q.toNat) :
    evaluatesAt (w.toNat : ZMod q.toNat) fun x y => bflyFwd x y w (shoupRatio w q) q := by
  intro x y hx
  obtain ⟨hlt1, -, hlt2, h1, h2⟩ := forwardButterflyRange x y w q hq1 hq hw hx
  have e1 := (ZMod.intCast_eq_intCast_iff _ _ _).2 h1
  have e2 := (ZMod.intCast_eq_intCast_iff _ _ _).2 h2
  push_cast at e1 e2
  exact ⟨⟨hlt1, e1⟩, hlt2, e2⟩

/-- R186: a stage splits the block of each `ζ` into those of the two square roots of `ζ`. -/
theorem holdsResidues_stageLoop {q : Nat} {ψ : ZMod q} {a : Nat → ZMod q} {s r : Nat} {f : Nat → Word}
    {bfly : Nat → Word → Word → Word × Word} (hψ : ψ ^ 2 ^ (s + 1 + r) = -1)
    (hbfly : ∀ i < 2 ^ s, evaluatesAt (ψ ^ bitrev (2 ^ s + i) (s + 1 + r)) (bfly i))
    (hf : holdsResidues ψ a s (r + 1) f) :
    holdsResidues ψ a (s + 1) r (stageLoop bfly (2 ^ s) (2 ^ r) f) := by
  have hp : 2 ^ (r + 1) = 2 * 2 ^ r := pow_succ' 2 r
  intro i' hi' d hd
  obtain ⟨i, hhalf⟩ := Nat.even_or_odd' i'
  have hi : i < 2 ^ s := by rw [pow_succ] at hi'; omega
  obtain ⟨hx, hxval⟩ := hf i hi d (by omega)
  obtain ⟨-, hyval⟩ := hf i hi (d + 2 ^ r) (by omega)
  rw [hp] at hx hxval hyval
  rw [← add_assoc] at hyval
  obtain ⟨hleft, hright⟩ := stageLoop_apply bfly hi hd f
  obtain ⟨hplus, hminus⟩ := hbfly i hi _ (f (2 * 2 ^ r * i + d + 2 ^ r)) hx
  rw [hxval, hyval, blockRoot_eq_sq ψ hi] at hplus hminus
  rcases hhalf with rfl | rfl
  · have hindex : 2 ^ r * (2 * i) + d = 2 * 2 ^ r * i + d := by ring
    rw [hindex, hleft, blockRoot_two_mul ψ hi, residue_succ]
    exact hplus
  · have hindex : 2 ^ r * (2 * i + 1) + d = 2 * 2 ^ r * i + d + 2 ^ r := by ring
    rw [hindex, hright, blockRoot_two_mul_add_one ψ hi hψ, residue_succ, neg_sq, neg_mul, ← sub_eq_add_neg]
    exact hminus

/-- Before the first stage the one block is the input, modulo `x^n + 1`. -/
theorem holdsResidues_zero {q k : Nat} {ψ : ZMod q} {f : Nat → Word} (hf : ∀ j < 2 ^ k, (f j).toNat < 4 * q) :
    holdsResidues ψ (fun j => ((f j).toNat : ZMod q)) 0 k f := by
  intro i hi d hd
  obtain rfl : i = 0 := by simpa using hi
  rw [mul_zero, zero_add]
  exact ⟨hf d hd, by simp [residue]⟩

/-- After the last stage each block is one word, a value of the polynomial (R186). -/
theorem residue_blockRoot {q : Nat} (ψ : ZMod q) (a : Nat → ZMod q) (k i : Nat) :
    residue a k 0 0 (blockRoot ψ k 0 i) = ∑ j ∈ Finset.range (2 ^ k), a j * ψ ^ ((2 * bitrev i k + 1) * j) := by
  simp [residue, blockRoot, pow_mul]

section
variable {k q root rootInv degreeInv : Nat}

/-- R146, R147: the root at offset `r` of a built table, and its pre-multiplier. -/
theorem tableOf_forwardRoot (hk : k ≤ 17) (hq1 : 1 < q) (hq : q < 2 ^ 62) {r : Nat} (hr : r < 2 ^ k) :
    ((tableOf k q root rootInv degreeInv).rootPowers.getD r 0).toNat = root ^ bitrev r k % q ∧
      (tableOf k q root rootInv degreeInv).scaledRootPowers.getD r 0 =
        shoupRatio ((tableOf k q root rootInv degreeInv).rootPowers.getD r 0)
          (tableOf k q root rootInv degreeInv).modulus := by
  obtain ⟨w, hw, hval⟩ := hasEntry_bitrevPowers (root := root) hk hq1 hq hr
  have hscaled : (tableOf k q root rootInv degreeInv).scaledRootPowers[r]? = some (shoupRatio w (BitVec.ofNat 64 q)) := by
    rw [tableOf, scaledArray_getElem?, hw, Option.map_some]
  have hroot : (tableOf k q root rootInv degreeInv).rootPowers[r]? = some w := hw
  rw [List.getD_eq_getElem?_getD, List.getD_eq_getElem?_getD, hscaled, hroot]
  exact ⟨hval, rfl⟩

/-- Block `i` of stage `s` uses the power of the root that the bit reversal of `2^s + i` names (R183, R146). -/
theorem forwardButterfly_evaluatesAt (hk : k ≤ 17) (hq1 : 1 < q) (hq : q < 2 ^ 62) {s i : Nat} (hi : 2 ^ s + i < 2 ^ k) :
    evaluatesAt ((root : ZMod q) ^ bitrev (2 ^ s + i) k)
      (forwardButterfly (tableOf k q root rootInv degreeInv) s i) := by
  obtain ⟨hval, hscaled⟩ := tableOf_forwardRoot (root := root) (rootInv := rootInv) (degreeInv := degreeInv) hk hq1 hq hi
  have hmod : (tableOf k q root rootInv degreeInv).modulus.toNat = q := tableOf_modulus hq
  have hlt : root ^ bitrev (2 ^ s + i) k % q < q := Nat.mod_lt _ (by omega)
  have h := bflyFwd_evaluatesAt (w := (tableOf k q root rootInv degreeInv).rootPowers.getD (2 ^ s + i) 0)
    (q := (tableOf k q root rootInv degreeInv).modulus) (by omega) (by omega) (by omega)
  rw [← hscaled, hmod, hval, ZMod.natCast_mod, Nat.cast_pow] at h
  exact h

/-- R186 at every stage of the pass on a built table. -/
theorem forwardLoopsUpTo_holdsResidues (hk : k ≤ 17) (hq1 : 1 < q) (hq : q < 2 ^ 62)
    (hψ : (root : ZMod q) ^ 2 ^ k = -1) {f : Nat → Word} (hf : ∀ j < 2 ^ k, (f j).toNat < 4 * q) (s r : Nat)
    (hsr : s + r = k) :
    holdsResidues (root : ZMod q) (fun j => ((f j).toNat : ZMod q)) s r
      (forwardLoopsUpTo (tableOf k q root rootInv degreeInv) s f) := by
  induction s generalizing r with
  | zero =>
    obtain rfl : r = k := by omega
    exact holdsResidues_zero hf
  | succ s ih =>
    have hn : (tableOf k q root rootInv degreeInv).coeffCount.toNat = 2 ^ (s + (r + 1)) := by
      rw [tableOf_coeffCount hk]; congr 1; omega
    have hfit : 2 ^ s + 2 ^ s ≤ 2 ^ k := two_pow_add_two_pow_le (by omega)
    rw [forwardLoopsUpTo_succ hn]
    refine holdsResidues_stageLoop (by rwa [hsr]) (fun i hi => ?_) (ih (r + 1) (by omega))
    rw [hsr]
    exact forwardButterfly_evaluatesAt hk hq1 hq (by omega)

end

/-- Settles O40: the loops leave the residues modulo `x - ζ`, and the last stage's `ζ` are the odd powers of the root. -/
theorem forwardPassEvaluatesThePolynomial : Obligations.ForwardPassEvaluatesThePolynomial := by
  rintro s t a n q ψ hI hs rfl rfl hleast hbuf hbound
  obtain ⟨k, q, root, rootInv, degreeInv, rfl, ⟨-, hk⟩, ⟨hq1, hq, hd, hprime⟩, hroot, -⟩ := hI.exists_tableOf hs
  obtain ⟨u, hu, hwords⟩ := forwardPassFollowsTheSchedule s _ hs (tableOf_coherent hk)
  refine ⟨u, hu, fun j => (forwardLoops _ (passInput s) j).toNat, fun j hj => ⟨_, hwords j hj, rfl⟩, fun i hi => ?_⟩
  rw [tableOf_coeffCount hk, tableOf_modulus hq] at hleast hbound
  rw [tableOf_coeffCount hk] at hbuf hi
  rw [tableOf_coeffCount hk, tableOf_modulus hq, tableOf_coeffCountPower hk]
  obtain rfl := isLeastRoot_unique hleast hroot
  have hq2 : 2 < q := by
    have hle := Nat.le_of_dvd (by omega) hd
    have hpos := Nat.one_le_two_pow (n := k)
    omega
  have hψ := (natCast_pow_eq_neg_one hq1).1 ((isRootOfUnity_iff hprime hq2 ψ).1 hroot.1.2.2)
  have hinput (j : Nat) (hj : j < 2 ^ k) : (passInput s j).toNat = a j := by
    obtain ⟨w, hw, hval⟩ := hbuf j hj
    rw [passInput_of_written hw, hval]
  obtain ⟨hlt, hval⟩ := forwardLoopsUpTo_holdsResidues (rootInv := rootInv) (degreeInv := degreeInv) hk hq1 hq hψ
    (fun j hj => hinput j hj ▸ hbound j hj) k 0 rfl i hi 0 Nat.one_pos
  rw [residue_blockRoot, pow_zero, one_mul, add_zero] at hval
  rw [pow_zero, one_mul, add_zero] at hlt
  rw [forwardLoops_eq, tableOf_coeffCountPower hk]
  refine ⟨hlt, (ZMod.natCast_eq_natCast_iff' _ _ _).1 ?_⟩
  rw [hval]
  push_cast
  exact Finset.sum_congr rfl fun j hj => by rw [hinput j (Finset.mem_range.1 hj)]

/-- A sum weighted by fixed factors is linear modulo `q` in its reduced terms. -/
theorem sum_add_mod_mul (q n : Nat) (a c weight : Nat → Nat) :
    (∑ j ∈ Finset.range n, (a j + c j) % q * weight j) % q =
      (∑ j ∈ Finset.range n, a j * weight j + ∑ j ∈ Finset.range n, c j * weight j) % q := by
  rw [← Finset.sum_add_distrib, ← ZMod.natCast_eq_natCast_iff']
  push_cast
  simp [add_mul]

/-- Settles O41: the values of R186 are linear in the words. -/
theorem forwardPassIsLinear : Obligations.ForwardPassIsLinear := by
  rintro r s w t a c n q hr hs hw htr hts htw rfl rfl ha hc habound hcbound hsum
  obtain ⟨⟨ψ, hψ, -⟩, -⟩ := builtTableProperties r t _ _ hr htr rfl rfl
  have below {x : Nat} (hx : x < t.modulus.toNat) : x < 4 * t.modulus.toNat := by omega
  obtain ⟨r', hr', A, hA, hAval⟩ := forwardPassEvaluatesThePolynomial r t a _ _ ψ hr htr rfl rfl hψ ha
    fun j hj => below (habound j hj)
  obtain ⟨s', hs', C, hC, hCval⟩ := forwardPassEvaluatesThePolynomial s t c _ _ ψ hs hts rfl rfl hψ hc
    fun j hj => below (hcbound j hj)
  obtain ⟨w', hw', S, hS, hSval⟩ := forwardPassEvaluatesThePolynomial w t _ _ _ ψ hw htw rfl rfl hψ hsum
    fun j hj => below (Nat.mod_lt _ (Nat.zero_lt_of_lt (habound j hj)))
  refine ⟨r', s', w', A, C, S, hr', hA, hs', hC, hw', hS, fun k hk => ?_⟩
  rw [(hSval k hk).2, sum_add_mod_mul, Nat.add_mod, ← (hAval k hk).2, ← (hCval k hk).2, ← Nat.add_mod]

end Sys2Proof.Machine

/-! PROOFS for 43_inverse_ntt.md: the inverse butterflies (R200 to R205), the inverse pass as the rules' index loops (R206,
R207), what it computes (R210), and the two laws of both passes together (R211, R212). -/

namespace Sys2Proof.Machine

/-! The commands of the butterflies (R204, R205). -/

/-- R200, R202: the difference of the inputs, offset by `2q`, evaluated exactly and reduced once. -/
theorem offsetDifference_toNat (x y q2 : Word) :
    (x + q2 - y).toNat = (x.toNat + q2.toNat + 2 ^ 64 - y.toNat) % 2 ^ 64 := by
  have hy := y.isLt
  rw [BitVec.toNat_sub, BitVec.toNat_add]
  omega

/-- Settles O24: the command is total, and each of its words is one expression of R200. -/
theorem bflyInvResult : Obligations.BflyInvResult :=
  ⟨rfl, fun s => ⟨_, rfl, rfl, _, _, _, BitVec.toNat_mul 2 s.arg4, BitVec.toNat_add s.arg0 s.arg1,
    offsetDifference_toNat s.arg0 s.arg1 (2 * s.arg4), reduceOnce_toNat _ _, shoupMul_toNat _ _ _ _⟩⟩

theorem withinDomainTwo_of {P : Prop} [Decidable P] (h : P) (vs : Word × Word) (s : State) :
    withinDomainTwo (decide P) vs s = .next { s with res0 := vs.1, res1 := vs.2, code := .ok } := by
  rw [decide_eq_true h]
  rfl

theorem withinDomainTwo_of_not {P : Prop} [Decidable P] (h : ¬ P) (vs : Word × Word) (s : State) :
    withinDomainTwo (decide P) vs s = .next { s with code := .domainError, err := true } := by
  rw [decide_eq_false h]
  exact raise_eq (by decide) s

/-- R106 with the pre-multiplier of R102. -/
theorem shoupMul_shoupRatio_toNat {w q : Word} (hw : w.toNat < q.toNat) (y : Word) :
    ((shoupMul w (shoupRatio w q) y q).toNat : ℤ) =
      ((w.toNat : ℤ) * y.toNat - (w.toNat * 2 ^ 64 / q.toNat * y.toNat / 2 ^ 64 : ℕ) * q.toNat) % 2 ^ 64 := by
  rw [shoupMul_toNat, shoupRatio_toNat hw]

/-- Settles O25: in the domain both pre-multipliers are R102's, and R205's failure is the complement of the domain. -/
theorem bflyInvFinalResult : Obligations.BflyInvFinalResult := by
  refine ⟨rfl, fun s => ⟨fun ⟨hq, hN, hNW⟩ => ?_, fun hout => ?_⟩⟩
  · exact ⟨_, withinDomainTwo_of ⟨mt word_toNat_eq_zero_iff.2 hq, hN, hNW⟩ _ s, rfl, _, _, _, _,
      BitVec.toNat_mul 2 s.arg4, BitVec.toNat_add s.arg0 s.arg1, reduceOnce_toNat _ _,
      offsetDifference_toNat s.arg0 s.arg1 (2 * s.arg4), shoupMul_shoupRatio_toNat hN _, shoupMul_shoupRatio_toNat hNW _⟩
  · refine withinDomainTwo_of_not (fun ⟨hq, hN, hNW⟩ => ?_) _ s
    exact hout.elim (mt word_toNat_eq_zero_iff.1 hq) fun h => h.elim hN.not_ge hNW.not_ge

/-! The range and the value of the butterflies (R201, R203). -/

/-- R107 as a congruence. -/
theorem shoupMul_modEq {w y q : Word} (hq1 : 1 < q.toNat) (hq : q.toNat < 2 ^ 62) (hw : w.toNat < q.toNat) :
    ((shoupMul w (shoupRatio w q) y q).toNat : ℤ) ≡ w.toNat * y.toNat [ZMOD q.toNat] := by
  obtain ⟨-, hmod⟩ := shoupProductBound w y q (by omega) (by omega) hw
  exact_mod_cast Int.natCast_modEq_iff.2 hmod

section
variable {x y q : Word} (hq : q.toNat < 2 ^ 62) (hx : x.toNat < 2 * q.toNat) (hy : y.toNat < 2 * q.toNat)
include hq hx hy

/-- R201: the sum of two words below `2q` does not wrap, and one subtraction brings it below `2q`. -/
theorem reducedSum_spec : (reduceOnce (x + y) (2 * q)).toNat < 2 * q.toNat ∧
    ((reduceOnce (x + y) (2 * q)).toNat : ℤ) ≡ x.toNat + y.toNat [ZMOD q.toNat] := by
  have hsum : (x + y).toNat = x.toNat + y.toNat := by rw [BitVec.toNat_add]; omega
  obtain ⟨hlt, hmod⟩ := reduceOnce_two_mul (x := x + y) (q := q) (by omega) (by omega)
  rw [hsum] at hmod
  exact ⟨hlt, by exact_mod_cast Int.natCast_modEq_iff.2 hmod⟩

/-- R201: nor does their offset difference wrap. -/
theorem offsetDifference_modEq : ((x + 2 * q - y).toNat : ℤ) ≡ x.toNat - y.toNat [ZMOD q.toNat] := by
  have hval : ((x + 2 * q - y).toNat : ℤ) = x.toNat - y.toNat + q.toNat * 2 := by
    rw [offsetDifference_toNat, two_mul_toNat (by omega)]
    omega
  rw [hval]
  exact Int.modEq_add_fac_self

/-- The Shoup product of a factor with that difference (R201, R203). -/
theorem shoupMul_offsetDifference {w : Word} (hq1 : 1 < q.toNat) (hw : w.toNat < q.toNat) :
    (shoupMul w (shoupRatio w q) (x + 2 * q - y) q).toNat < 2 * q.toNat ∧
      ((shoupMul w (shoupRatio w q) (x + 2 * q - y) q).toNat : ℤ) ≡ w.toNat * (x.toNat - y.toNat) [ZMOD q.toNat] :=
  ⟨(shoupProductBound w _ q (by omega) (by omega) hw).1,
    (shoupMul_modEq hq1 hq hw).trans ((offsetDifference_modEq hq hx hy).mul_left _)⟩

end

/-- Settles O27: the left result is the reduced sum, the right one a Shoup product; with `X = 67`, `Y = 33` and `q = 17` one
subtraction of 34 is not enough. -/
theorem inverseButterflyRange : Obligations.InverseButterflyRange := by
  refine ⟨fun x y w q hq1 hq hw hx hy => ?_, 67, 33, 13, 17, by decide⟩
  obtain ⟨hlt1, h1⟩ := reducedSum_spec hq hx hy
  obtain ⟨hlt2, h2⟩ := shoupMul_offsetDifference hq hx hy hq1 hw
  exact ⟨hlt1, hlt2, h1, h2⟩

/-- Settles O28: both results are Shoup products; R205's corner case for the `(1, 17)` table gives the right one as 17. -/
theorem finalButterflyRange : Obligations.FinalButterflyRange := by
  refine ⟨fun x y invN invNW q hq1 hq hN hNW hx hy => ?_, 0, 0, 9, 15, 17, by decide⟩
  obtain ⟨-, hsum⟩ := reducedSum_spec hq hx hy
  obtain ⟨hlt2, h2⟩ := shoupMul_offsetDifference hq hx hy hq1 hNW
  exact ⟨(shoupProductBound invN _ q (by omega) (by omega) hN).1, hlt2,
    (shoupMul_modEq hq1 hq hN).trans (hsum.mul_left _), h2⟩

/-! The inverse pass as index loops (R206, R207, log 12). -/

/-- The butterfly of block `i` at main stage `s` of the inverse pass (R206). -/
def inverseButterfly (tb : Table) (s i : Nat) (x y : Word) : Word × Word :=
  bflyInv x y (tb.invRootPowers.getD (tb.coeffCount.toNat - 2 * (tb.coeffCount.toNat / (2 * 2 ^ s)) + 1 + i) 0)
    (tb.scaledInvRootPowers.getD (tb.coeffCount.toNat - 2 * (tb.coeffCount.toNat / (2 * 2 ^ s)) + 1 + i) 0) tb.modulus

/-- The butterfly of the final stage (R207). -/
def finalButterfly (tb : Table) (x y : Word) : Word × Word :=
  bflyInvFinal x y tb.invDegreeModulo
    (mulMod tb.invDegreeModulo (tb.invRootPowers.getD (tb.coeffCount.toNat - 1) 0) tb.modulus) tb.modulus

/-- The first `s` main stages of the inverse pass as R206 writes them. -/
def inverseLoopsUpTo (tb : Table) (s : Nat) : (Nat → Word) → Nat → Word :=
  forLoop s fun s => stageLoop (inverseButterfly tb s) (tb.coeffCount.toNat / (2 * 2 ^ s)) (2 ^ s)

/-- R207: the final stage is a stage of one block. -/
theorem inverseLoops_eq (tb : Table) (a : Nat → Word) :
    inverseLoops tb a = stageLoop (fun _ => finalButterfly tb) 1 (tb.coeffCount.toNat / 2)
      (inverseLoopsUpTo tb (tb.coeffCountPower.toNat - 1) a) := by
  rw [stageLoop, forLoop_succ, blockLoop]
  simp only [mul_zero, zero_add]
  rfl

@[simp] theorem inverseLoopsUpTo_zero (tb : Table) (a : Nat → Word) : inverseLoopsUpTo tb 0 a = a := rfl

/-- R206: at stage `s`, with `r` stages after it, the final one included, `m` is `2^r`. -/
theorem div_two_mul_two_pow {n s r : Nat} (hn : n = 2 ^ (s + (r + 1))) : n / (2 * 2 ^ s) = 2 ^ r := by
  rw [hn]
  exact Nat.div_eq_of_eq_mul_right (by positivity) (by ring)

theorem inverseLoopsUpTo_succ {tb : Table} {s r : Nat} (hn : tb.coeffCount.toNat = 2 ^ (s + (r + 1))) (a : Nat → Word) :
    inverseLoopsUpTo tb (s + 1) a = stageLoop (inverseButterfly tb s) (2 ^ r) (2 ^ s) (inverseLoopsUpTo tb s a) := by
  rw [inverseLoopsUpTo, forLoop_succ, div_two_mul_two_pow hn]
  rfl

/-- R206: with `m = 2^r` the roots of the stage start at offset `n - 2m + 1`. -/
theorem inverseButterfly_eq {tb : Table} {s r : Nat} (hn : tb.coeffCount.toNat = 2 ^ (s + (r + 1))) :
    inverseButterfly tb s = fun i x y =>
      bflyInv x y (tb.invRootPowers.getD (tb.coeffCount.toNat - 2 * 2 ^ r + 1 + i) 0)
        (tb.scaledInvRootPowers.getD (tb.coeffCount.toNat - 2 * 2 ^ r + 1 + i) 0) tb.modulus := by
  funext i x y
  rw [inverseButterfly, div_two_mul_two_pow hn]

/-- A main stage of the list form is the next one of the index form. -/
theorem inverseStage_map_range {tb : Table} (hc : tableCoherent tb = true) {s r : Nat}
    (hn : tb.coeffCount.toNat = 2 ^ (s + (r + 1))) (hr : 1 ≤ r) (f : Nat → Word) :
    stage (fun x y w w' => bflyInv x y w w' tb.modulus) (2 ^ s)
        (rootsFrom tb.invRootPowers tb.scaledInvRootPowers (tb.coeffCount.toNat - 2 * 2 ^ r + 1) (2 ^ r))
        ((List.range tb.coeffCount.toNat).map (inverseLoopsUpTo tb s f)) =
      (List.range tb.coeffCount.toNat).map (inverseLoopsUpTo tb (s + 1) f) := by
  obtain ⟨-, -, -, hroots, hscaled, -⟩ := tableCoherent_spec hc
  have hsize : tb.coeffCount.toNat = 2 * 2 ^ s * 2 ^ r := by rw [hn]; ring
  have hfit : 2 * 2 ^ r ≤ tb.coeffCount.toNat := by
    rw [hn, ← pow_succ']; exact Nat.pow_le_pow_right (by norm_num) (by omega)
  have hm : 1 < 2 ^ r := Nat.one_lt_two_pow (by omega)
  have hpair (i : Nat) (hi : i < 2 ^ r) :
      (rootsFrom tb.invRootPowers tb.scaledInvRootPowers (tb.coeffCount.toNat - 2 * 2 ^ r + 1) (2 ^ r))[i]? =
        some (tb.invRootPowers.getD (tb.coeffCount.toNat - 2 * 2 ^ r + 1 + i) 0,
          tb.scaledInvRootPowers.getD (tb.coeffCount.toNat - 2 * 2 ^ r + 1 + i) 0) :=
    rootsFrom_getElem? hi (getElem?_eq_some_getD (by omega)) (getElem?_eq_some_getD (by omega))
  have hstage := stage_map_range (bfly := fun x y w w' => bflyInv x y w w' tb.modulus) (t := 2 ^ s)
    (rootsFrom_length (by omega) (by omega)) hpair (inverseLoopsUpTo tb s f)
  rwa [← hsize, ← inverseButterfly_eq hn, ← inverseLoopsUpTo_succ hn] at hstage

/-- The main stages still to run in the list form finish the loops of the index form. -/
theorem inverseStages_map_range {tb : Table} (hc : tableCoherent tb = true) {s r : Nat}
    (hn : tb.coeffCount.toNat = 2 ^ (s + (r + 1))) (f : Nat → Word) :
    inverseStages tb r (tb.coeffCount.toNat - 2 * 2 ^ r + 1) (2 ^ r) (2 ^ s)
        ((List.range tb.coeffCount.toNat).map (inverseLoopsUpTo tb s f)) =
      (List.range tb.coeffCount.toNat).map (inverseLoopsUpTo tb (s + r) f) := by
  induction r generalizing s with
  | zero => rfl
  | succ r ih =>
    have hhalf : 2 ^ (r + 1) / 2 = 2 ^ r := by rw [pow_succ]; exact Nat.mul_div_cancel _ (by norm_num)
    have hfit : 2 * 2 ^ (r + 1) ≤ tb.coeffCount.toNat := by
      rw [hn, ← pow_succ']; exact Nat.pow_le_pow_right (by norm_num) (by omega)
    have hcursor : tb.coeffCount.toNat - 2 * 2 ^ (r + 1) + 1 + 2 ^ (r + 1) = tb.coeffCount.toNat - 2 * 2 ^ r + 1 := by
      rw [pow_succ] at hfit ⊢; omega
    have hassoc : s + (r + 1) = s + 1 + r := by omega
    rw [inverseStages, inverseStage_map_range hc hn (Nat.le_add_left 1 r), hcursor, hhalf, ← pow_succ' 2 s, hassoc]
    exact ih (s := s + 1) (by rw [hn]; congr 1; omega)

/-- R207: on an even number of words the final stage is a stage of one block. -/
theorem inverseFinal_eq_stage {tb : Table} {half : Nat} (hhalf : tb.coeffCount.toNat = 2 * half) {a : List Word}
    (ha : a.length = tb.coeffCount.toNat) :
    inverseFinal tb a = stage (fun x y _ _ => finalButterfly tb x y) half [(0, 0)] a := by
  have hdiv : tb.coeffCount.toNat / 2 = half := by omega
  have htake : (a.drop half).take half = a.drop half := List.take_of_length_le (by rw [List.length_drop]; omega)
  have hdrop : a.drop (2 * half) = [] := List.drop_of_length_le (by omega)
  simp only [inverseFinal, stage, hdiv, htake, hdrop, List.append_nil]
  rfl

theorem inversePass_map_range {tb : Table} (hc : tableCoherent tb = true) (hk : 1 ≤ tb.coeffCountPower.toNat)
    (f : Nat → Word) :
    inversePass tb ((List.range tb.coeffCount.toNat).map f) =
      (List.range tb.coeffCount.toNat).map (inverseLoops tb f) := by
  obtain ⟨r, hr⟩ : ∃ r, tb.coeffCountPower.toNat = r + 1 := ⟨_, (Nat.sub_add_cancel hk).symm⟩
  have hn : tb.coeffCount.toNat = 2 * 2 ^ r := by rw [(tableCoherent_spec hc).1, hr, pow_succ']
  have hhalf : tb.coeffCount.toNat / 2 = 2 ^ r := by omega
  have hmain : inverseStages tb r 1 (2 ^ r) 1 ((List.range tb.coeffCount.toNat).map f) =
      (List.range tb.coeffCount.toNat).map (inverseLoopsUpTo tb r f) := by
    have h := inverseStages_map_range hc (s := 0) (r := r) (by rw [hn, zero_add, pow_succ']) f
    rwa [← hn, Nat.sub_self, zero_add, zero_add] at h
  have hfinal := stage_map_range (bfly := fun x y _ _ => finalButterfly tb x y) (t := 2 ^ r) (roots := [(0, 0)])
    (w := fun _ => 0) (w' := fun _ => 0) rfl (fun i hi => by rw [Nat.lt_one_iff.1 hi]; rfl) (inverseLoopsUpTo tb r f)
  rw [List.length_singleton, mul_one, ← hn] at hfinal
  rw [inversePass, hhalf, hr, Nat.add_sub_cancel, hmain, inverseFinal_eq_stage hn (by simp), hfinal,
    funext (inverseLoops_eq tb), hhalf, hr, Nat.add_sub_cancel]

/-- Settles O38: the pass writes back its transform of the words it reads, and the transform is the loops. -/
theorem inversePassFollowsTheSchedule : Obligations.InversePassFollowsTheSchedule := by
  intro s t ht hc hk
  obtain ⟨u, hu, hwords⟩ :=
    runPass_words (bound := fun t => 2 * t.modulus.toNat) ht hc fun a => inversePass_length hc hk
  refine ⟨u, hu, fun j hj => ?_⟩
  rw [hwords j hj, inversePass_map_range hc hk]
  simp [hj]

/-! What the inverse pass computes (R210). -/

section
variable {q : Nat} (ψ : ZMod q)

/-- The `ζ` of word `c` of block `u` after all stages, raised to the size of the block, is the `ζ` of the block. -/
theorem blockRoot_pow {s r u c : Nat} (hc : c < 2 ^ s) (hψ : ψ ^ 2 ^ (s + r) = -1) :
    blockRoot ψ (s + r) 0 (2 ^ s * u + c) ^ 2 ^ s = blockRoot ψ r s u := by
  have hbits : bitrev (2 ^ s * u + c) (s + r) = bitrev c s * 2 ^ r + bitrev u r := by
    rw [add_comm, bitrev_append u s r hc]
  have hexp : (2 * (bitrev c s * 2 ^ r + bitrev u r) + 1) * 2 ^ 0 * 2 ^ s =
      2 ^ (s + r) * (2 * bitrev c s) + (2 * bitrev u r + 1) * 2 ^ s := by ring
  rw [blockRoot, blockRoot, hbits, ← pow_mul, hexp, pow_add, pow_mul, hψ, (even_two_mul _).neg_one_pow, one_mul]

/-- The sum over block `u` of `2^s` words of `b[c] · ζ^d`, each word with its own `ζ` (R210). -/
def interpolant (k : Nat) (b : Nat → ZMod q) (s u d : Nat) : ZMod q :=
  ∑ c ∈ Finset.range (2 ^ s), b (2 ^ s * u + c) * blockRoot ψ k 0 (2 ^ s * u + c) ^ d

theorem interpolant_const_mul (k : Nat) (g : ZMod q) (b : Nat → ZMod q) (s u d : Nat) :
    interpolant ψ k (fun p => g * b p) s u d = g * interpolant ψ k b s u d := by
  simp only [interpolant, Finset.mul_sum, mul_assoc]

/-- A block's sum is that of its two halves. -/
theorem interpolant_succ (k : Nat) (b : Nat → ZMod q) (s i d : Nat) :
    interpolant ψ k b (s + 1) i d = interpolant ψ k b s (2 * i) d + interpolant ψ k b s (2 * i + 1) d := by
  have hbase : (2 ^ s + 2 ^ s) * i = 2 ^ s * (2 * i) := by ring
  have hright (c : Nat) : 2 ^ s * (2 * i) + (2 ^ s + c) = 2 ^ s * (2 * i + 1) + c := by ring
  rw [interpolant, pow_succ, mul_two, Finset.sum_range_add]
  simp only [hbase, hright]
  rfl

/-- The offset `2^s` multiplies a block's sum by the `ζ` of the block. -/
theorem interpolant_add {s r : Nat} (b : Nat → ZMod q) (u d : Nat) (hψ : ψ ^ 2 ^ (s + r) = -1) :
    interpolant ψ (s + r) b s u (d + 2 ^ s) = blockRoot ψ r s u * interpolant ψ (s + r) b s u d := by
  rw [interpolant, interpolant, Finset.mul_sum]
  refine Finset.sum_congr rfl fun c hc => ?_
  rw [pow_add, blockRoot_pow ψ (Finset.mem_range.1 hc) hψ]
  ring

/-- After `s` stages with `r` still to run: every word is below `2q`, and word `d` of block `u` is the block's sum for
`d` (R210). -/
def holdsInterpolants (k : Nat) (b : Nat → ZMod q) (s r : Nat) (f : Nat → Word) : Prop :=
  ∀ u < 2 ^ r, ∀ d < 2 ^ s, (f (2 ^ s * u + d)).toNat < 2 * q ∧
    ((f (2 ^ s * u + d)).toNat : ZMod q) = interpolant ψ k b s u d

/-- Before the first stage each word is a block. -/
theorem holdsInterpolants_zero {k : Nat} {f : Nat → Word} (hf : ∀ p < 2 ^ k, (f p).toNat < 2 * q) :
    holdsInterpolants ψ k (fun p => ((f p).toNat : ZMod q)) 0 k f := by
  intro u hu d hd
  obtain rfl : d = 0 := by simpa using hd
  rw [pow_zero, one_mul, add_zero]
  exact ⟨hf u hu, by simp [interpolant]⟩

end

/-- R201, R203 in the ring of residues: from `X` and `Y` below `2q` the butterfly gives words below `2q` that are
`g·(X + Y)` and `g·w·(X - Y)`. -/
def combinesBy {q : Nat} (g w : ZMod q) (bfly : Word → Word → Word × Word) : Prop :=
  ∀ x y : Word, x.toNat < 2 * q → y.toNat < 2 * q →
    ((bfly x y).1.toNat < 2 * q ∧ ((bfly x y).1.toNat : ZMod q) = g * (x.toNat + y.toNat)) ∧
      (bfly x y).2.toNat < 2 * q ∧ ((bfly x y).2.toNat : ZMod q) = g * w * (x.toNat - y.toNat)

theorem bflyInv_combinesBy {w q : Word} (hq1 : 1 < q.toNat) (hq : q.toNat < 2 ^ 62) (hw : w.toNat < q.toNat) :
    combinesBy 1 (w.toNat : ZMod q.toNat) fun x y => bflyInv x y w (shoupRatio w q) q := by
  intro x y hx hy
  obtain ⟨hlt1, hlt2, h1, h2⟩ := inverseButterflyRange.1 x y w q hq1 hq hw hx hy
  have e1 := (ZMod.intCast_eq_intCast_iff _ _ _).2 h1
  have e2 := (ZMod.intCast_eq_intCast_iff _ _ _).2 h2
  push_cast at e1 e2
  rw [one_mul, one_mul]
  exact ⟨⟨hlt1, e1⟩, hlt2, e2⟩

theorem bflyInvFinal_combinesBy {invN w q : Word} (hq1 : 1 < q.toNat) (hq : q.toNat < 2 ^ 62)
    (hN : invN.toNat < q.toNat) :
    combinesBy (invN.toNat : ZMod q.toNat) (w.toNat : ZMod q.toNat)
      fun x y => bflyInvFinal x y invN (mulMod invN w q) q := by
  intro x y hx hy
  have hmul : (mulMod invN w q).toNat = invN.toNat * w.toNat % q.toNat := mulMod_toNat (by omega)
  have hNW : (mulMod invN w q).toNat < q.toNat := hmul ▸ Nat.mod_lt _ (by omega)
  obtain ⟨hlt1, hlt2, h1, h2⟩ := finalButterflyRange.1 x y invN _ q hq1 hq hN hNW hx hy
  have e1 := (ZMod.intCast_eq_intCast_iff _ _ _).2 h1
  have e2 := (ZMod.intCast_eq_intCast_iff _ _ _).2 h2
  rw [hmul] at e2
  push_cast [ZMod.natCast_mod] at e1 e2
  exact ⟨⟨hlt1, e1⟩, hlt2, e2⟩

/-- R210: a stage joins the blocks of the two square roots of each `ζ`, and scales by the factor of its butterflies. -/
theorem holdsInterpolants_stageLoop {q k s r : Nat} {ψ g : ZMod q} {b : Nat → ZMod q} {f : Nat → Word}
    {bfly : Nat → Word → Word → Word × Word} (hk : s + (r + 1) = k) (hψ : ψ ^ 2 ^ k = -1)
    (hbfly : ∀ i < 2 ^ r, combinesBy g (ψ ^ bitrev (2 ^ r + i) k) (bfly i))
    (hf : holdsInterpolants ψ k b s (r + 1) f) :
    holdsInterpolants ψ k (fun p => g * b p) (s + 1) r (stageLoop bfly (2 ^ r) (2 ^ s) f) := by
  have hp : 2 ^ (s + 1) = 2 * 2 ^ s := pow_succ' 2 s
  have hk' : r + 1 + s = k := by omega
  intro i hi d' hd'
  obtain ⟨d, hd, hhalf⟩ : ∃ d < 2 ^ s, d' = d ∨ d' = d + 2 ^ s := by
    by_cases h : d' < 2 ^ s
    · exact ⟨d', h, .inl rfl⟩
    · exact ⟨d' - 2 ^ s, by omega, .inr (by omega)⟩
  have hindexX : 2 ^ s * (2 * i) + d = 2 * 2 ^ s * i + d := by ring
  have hindexY : 2 ^ s * (2 * i + 1) + d = 2 * 2 ^ s * i + d + 2 ^ s := by ring
  obtain ⟨hx, hxval⟩ := hf (2 * i) (by rw [pow_succ]; omega) d hd
  obtain ⟨hy, hyval⟩ := hf (2 * i + 1) (by rw [pow_succ]; omega) d hd
  rw [hindexX] at hx hxval
  rw [hindexY] at hy hyval
  obtain ⟨hleft, hright⟩ := stageLoop_apply bfly hi hd f
  obtain ⟨hplus, hminus⟩ := hbfly i hi _ _ hx hy
  rw [hxval, hyval] at hplus hminus
  rw [interpolant_const_mul, interpolant_succ, hp]
  rcases hhalf with rfl | rfl
  · rw [hleft]
    exact hplus
  · have hrootX := blockRoot_two_mul ψ (r := s) hi
    have hrootY := blockRoot_two_mul_add_one ψ (r := s) hi (by rwa [hk'])
    rw [hk'] at hrootX hrootY
    have hshift (u : Nat) : interpolant ψ k b s u (d + 2 ^ s) = blockRoot ψ (r + 1) s u * interpolant ψ k b s u d := by
      subst hk
      exact interpolant_add ψ b u d hψ
    rw [← add_assoc, hright, hshift, hshift, hrootX, hrootY]
    refine ⟨hminus.1, hminus.2.trans ?_⟩
    ring

section
variable {k q root rootInv degreeInv : Nat}

/-- R148, R150: the root of block `i` at half-size `m = 2^j` in a built table, and its pre-multiplier. -/
theorem tableOf_inverseRoot (hk : k ≤ 17) (hq1 : 1 < q) (hq : q < 2 ^ 62) {j i : Nat} (hj : j < k) (hi : i < 2 ^ j) :
    ((tableOf k q root rootInv degreeInv).invRootPowers.getD (2 ^ k - 2 * 2 ^ j + 1 + i) 0).toNat =
        rootInv ^ bitrev (2 ^ j + i) k % q ∧
      (tableOf k q root rootInv degreeInv).scaledInvRootPowers.getD (2 ^ k - 2 * 2 ^ j + 1 + i) 0 =
        shoupRatio ((tableOf k q root rootInv degreeInv).invRootPowers.getD (2 ^ k - 2 * 2 ^ j + 1 + i) 0)
          (tableOf k q root rootInv degreeInv).modulus := by
  have hfit : 2 ^ j + 2 ^ j ≤ 2 ^ k := two_pow_add_two_pow_le hj
  obtain ⟨w, hw, hval⟩ := hasEntry_bitrevPowers (root := rootInv) (r := 2 ^ j + i) hk hq1 hq (by omega)
  have hroot : (tableOf k q root rootInv degreeInv).invRootPowers[2 ^ k - 2 * 2 ^ j + 1 + i]? = some w :=
    (reorder_getElem? (bitrevPowers_length k rootInv q) hj hi).trans hw
  have hscaled : (tableOf k q root rootInv degreeInv).scaledInvRootPowers =
      scaledArray (BitVec.ofNat 64 q) (tableOf k q root rootInv degreeInv).invRootPowers := reorder_scaledArray _ _ _
  rw [hscaled, List.getD_eq_getElem?_getD, List.getD_eq_getElem?_getD, scaledArray_getElem?, hroot]
  exact ⟨hval, rfl⟩

theorem tableOf_invDegree (hq : q < 2 ^ 62) (hdeg : degreeInv < q) :
    (tableOf k q root rootInv degreeInv).invDegreeModulo.toNat = degreeInv := ofNat_toNat_of_lt (by omega)

/-- Block `i` of a main stage with `m = 2^r` uses the inverse root that the bit reversal of `2^r + i` names (R206). -/
theorem inverseButterfly_combinesBy (hk : k ≤ 17) (hq1 : 1 < q) (hq : q < 2 ^ 62) {s r i : Nat} (hsr : s + (r + 1) = k)
    (hi : i < 2 ^ r) :
    combinesBy 1 ((rootInv : ZMod q) ^ bitrev (2 ^ r + i) k)
      (inverseButterfly (tableOf k q root rootInv degreeInv) s i) := by
  have hn : (tableOf k q root rootInv degreeInv).coeffCount.toNat = 2 ^ k := tableOf_coeffCount hk
  obtain ⟨hval, hscaled⟩ := tableOf_inverseRoot (root := root) (rootInv := rootInv) (degreeInv := degreeInv) hk hq1 hq
    (show r < k by omega) hi
  have hmod : (tableOf k q root rootInv degreeInv).modulus.toNat = q := tableOf_modulus hq
  have hlt : rootInv ^ bitrev (2 ^ r + i) k % q < q := Nat.mod_lt _ (by omega)
  have h := bflyInv_combinesBy
    (w := (tableOf k q root rootInv degreeInv).invRootPowers.getD (2 ^ k - 2 * 2 ^ r + 1 + i) 0)
    (q := (tableOf k q root rootInv degreeInv).modulus) (by omega) (by omega) (by omega)
  rw [← hscaled, hmod, hval, ZMod.natCast_mod, Nat.cast_pow] at h
  rw [inverseButterfly_eq (by rw [hn, hsr]), hn]
  exact h

/-- The final stage uses the root for `m = 1`, at offset `n - 1`, and scales by the inverse of the degree (R207). -/
theorem finalButterfly_combinesBy (hk1 : 1 ≤ k) (hk : k ≤ 17) (hq1 : 1 < q) (hq : q < 2 ^ 62) (hdeg : degreeInv < q) :
    combinesBy (degreeInv : ZMod q) ((rootInv : ZMod q) ^ bitrev (2 ^ 0 + 0) k)
      (finalButterfly (tableOf k q root rootInv degreeInv)) := by
  have hn : (tableOf k q root rootInv degreeInv).coeffCount.toNat = 2 ^ k := tableOf_coeffCount hk
  have h2 : 2 ≤ 2 ^ k := Nat.le_self_pow (by omega) 2
  have hoffset : 2 ^ k - 2 * 2 ^ 0 + 1 + 0 = 2 ^ k - 1 := by omega
  obtain ⟨hval, -⟩ := tableOf_inverseRoot (root := root) (rootInv := rootInv) (degreeInv := degreeInv) hk hq1 hq
    hk1 Nat.one_pos
  have hmod : (tableOf k q root rootInv degreeInv).modulus.toNat = q := tableOf_modulus hq
  have hN : (tableOf k q root rootInv degreeInv).invDegreeModulo.toNat = degreeInv := tableOf_invDegree hq hdeg
  have h := bflyInvFinal_combinesBy (invN := (tableOf k q root rootInv degreeInv).invDegreeModulo)
    (w := (tableOf k q root rootInv degreeInv).invRootPowers.getD (2 ^ k - 1) 0)
    (q := (tableOf k q root rootInv degreeInv).modulus) (by omega) (by omega) (by omega)
  rw [hoffset] at hval
  rw [hmod, hN, hval, ZMod.natCast_mod, Nat.cast_pow, ← hn] at h
  exact h

/-- R210 at every main stage of the pass on a built table. -/
theorem inverseLoopsUpTo_holdsInterpolants (hk : k ≤ 17) (hq1 : 1 < q) (hq : q < 2 ^ 62)
    (hinv : (rootInv : ZMod q) ^ 2 ^ k = -1) {f : Nat → Word} (hf : ∀ p < 2 ^ k, (f p).toNat < 2 * q) (s r : Nat)
    (hsr : s + r = k) (hr : 1 ≤ r) :
    holdsInterpolants (rootInv : ZMod q) k (fun p => ((f p).toNat : ZMod q)) s r
      (inverseLoopsUpTo (tableOf k q root rootInv degreeInv) s f) := by
  induction s generalizing r with
  | zero =>
    obtain rfl : r = k := by omega
    exact holdsInterpolants_zero _ hf
  | succ s ih =>
    have hk' : s + (r + 1) = k := by omega
    have h := holdsInterpolants_stageLoop hk' hinv
      (fun i hi => inverseButterfly_combinesBy (root := root) (degreeInv := degreeInv) hk hq1 hq hk' hi)
      (ih (r + 1) hk' (by omega))
    rw [inverseLoopsUpTo_succ (by rw [tableOf_coeffCount hk, hk'])]
    simpa only [one_mul] using h

/-- R210 for the index loops of a built table. -/
theorem inverseLoops_tableOf (hk1 : 1 ≤ k) (hk : k ≤ 17) (hq1 : 1 < q) (hq : q < 2 ^ 62)
    (hinv : (rootInv : ZMod q) ^ 2 ^ k = -1) (hdeg : degreeInv < q) {f : Nat → Word}
    (hf : ∀ p < 2 ^ k, (f p).toNat < 2 * q) {j : Nat} (hj : j < 2 ^ k) :
    (inverseLoops (tableOf k q root rootInv degreeInv) f j).toNat < 2 * q ∧
      ((inverseLoops (tableOf k q root rootInv degreeInv) f j).toNat : ZMod q) =
        degreeInv * ∑ p ∈ Finset.range (2 ^ k), (f p).toNat * blockRoot (rootInv : ZMod q) k 0 p ^ j := by
  obtain ⟨r, rfl⟩ : ∃ r, k = r + 1 := ⟨_, (Nat.sub_add_cancel hk1).symm⟩
  have hhalf : 2 ^ (r + 1) / 2 = 2 ^ r := by rw [pow_succ]; exact Nat.mul_div_cancel _ (by norm_num)
  have h := holdsInterpolants_stageLoop (k := r + 1) (r := 0)
    (bfly := fun _ => finalButterfly (tableOf (r + 1) q root rootInv degreeInv)) rfl hinv
    (fun i hi => by rw [Nat.lt_one_iff.1 hi]; exact finalButterfly_combinesBy hk1 hk hq1 hq hdeg)
    (inverseLoopsUpTo_holdsInterpolants (root := root) (degreeInv := degreeInv) hk hq1 hq hinv hf r 1 rfl le_rfl)
    0 Nat.one_pos j hj
  rw [interpolant_const_mul, interpolant, pow_zero] at h
  simp only [mul_zero, zero_add] at h
  rw [inverseLoops_eq, tableOf_coeffCountPower hk, tableOf_coeffCount hk, hhalf, Nat.add_sub_cancel]
  exact h

end

/-! The pass on the table of the invariant (R210). -/

/-- An inverse modulo `q` is one in the ring of residues. -/
theorem natCast_mul_eq_one {q a b : Nat} (h : a * b % q = 1) : (a : ZMod q) * b = 1 := by
  rw [← Nat.cast_mul, ← ZMod.natCast_mod, h, Nat.cast_one]

/-- R17: the `n`-th power of the least root is `-1`. -/
theorem isLeastRoot.natCast_pow {k q ψ : Nat} (h : isLeastRoot (2 ^ k) q ψ) (hprime : q.Prime) (hq2 : 2 < q) :
    (ψ : ZMod q) ^ 2 ^ k = -1 := by
  obtain ⟨⟨-, -, hroot⟩, -⟩ := h
  exact (natCast_pow_eq_neg_one hprime.one_lt).1 ((isRootOfUnity_iff hprime hq2 ψ).1 hroot)

/-- The inverse of an `n`-th root of `-1` is one. -/
theorem inverse_pow_eq_neg_one {q n : Nat} {ψ ψinv : ZMod q} (hψ : ψ ^ n = -1) (hinv : ψinv * ψ = 1) : ψinv ^ n = -1 := by
  have h : ψinv ^ n * ψ ^ n = 1 := by rw [← mul_pow, hinv, one_pow]
  rw [hψ, mul_neg_one] at h
  exact neg_eq_iff_eq_neg.1 h

/-- What a state of the invariant says of the degree and the modulus of its table (R7, R9). -/
theorem Inv.table_bounds {s : State} {t : Table} (h : Inv s) (hs : s.tbl = some t) :
    t.coeffCount.toNat = 2 ^ t.coeffCountPower.toNat ∧ t.modulus.toNat.Prime ∧ 2 < t.modulus.toNat := by
  obtain ⟨k, q, root, rootInv, degreeInv, rfl, ⟨-, hk⟩, ⟨hq1, hq, hd, hprime⟩, -⟩ := h.exists_tableOf hs
  have hle := Nat.le_of_dvd (by omega) hd
  have hpos := Nat.one_le_two_pow (n := k)
  rw [tableOf_coeffCountPower hk, tableOf_coeffCount hk, tableOf_modulus hq]
  exact ⟨rfl, hprime, by omega⟩

/-- A pass reads the words the buffer holds (R57). -/
theorem holdsBuffer.passInput {s : State} {n : Nat} {a : Nat → Nat} (h : holdsBuffer s n a) {j : Nat} (hj : j < n) :
    (passInput s j).toNat = a j := by
  obtain ⟨w, hw, hval⟩ := h j hj
  rw [passInput_of_written hw, hval]

/-- R210 for a state with the table of another one that satisfies the invariant: NTT_INV reads nothing but the table and
the buffer. -/
theorem nttInv_interpolates {s v : State} {t : Table} {b : Nat → Nat} {ψ ψinv ninv : Nat} (hI : Inv s)
    (hs : s.tbl = some t) (hv : v.tbl = some t) (hleast : isLeastRoot t.coeffCount.toNat t.modulus.toNat ψ)
    (hinv : ψinv * ψ % t.modulus.toNat = 1) (hninv : ninv * t.coeffCount.toNat % t.modulus.toNat = 1)
    (hbuf : holdsBuffer v t.coeffCount.toNat b) (hbound : ∀ p < t.coeffCount.toNat, b p < 2 * t.modulus.toNat) :
    ∃ z c, exec .nttInv v = .next z ∧ holdsBuffer z t.coeffCount.toNat c ∧
      ∀ j < t.coeffCount.toNat, c j < 2 * t.modulus.toNat ∧
        (c j : ZMod t.modulus.toNat) = ninv * ∑ p ∈ Finset.range t.coeffCount.toNat,
          b p * blockRoot (ψinv : ZMod t.modulus.toNat) t.coeffCountPower.toNat 0 p ^ j := by
  obtain ⟨-, hprime, hq2⟩ := hI.table_bounds hs
  obtain ⟨k, q, root, rootInv, degreeInv, rfl, ⟨hk1, hk⟩, ⟨hq1, hq, -⟩, hroot, ⟨-, hrootInv⟩, hdegLt, hdeg⟩ :=
    hI.exists_tableOf hs
  obtain ⟨z, hz, hwords⟩ := inversePassFollowsTheSchedule v _ hv (tableOf_coherent hk)
    (by rwa [tableOf_coeffCountPower hk])
  refine ⟨z, fun j => (inverseLoops _ (passInput v) j).toNat, hz, fun j hj => ⟨_, hwords j hj, rfl⟩, fun j hj => ?_⟩
  rw [tableOf_modulus hq] at hprime hq2
  rw [tableOf_coeffCount hk, tableOf_modulus hq] at hleast hninv hbound
  rw [tableOf_modulus hq] at hinv
  rw [tableOf_coeffCount hk] at hbuf hj
  rw [tableOf_coeffCount hk, tableOf_modulus hq, tableOf_coeffCountPower hk]
  obtain rfl := isLeastRoot_unique hleast hroot
  have hψinv : (ψinv : ZMod q) = rootInv :=
    left_inv_eq_right_inv (natCast_mul_eq_one hinv) ((mul_comm _ _).trans (natCast_mul_eq_one hrootInv))
  have hninv' : (ninv : ZMod q) = degreeInv :=
    left_inv_eq_right_inv (natCast_mul_eq_one hninv) ((mul_comm _ _).trans (natCast_mul_eq_one hdeg))
  obtain ⟨hlt, hval⟩ := inverseLoops_tableOf (root := ψ) hk1 hk hq1 hq
    (inverse_pow_eq_neg_one (hleast.natCast_pow hprime hq2) (natCast_mul_eq_one hrootInv)) hdegLt
    (fun p hp => hbuf.passInput hp ▸ hbound p hp) hj
  refine ⟨hlt, hval.trans ?_⟩
  rw [hψinv, hninv']
  exact congrArg _ (Finset.sum_congr rfl fun p hp => by rw [hbuf.passInput (Finset.mem_range.1 hp)])

/-- Settles O42: the state itself has the table of the invariant. -/
theorem inversePassInterpolates : Obligations.InversePassInterpolates := by
  rintro s t b _ _ ψ ψinv ninv hI hs rfl rfl hleast hinv hninv hbuf hbound
  obtain ⟨u, c, hu, hc, hval⟩ := nttInv_interpolates hI hs hs hleast hinv hninv hbuf hbound
  refine ⟨u, hu, c, hc, fun j hj => ⟨(hval j hj).1, (ZMod.natCast_eq_natCast_iff' _ _ _).1 ?_⟩⟩
  rw [(hval j hj).2]
  simp [blockRoot, pow_mul]

/-! The two passes together (R211, R212). -/

/-- Bit reversal permutes the offsets of the buffer (R105, R117). -/
theorem sum_range_bitrev {M : Type} [AddCommMonoid M] (k : Nat) (f : Nat → M) :
    ∑ u ∈ Finset.range (2 ^ k), f (bitrev u k) = ∑ e ∈ Finset.range (2 ^ k), f e :=
  Finset.sum_nbij' (bitrev · k) (bitrev · k) (fun u _ => Finset.mem_range.2 (bitrev_lt u k))
    (fun e _ => Finset.mem_range.2 (bitrev_lt e k)) (fun _ hu => bitrev_bitrev (Finset.mem_range.1 hu))
    (fun _ he => bitrev_bitrev (Finset.mem_range.1 he)) fun _ _ => rfl

/-- Coefficient `j` of `x^e` modulo `x^n + 1`, for `e < 2n` and `j < n` (R212). -/
def negacyclicCoeff (q n e j : Nat) : ZMod q := if e = j then 1 else if e = j + n then -1 else 0

section
variable {q k : Nat} {ψ ψinv ninv : ZMod q} (hprime : q.Prime) (hq2 : 2 < q) (hψ : ψ ^ 2 ^ k = -1) (hinv : ψinv * ψ = 1)
  (hninv : ninv * (2 ^ k : ℕ) = 1)
include hψ

/-- Every odd power of the root is a root of `x^n + 1` (R212). -/
theorem blockRoot_pow_degree (u : Nat) : blockRoot ψ k 0 u ^ 2 ^ k = -1 := by
  have hodd : Odd (2 * bitrev u k + 1) := odd_two_mul_add_one _
  rw [blockRoot, pow_zero, mul_one, pow_right_comm, hψ, hodd.neg_one_pow]

include hprime hq2 hinv

/-- The odd powers of the root are orthogonal: with `z = ψ^(i - j)` the sum is `z` times a geometric sum of `z²`, whose
`n`-th power is 1. -/
theorem sum_blockRoot_pow_mul_pow {i j : Nat} (hi : i < 2 ^ k) (hj : j < 2 ^ k) :
    ∑ u ∈ Finset.range (2 ^ k), blockRoot ψ k 0 u ^ i * blockRoot ψinv k 0 u ^ j =
      if i = j then ((2 ^ k : ℕ) : ZMod q) else 0 := by
  have := Fact.mk hprime
  have hterm (u : Nat) : blockRoot ψ k 0 u ^ i * blockRoot ψinv k 0 u ^ j =
      ψ ^ i * ψinv ^ j * ((ψ ^ i * ψinv ^ j) ^ 2) ^ bitrev u k := by
    rw [blockRoot, blockRoot]
    ring
  simp only [hterm]
  rw [sum_range_bitrev k fun e => ψ ^ i * ψinv ^ j * ((ψ ^ i * ψinv ^ j) ^ 2) ^ e, ← Finset.mul_sum]
  split
  case isTrue heq =>
    have hone : ψ ^ i * ψinv ^ j = 1 := by rw [heq, ← mul_pow, mul_comm ψ, hinv, one_pow]
    simp [hone]
  case isFalse hne =>
    have hprimitive : IsPrimitiveRoot ψ (2 ^ (k + 1)) :=
      orderOf_of_pow_eq_neg_one hprime hq2 hψ ▸ IsPrimitiveRoot.orderOf ψ
    have hratio : (ψ ^ i * ψinv ^ j) ^ 2 ≠ 1 := fun h => by
      have hpow : ψ ^ (2 * i) = ψ ^ (2 * j) :=
        calc ψ ^ (2 * i) = ψ ^ (2 * i) * (ψinv * ψ) ^ (2 * j) := by rw [hinv, one_pow, mul_one]
          _ = (ψ ^ i * ψinv ^ j) ^ 2 * ψ ^ (2 * j) := by ring
          _ = ψ ^ (2 * j) := by rw [h, one_mul]
      have := hprimitive.pow_inj (by rw [pow_succ]; omega) (by rw [pow_succ]; omega) hpow
      omega
    have hfull : ((ψ ^ i * ψinv ^ j) ^ 2) ^ 2 ^ k = 1 :=
      calc ((ψ ^ i * ψinv ^ j) ^ 2) ^ 2 ^ k = ((ψ ^ 2 ^ k) ^ i * (ψinv ^ 2 ^ k) ^ j) ^ 2 := by ring
        _ = 1 := by
          rw [hψ, inverse_pow_eq_neg_one hψ hinv, ← pow_add, ← pow_mul, mul_comm, (even_two_mul _).neg_one_pow]
    rw [geom_sum_eq hratio, hfull, sub_self, zero_div, mul_zero]

include hninv

/-- The inverse map takes the values of `x^e` to the coefficients of `x^e` modulo `x^n + 1`. -/
theorem interpolate_pow {e j : Nat} (he : e < 2 * 2 ^ k) (hj : j < 2 ^ k) :
    ninv * ∑ u ∈ Finset.range (2 ^ k), blockRoot ψ k 0 u ^ e * blockRoot ψinv k 0 u ^ j =
      negacyclicCoeff q (2 ^ k) e j := by
  by_cases hlt : e < 2 ^ k
  · rw [sum_blockRoot_pow_mul_pow hprime hq2 hψ hinv hlt hj, negacyclicCoeff, mul_ite, hninv, mul_zero,
      if_neg (show e ≠ j + 2 ^ k by omega)]
  · obtain ⟨i, rfl⟩ := Nat.exists_eq_add_of_le' (not_lt.1 hlt)
    simp only [pow_add, blockRoot_pow_degree hψ, mul_neg, mul_one, neg_mul, Finset.sum_neg_distrib]
    rw [sum_blockRoot_pow_mul_pow hprime hq2 hψ hinv (by omega) hj, negacyclicCoeff, mul_ite, hninv, mul_zero,
      if_neg (show i + 2 ^ k ≠ j by omega)]
    simp only [Nat.add_right_cancel_iff]
    split
    · rfl
    · exact neg_zero

/-- The inverse map takes the values of a sum of monomials to its coefficients modulo `x^n + 1` (R211, R212). -/
theorem interpolate_sum {ι : Type} (S : Finset ι) (coef : ι → ZMod q) (e : ι → Nat)
    (he : ∀ x ∈ S, e x < 2 * 2 ^ k) {j : Nat} (hj : j < 2 ^ k) :
    ninv * ∑ u ∈ Finset.range (2 ^ k), (∑ x ∈ S, coef x * blockRoot ψ k 0 u ^ e x) * blockRoot ψinv k 0 u ^ j =
      ∑ x ∈ S, coef x * negacyclicCoeff q (2 ^ k) (e x) j := by
  simp only [Finset.sum_mul]
  rw [Finset.sum_comm, Finset.mul_sum]
  refine Finset.sum_congr rfl fun x hx => ?_
  rw [← interpolate_pow hprime hq2 hψ hinv hninv (he x hx) hj, Finset.mul_sum, Finset.mul_sum, Finset.mul_sum]
  exact Finset.sum_congr rfl fun u _ => by ring

end

/-- R186 in the ring of residues. -/
theorem nttFwd_evaluates {s : State} {t : Table} {a : Nat → Nat} {ψ : Nat} (hI : Inv s) (hs : s.tbl = some t)
    (hleast : isLeastRoot t.coeffCount.toNat t.modulus.toNat ψ) (hbuf : holdsBuffer s t.coeffCount.toNat a)
    (hbound : ∀ j < t.coeffCount.toNat, a j < t.modulus.toNat) :
    ∃ u b, exec .nttFwd s = .next u ∧ holdsBuffer u t.coeffCount.toNat b ∧
      ∀ p < t.coeffCount.toNat, b p < 4 * t.modulus.toNat ∧
        (b p : ZMod t.modulus.toNat) = ∑ j ∈ Finset.range t.coeffCount.toNat,
          a j * blockRoot (ψ : ZMod t.modulus.toNat) t.coeffCountPower.toNat 0 p ^ j := by
  obtain ⟨u, hu, b, hb, hval⟩ := forwardPassEvaluatesThePolynomial s t a _ _ ψ hI hs rfl rfl hleast hbuf
    fun j hj => (hbound j hj).trans_le (Nat.le_mul_of_pos_left _ (by norm_num))
  refine ⟨u, b, hu, hb, fun p hp => ⟨(hval p hp).1, ?_⟩⟩
  rw [(ZMod.natCast_eq_natCast_iff' _ _ _).2 (hval p hp).2]
  simp [blockRoot, pow_mul]

/-- R211, R212: on words that are the values of a sum of monomials NTT_INV leaves the sum's coefficients modulo
`x^n + 1`. -/
theorem nttInv_of_values {s v : State} {t : Table} {b : Nat → Nat} {ψ : Nat} (hI : Inv s) (hs : s.tbl = some t)
    (hv : v.tbl = some t) (hleast : isLeastRoot t.coeffCount.toNat t.modulus.toNat ψ)
    (hbuf : holdsBuffer v t.coeffCount.toNat b) (hbound : ∀ p < t.coeffCount.toNat, b p < 2 * t.modulus.toNat)
    {ι : Type} (S : Finset ι) (coef : ι → ZMod t.modulus.toNat) (e : ι → Nat)
    (he : ∀ x ∈ S, e x < 2 * t.coeffCount.toNat)
    (hval : ∀ p < t.coeffCount.toNat, (b p : ZMod t.modulus.toNat) =
      ∑ x ∈ S, coef x * blockRoot (ψ : ZMod t.modulus.toNat) t.coeffCountPower.toNat 0 p ^ e x) :
    ∃ z c, exec .nttInv v = .next z ∧ holdsBuffer z t.coeffCount.toNat c ∧
      ∀ j < t.coeffCount.toNat, c j < 2 * t.modulus.toNat ∧
        (c j : ZMod t.modulus.toNat) = ∑ x ∈ S, coef x * negacyclicCoeff t.modulus.toNat t.coeffCount.toNat (e x) j := by
  obtain ⟨hn, hprime, hq2⟩ := hI.table_bounds hs
  obtain ⟨-, -, -, ⟨-, root, ψinv, hroot, hinv, -⟩, hninv⟩ := builtTableProperties s t _ _ hI hs rfl rfl
  obtain rfl := isLeastRoot_unique hroot hleast
  obtain ⟨z, c, hz, hc, hcval⟩ := nttInv_interpolates hI hs hv hleast hinv hninv hbuf hbound
  refine ⟨z, c, hz, hc, fun j hj => ⟨(hcval j hj).1, ?_⟩⟩
  rw [(hcval j hj).2, Finset.sum_congr rfl fun p hp => by rw [hval p (Finset.mem_range.1 hp)]]
  rw [hn] at hleast hninv he hj ⊢
  exact interpolate_sum hprime hq2 (hleast.natCast_pow hprime hq2) (natCast_mul_eq_one hinv) (natCast_mul_eq_one hninv)
    S coef e he hj

/-- Settles O43: the host's step keeps the residues, and the coefficients of a polynomial of degree below `n` modulo
`x^n + 1` are its own. -/
theorem roundTripReturnsTheInput : Obligations.RoundTripReturnsTheInput := by
  rintro s t a _ _ hI hs rfl rfl hbuf hbound
  obtain ⟨⟨ψ, hleast, -⟩, -⟩ := builtTableProperties s t _ _ hI hs rfl rfl
  obtain ⟨u, b, hu, hb, hval⟩ := nttFwd_evaluates hI hs hleast hbuf hbound
  refine ⟨u, b, hu, hb, fun v hv hvbuf => ?_⟩
  have htbl : u.tbl = s.tbl := by
    by_contra hne
    cases exec_tbl_changed hu hne
  have hreduced (p : Nat) : ((if 2 * t.modulus.toNat ≤ b p then b p - 2 * t.modulus.toNat else b p : ℕ) :
      ZMod t.modulus.toNat) = b p := by
    split
    · next h => simp [Nat.cast_sub h]
    · rfl
  obtain ⟨z, c, hz, hc, hcval⟩ := nttInv_of_values hI hs (hv.trans (htbl.trans hs)) hleast hvbuf
    (fun p hp => by have hlt := (hval p hp).1; split <;> omega)
    (Finset.range t.coeffCount.toNat) (fun x => (a x : ZMod t.modulus.toNat)) id
    (fun x hx => (Finset.mem_range.1 hx).trans_le (Nat.le_mul_of_pos_left _ (by norm_num)))
    fun p hp => (hreduced p).trans (hval p hp).2
  refine ⟨z, c, hz, hc, fun j hj => ⟨(hcval j hj).1, ?_⟩⟩
  have hcoeff : (c j : ZMod t.modulus.toNat) = a j := by
    rw [(hcval j hj).2, Finset.sum_eq_single_of_mem j (Finset.mem_range.2 hj)]
    · simp [negacyclicCoeff]
    · intro x hx hne
      have := Finset.mem_range.1 hx
      rw [id, negacyclicCoeff, if_neg hne, if_neg (by omega), mul_zero]
  rw [(ZMod.natCast_eq_natCast_iff' _ _ _).1 hcoeff, Nat.mod_eq_of_lt (hbound j hj)]

/-- Settles O44: the product of the values of two polynomials is the value of their product, a sum of monomials of degree
below `2n`. -/
theorem pointwiseProductIsNegacyclicConvolution : Obligations.PointwiseProductIsNegacyclicConvolution := by
  rintro s r t a c _ _ hIs hIr hs hr rfl rfl habuf hcbuf habound hcbound
  obtain ⟨⟨ψ, hleast, -⟩, -⟩ := builtTableProperties s t _ _ hIs hs rfl rfl
  obtain ⟨u, A, hu, hA, hAval⟩ := nttFwd_evaluates hIs hs hleast habuf habound
  obtain ⟨v, C, hv, hC, hCval⟩ := nttFwd_evaluates hIr hr hleast hcbuf hcbound
  refine ⟨u, v, A, C, hu, hA, hv, hC, fun w hw hwbuf => ?_⟩
  obtain ⟨-, hprime, -⟩ := hIs.table_bounds hs
  obtain ⟨z, p, hz, hp, hpval⟩ := nttInv_of_values hIs hs hw hleast hwbuf
    (fun _ _ => (Nat.mod_lt _ hprime.pos).trans_le (Nat.le_mul_of_pos_left _ (by norm_num)))
    (Finset.range t.coeffCount.toNat ×ˢ Finset.range t.coeffCount.toNat) (fun x => (a x.1 : ZMod t.modulus.toNat) * c x.2)
    (fun x => x.1 + x.2)
    (fun x hx => by
      obtain ⟨h1, h2⟩ := Finset.mem_product.1 hx
      have := Finset.mem_range.1 h1
      have := Finset.mem_range.1 h2
      omega)
    fun i hi => by
      rw [ZMod.natCast_mod, Nat.cast_mul, (hAval i hi).2, (hCval i hi).2, Finset.sum_mul_sum, Finset.sum_product]
      simp only [pow_add, mul_mul_mul_comm]
  refine ⟨z, p, hz, hp, fun j hj => (ZMod.intCast_eq_intCast_iff _ _ _).1 ?_⟩
  rw [Int.cast_natCast, (hpval j hj).2, Finset.sum_product]
  push_cast
  refine Finset.sum_congr rfl fun x _ => Finset.sum_congr rfl fun y _ => ?_
  simp [negacyclicCoeff, mul_ite]

end Sys2Proof.Machine

/-! PROOFS for 44_control.md: CLR_ERR (R230) and a host write of an illegal word to `CMD` (R231). -/

namespace Sys2Proof.Machine

/-! What `STATUS` reads (R23). -/

/-- R23: the low byte of `STATUS` is `CODE`. -/
theorem State.statusWord_code (s : State) : s.statusWord.toNat % 2 ^ 8 = s.code.number := by
  have hcode := s.code.number_lt
  rw [State.statusWord_toNat]
  omega

theorem State.initialized_toNat (s : State) : s.initialized.toNat = if s.tbl = none then 0 else 1 := by
  rw [State.initialized]
  cases s.tbl <;> rfl

/-- With `CODE` and `ERR` at 0, `STATUS` is its `INIT` bit (R23). -/
theorem State.statusWord_of_ok {s : State} (hcode : s.code = .ok) (herr : s.err = false) :
    s.statusWord.toNat = 2 ^ 8 * (if s.tbl = none then 0 else 1) := by
  rw [State.statusWord_toNat, State.initialized_toNat, hcode, herr]
  simp [StatusCode.number]

/-! A host write to `CMD` (R52, R231). -/

theorem busTarget_base (p : Params) : busTarget p p.base 8 = .cmd :=
  (busTarget_base_add p (off := 0) 8 (by norm_num)).trans rfl

/-- A host write to `CMD` steps as its word runs (R26, R60). -/
theorem step_commandWrite {s : State} {rest : List HostEvent} {v : Word} (hi : s.inbox = .write s.params.base 8 v :: rest) :
    step s = runCommandWord v { s with inbox := rest } :=
  (step_cons hi).trans (if_pos (busTarget_base s.params))

/-- R88's legality, by the fields of R80. -/
theorem commandWord_wellFormed_iff {w : Word} : CmdWord.wellFormed w = true ↔ rsvdField w = 0 ∧
    (opField w ∈ plainOpcodes ∨ opField w = 0x20 ∨ opField w = 0x21) ∧
      selField w ≤ (if opField w = 0x20 then 5 else if opField w = 0x21 then 4 else 0) := by
  simp only [CmdWord.wellFormed, CmdWord.reservedClear, CmdWord.opcodeListed, CmdWord.selectorFits, Bool.and_eq_true,
    beq_iff_eq, decide_eq_true_eq, and_assoc]
  rfl

/-- The legality of R88 and the decoder of R91 admit the same words. -/
theorem commandWord_wellFormed_iff_decodes {w : Word} : CmdWord.wellFormed w = true ↔ ∃ i, decodeWord w = .ok i := by
  rw [commandWord_wellFormed_iff, exists_decodeWord_iff]
  by_cases harray : opField w = 0x20
  · simp [harray, notMem_plainOpcodes_of_selectorOpcode]
  by_cases hscalar : opField w = 0x21
  · simp [hscalar, notMem_plainOpcodes_of_selectorOpcode]
  · simp [harray, hscalar]

/-- Settles O5: the write reaches `CMD`, no command has an illegal word, and the decoder's rejection completes with
ILLEGAL_COMMAND. -/
theorem illegalCommandWordCompletes : Obligations.IllegalCommandWordCompletes := by
  intro s rest v hi hillegal
  have hnone : ∀ i, decodeWord v ≠ .ok i := fun i hd =>
    absurd (commandWord_wellFormed_iff_decodes.2 ⟨i, hd⟩) (Bool.eq_false_iff.1 hillegal)
  have hrun := (illegalWordsAreThoseOfTheRule v).2 hnone { s with inbox := rest }
  exact ⟨_, (step_commandWrite hi).trans hrun, rfl, State.statusWord_code _⟩

/-! CLR_ERR (R230). -/

theorem exec_clrErr (s : State) : exec .clrErr s = .next { s with code := .ok, err := false } := rfl

/-- Settles O45: the command completes with `OK` on the state whose `ERR` is cleared, which leaves `STATUS` its `INIT`
bit. -/
theorem clrErrClears : Obligations.ClrErrClears :=
  ⟨rfl, fun s => ⟨_, exec_clrErr s, rfl, State.statusWord_of_ok rfl rfl⟩⟩

end Sys2Proof.Machine

/-! PROOFS for 60_exceptions.md: a failing command is precise (R241). -/

namespace Sys2Proof.Machine

/-- Settles O46: of the effects of a command only `failure` and `unbuilt` end with a code other than `OK`. The first is no
TBL_BUILD's and keeps the table; the second is TBL_BUILD's and resets it. -/
theorem failingCommandsArePrecise : Obligations.FailingCommandsArePrecise := by
  intro i s u h hc
  cases exec_effect h with
  | failure _ _ hi => rw [if_neg hi]
  | unbuilt _ _ hi => rw [if_pos hi]
  | results | built | cleared => exact absurd rfl hc
  | passed _ _ _ _ _ _ _ _ hu => exact absurd (congrArg State.code hu) hc

end Sys2Proof.Machine

/-! PROOFS for 30_encoding.md: decoding is the exact inverse of encoding (R58, R80 to R91). -/

namespace Sys2Proof.Machine

/-! Decoding and encoding (R80 to R91). -/

/-- The three fields of R80 are all of a word. -/
theorem word_eq_of_fields {v w : Word} (hop : opField v = opField w) (hsel : selField v = selField w)
    (hrsvd : rsvdField v = rsvdField w) : v = w := by
  apply BitVec.eq_of_toNat_eq
  unfold opField selField rsvdField at *
  omega

/-- The fields of a word that decodes are those of its command. -/
theorem fields_of_decodeWord {w : Word} {i : Instr} (h : decodeWord w = .ok i) :
    opField w = i.opcode ∧ selField w = i.selector ∧ rsvdField w = 0 := by
  obtain ⟨hrsvd, -⟩ := exists_decodeWord_iff.1 ⟨i, h⟩
  by_cases harray : opField w = 0x20
  · rw [decodeWord, if_neg (not_not.2 hrsvd), if_pos harray] at h
    obtain ⟨hop, hsel⟩ := arrayCommand_ok h
    exact ⟨harray.trans hop.symm, hsel.symm, hrsvd⟩
  by_cases hscalar : opField w = 0x21
  · rw [decodeWord, if_neg (not_not.2 hrsvd), if_neg harray, if_pos hscalar] at h
    obtain ⟨hop, hsel⟩ := scalarCommand_ok h
    exact ⟨hscalar.trans hop.symm, hsel.symm, hrsvd⟩
  · obtain ⟨hplain, hzero⟩ := (decodeWord_of_plain hrsvd harray hscalar i).1 h
    obtain ⟨hop, hsel⟩ := plainCommand_ok hplain
    exact ⟨hop.symm, hzero.trans hsel.symm, hrsvd⟩

theorem decodeWord_encodeWord (i : Instr) : decodeWord (encodeWord i) = .ok i := by
  cases i <;> rfl

/-- R91: a word decodes to a command exactly when it is the command's word. -/
theorem decodeWord_eq_ok_iff {w : Word} {i : Instr} : decodeWord w = .ok i ↔ w = encodeWord i := by
  constructor
  · intro h
    obtain ⟨hop, hsel, hrsvd⟩ := fields_of_decodeWord h
    obtain ⟨hop', hsel', hrsvd'⟩ := fields_encodeWord i
    exact word_eq_of_fields (hop.trans hop'.symm) (hsel.trans hsel'.symm) (hrsvd.trans hrsvd'.symm)
  · rintro rfl
    exact decodeWord_encodeWord i

/-- R58, R90: a list of bytes decodes as a word does exactly when it is the word's eight bytes. -/
theorem decode_eq_ok_iff {bs : List Byte} {i : Instr} :
    decode bs = .ok i ↔ ∃ w, bs = bytesOfWord w ∧ decodeWord w = .ok i := by
  constructor
  · intro h
    by_cases hlen : bs.length = 8
    · rw [decode, if_pos hlen] at h
      exact ⟨_, (bytesOfWord_wordOfBytes hlen).symm, h⟩
    · rw [decode, if_neg hlen] at h
      cases h
  · rintro ⟨w, rfl, h⟩
    rw [decode, if_pos (bytesOfWord_length w), wordOfBytes_bytesOfWord, h]

/-- Settles O2: bytes decode as their word does, and a word decodes to the command whose fields it has. -/
theorem decodeIsInverseOfEncode : Obligations.DecodeIsInverseOfEncode := by
  intro bs i
  simp only [decode_eq_ok_iff, decodeWord_eq_ok_iff]
  exact exists_eq_right

/-- Settles O1: each word is evaluated. -/
theorem wordsOfEachFamilyDecode : Obligations.WordsOfEachFamilyDecode := by
  unfold Obligations.WordsOfEachFamilyDecode
  decide

end Sys2Proof.Machine

/-! PROOFS for 20_memory.md: the register window (R52, R56), a command at the port (R26), the bytes of a buffer word (R58)
and what a read changes (R64); and for 70_reset_and_hazards.md: what a reset keeps. -/

namespace Sys2Proof.Machine

/-! The register window at the host port (R52, R56). -/

/-- From word 10 on the register window is reserved. -/
theorem registerAt_of_ge {n : Nat} (h : 10 ≤ n) : registerAt n = .reserved := by
  obtain ⟨m, rfl⟩ := Nat.exists_eq_add_of_le' h
  rfl

/-- An aligned access of one word in the register window reaches the register there. -/
theorem busTarget_register (p : Params) {off : Nat} (hoff : off < 0x100) (halign : off % 8 = 0) :
    busTarget p (p.base + off) 8 = registerAt (off / 8) := by
  rw [busTarget_base_add p 8 (by omega), targetAt, if_neg (by omega), if_pos hoff]

/-- What word `n` of the register window reads as (R52, R56). -/
def registerValue (s : State) : (n : Nat) → Word
  | 1 => s.statusWord
  | 2 => s.arg0
  | 3 => s.arg1
  | 4 => s.arg2
  | 5 => s.arg3
  | 6 => s.arg4
  | 7 => s.res0
  | 8 => s.res1
  | 9 => capsWord s.params
  | _ => 0

theorem registerValue_of_ge (s : State) {n : Nat} (h : 10 ≤ n) : registerValue s n = 0 := by
  obtain ⟨m, rfl⟩ := Nat.exists_eq_add_of_le' h
  rfl

theorem hostRead_registerAt (n : Nat) (s : State) :
    hostRead (registerAt n) s = s.reply (.data (registerValue s n)) := by
  by_cases h : 10 ≤ n
  · rw [registerAt_of_ge h, registerValue_of_ge s h]
    rfl
  · interval_cases n <;> rfl

/-- R23: `STATUS` by the state that its three fields show. -/
theorem State.statusWord_toNat_eq_ite (s : State) : s.statusWord.toNat =
    s.code.number + 2 ^ 8 * (if s.tbl = none then 0 else 1) + 2 ^ 9 * (if s.err = true then 1 else 0) := by
  rw [State.statusWord_toNat, State.initialized_toNat]
  cases s.err <;> rfl

/-- R7, R27: legal bounds fit their bytes of `CAPS`. -/
theorem capsWord_toNat_of_wellFormed {p : Params} (h : p.wellFormed = true) :
    (capsWord p).toNat = p.logNMin + 2 ^ 8 * p.logNMax := by
  have hbounds := Params.wellFormed_bounds h
  rw [capsWord_toNat, Nat.mod_eq_of_lt (by omega), Nat.mod_eq_of_lt (by omega)]

/-- Settles O6: the read answers with the value of the register at its offset, one clause for each row of R52. -/
theorem hostReadsTheRegisterWindow : Obligations.HostReadsTheRegisterWindow := by
  intro s rest off hp hoff halign hi
  refine ⟨registerValue { s with inbox := rest } (off / 8),
    (step_read hi (busTarget_register _ hoff halign)).trans (congrArg _ (hostRead_registerAt _ _)), ?_⟩
  refine ⟨?cmd, ?status, ?_, ?_, ?_, ?_, ?_, ?_, ?_, ?caps, fun h => registerValue_of_ge _ (by omega)⟩
  case status => rintro rfl; exact State.statusWord_toNat_eq_ite { s with inbox := rest }
  case caps => rintro rfl; exact capsWord_toNat_of_wellFormed hp
  all_goals rintro rfl; rfl

/-- A write at word `n` of the register window but `CMD` changes the operand register there, if one is there. -/
theorem hostWrite_registerAt {n : Nat} (h : 0 < n) (v : Word) (s : State) :
    hostWrite (registerAt n) v s = { s with
      replies := .written :: s.replies
      arg0 := if 8 * n = 0x10 then v else s.arg0
      arg1 := if 8 * n = 0x18 then v else s.arg1
      arg2 := if 8 * n = 0x20 then v else s.arg2
      arg3 := if 8 * n = 0x28 then v else s.arg3
      arg4 := if 8 * n = 0x30 then v else s.arg4 } := by
  by_cases hn : 10 ≤ n
  · rw [registerAt_of_ge hn, if_neg (by omega), if_neg (by omega), if_neg (by omega), if_neg (by omega), if_neg (by omega)]
    rfl
  · interval_cases n <;> rfl

theorem registerAt_ne_cmd {n : Nat} (h : 0 < n) : registerAt n ≠ .cmd := by
  by_cases hn : 10 ≤ n
  · rw [registerAt_of_ge hn]
    decide
  · interval_cases n <;> decide

/-- Settles O7: the write reaches the register at its offset, and of those but `CMD` only an operand register takes it. -/
theorem hostWritesTheRegisterWindow : Obligations.HostWritesTheRegisterWindow := by
  intro s rest off v hpos hoff halign hi
  have hword : 8 * (off / 8) = off := by omega
  have hwrite := hostWrite_registerAt (n := off / 8) (by omega) v { s with inbox := rest }
  rw [step_write hi (busTarget_register _ hoff halign) (registerAt_ne_cmd (by omega)), hwrite, hword]

/-- Settles O4: the write reaches `CMD`, whose word is decoded. -/
theorem stepRunsTheDecodedCommand : Obligations.StepRunsTheDecodedCommand := fun _ _ _ _ hi hd =>
  (step_commandWrite hi).trans (runCommandWord_of_decode hd _)

/-- Settles O13: each clause is one field of `platformReset`. -/
theorem resetKeepsThePort : Obligations.ResetKeepsThePort := fun _ _ hi =>
  ⟨_, step_reset hi, rfl, rfl, rfl, rfl, rfl⟩

/-! The bytes of the buffer (R58). -/

/-- R58: byte `b` of a word is its bits from `8b` up. -/
theorem bytesOfWord_getElem? (w : Word) {b : Nat} (h : b < 8) : (bytesOfWord w)[b]? = some (w.extractLsb' (8 * b) 8) := by
  rw [bytesOfWord, List.getElem?_map, List.getElem?_range h, Option.map_some, Option.some_inj]
  apply BitVec.eq_of_toNat_eq
  rw [BitVec.extractLsb'_toNat, BitVec.toNat_ofNat, Nat.shiftRight_eq_div_pow]

/-- Settles O10: the write stores the eight bytes of its word at the word's offset. -/
theorem bufferBytesAreLittleEndian : Obligations.BufferBytesAreLittleEndian := by
  intro s u rest j b v hp hj hb hi h
  cases (step_write_bufOffset hp hj hi).symm.trans h
  exact (Memory.readByte_setBufWord_inside s.mem j v hb).trans (bytesOfWord_getElem? v hb)

/-! What a host read changes (R57, R64). -/

/-- The three ways of a read of a buffer word: a written word is only read, an unwritten one is recorded or drawn. -/
theorem readBuf_cases (j : Nat) (s : State) :
    (readBuf j s).2 = s ∨ (s.params.bufUnwritten = .fault ∧ (readBuf j s).2 = s.recordUnwrittenRead) ∨
      (s.params.bufUnwritten = .draw ∧ (readBuf j s).2 = { s with draws := s.draws + 1 }) := by
  rcases hw : Memory.bufWord s.mem j with _ | w
  · cases hb : s.params.bufUnwritten with
    | fault => simp [readBuf, hw, hb]
    | draw => simp [readBuf, hw, hb]
  · rw [readBuf_of_written hw]
    exact .inl rfl

/-- Everything a host read can do. -/
theorem hostRead_cases (t : Target) (s : State) :
    ∃ r, hostRead t s = s.reply r ∨
      (s.params.bufUnwritten = .fault ∧ hostRead t s = s.recordUnwrittenRead.reply r) ∨
      (s.params.bufUnwritten = .draw ∧ hostRead t s = { s with draws := s.draws + 1 }.reply r) := by
  cases t with
  | buf j =>
    refine ⟨.data (readBuf j s).1, ?_⟩
    rcases readBuf_cases j s with h | ⟨hb, h⟩ | ⟨hb, h⟩
    · exact .inl (by rw [hostRead, h])
    · exact .inr (.inl ⟨hb, by rw [hostRead, h]⟩)
    · exact .inr (.inr ⟨hb, by rw [hostRead, h]⟩)
  | res i => fin_cases i <;> exact ⟨_, .inl rfl⟩
  | _ => exact ⟨_, .inl rfl⟩

/-- Settles O11: a read answers, and at most records or draws, each in its own mode only. -/
theorem readsHaveNoSideEffects : Obligations.ReadsHaveNoSideEffects := by
  intro s rest addr size hi
  obtain ⟨r, hr⟩ := hostRead_cases (busTarget s.params addr size) { s with inbox := rest }
  refine ⟨_, r, step_read hi rfl, ?_⟩
  rcases hr with h | ⟨hb, h⟩ | ⟨hb, h⟩ <;> rw [h]
  · exact ⟨rfl, fun hne => absurd rfl hne, fun hne => absurd rfl hne⟩
  · exact ⟨rfl, fun hne => absurd rfl hne, fun _ => hb⟩
  · exact ⟨rfl, fun _ => hb, fun hne => absurd rfl hne⟩

end Sys2Proof.Machine

/-! PROOFS for 40_arith_primitives.md to 43_inverse_ntt.md: bit reversal (R105, R117), BFLY_FWD (R180, R182), the inverse
root that a block reads (R157), and the completion and the frame of the passes (R184, R208). -/

namespace Sys2Proof.Machine

/-! Bit reversal, the forward butterfly and the roots. -/

/-- Settles O21: a reversal drops the bits above, as `bitrev_append` with no bits kept of the high part says. -/
theorem bitReversalIsAnInvolution : Obligations.BitReversalIsAnInvolution := by
  refine fun i k => ⟨bitrev_lt i k, ?_, bitrev_bitrev⟩
  have h := bitrev_append (u := i % 2 ^ k) (i / 2 ^ k) k 0 (Nat.mod_lt _ (by positivity))
  rwa [Nat.mod_add_div, add_zero, pow_zero, mul_one, bitrev, add_zero] at h

/-- Settles O23: the command is total, and each of its words is one expression of R180. -/
theorem bflyFwdResult : Obligations.BflyFwdResult :=
  ⟨rfl, fun s => ⟨_, rfl, rfl, _, _, _, BitVec.toNat_mul 2 s.arg4, reduceOnce_toNat s.arg0 (2 * s.arg4),
    shoupMul_toNat s.arg2 s.arg3 s.arg1 s.arg4, BitVec.toNat_add _ _, offsetDifference_toNat _ _ _⟩⟩

/-- Settles O33: both entries are the power that the bit reversal of `2^j + i` names, of the root and of its inverse. -/
theorem inverseCursorMeetsForwardRoots : Obligations.InverseCursorMeetsForwardRoots := by
  intro s t k j i hI hs hk hj hi
  obtain ⟨k', q, ψ, ψinv, raw, hrules, -, -, hprime, -⟩ := initializedTableContents s t hI hs
  obtain ⟨⟨hk', -, hq⟩, -, ⟨-, -, -, hinv⟩, hraw, -, hroots, -, -, hreordered, -⟩ := hrules
  obtain rfl : k' = k := hk'.symm.trans hk
  have hfit := two_pow_add_two_pow_le hj
  have hlt := bitrev_lt (2 ^ j + i) k'
  have hback : bitrev (bitrev (2 ^ j + i) k') k' = 2 ^ j + i := bitrev_bitrev (by omega)
  have hforward := hroots _ hlt
  have hinverse := hreordered j hj i hi
  rw [← hback, hraw _ hlt] at hinverse
  rw [hback] at hforward
  refine ⟨_, _, hforward, hinverse, ?_⟩
  rw [hq, ← Nat.mul_mod, ← mul_pow, Nat.pow_mod, hinv, one_pow, Nat.mod_eq_of_lt hprime.one_lt]

/-! The passes (R184, R208). -/

/-- The final stage leaves no more than `n` words, for any number of words before it (R207). -/
theorem inverseFinal_length_le (tb : Table) (a : List Word) : (inverseFinal tb a).length ≤ tb.coeffCount.toNat := by
  simp only [inverseFinal, List.length_append, List.length_map, List.length_zipWith, List.length_take]
  omega

/-- Neither pass writes more words than the degree of its table. -/
theorem pass_length_le {i : Instr} {transform : Table → List Word → List Word} {t : Table} {a : List Word}
    (hi : (i = .nttFwd ∧ transform = forwardPass) ∨ (i = .nttInv ∧ transform = inversePass))
    (hc : tableCoherent t = true) (ha : a.length = t.coeffCount.toNat) :
    (transform t a).length ≤ t.coeffCount.toNat := by
  rcases hi with ⟨-, rfl⟩ | ⟨-, rfl⟩
  · exact (forwardPass_length hc ha).le
  · exact inverseFinal_length_le t _

/-- What writing the buffer leaves in memory depends on the memory alone. -/
theorem writeBufs_mem_congr {s s' : State} (h : s.mem = s'.mem) (j : Nat) (ws : List Word) :
    (writeBufs j ws s).mem = (writeBufs j ws s').mem := by
  induction ws generalizing j s s' with
  | nil => exact h
  | cons w ws ih => exact ih (congrArg (Memory.setBufWord · j w) h) (j + 1)

section
variable {bound : Table → Nat} {transform : Table → List Word → List Word} {s u : State} {t : Table}
  (ht : s.tbl = some t)
include ht

/-- The memory after a pass: the transform of the words it reads, written from `BUF[0]` up (R184, R208). -/
theorem mem_of_runPass_next (h : runPass bound transform s = .next u) :
    u.mem = (writeBufs 0 (transform t ((List.range t.coeffCount.toNat).map (passInput s))) s).mem := by
  rw [eq_of_runPass_next ht h, State.complete_mem, readBufs_eq]
  apply writeBufs_mem_congr
  cases s.params.bufUnwritten <;> simp

theorem runPass_sameOutsideBuffer
    (hlen : ∀ a : List Word, a.length = t.coeffCount.toNat → (transform t a).length ≤ t.coeffCount.toNat)
    (h : runPass bound transform s = .next u) : sameOutsideBuffer t.coeffCount.toNat s u := fun x hx => by
  have hle := hlen ((List.range t.coeffCount.toNat).map (passInput s)) (by simp)
  rw [mem_of_runPass_next ht h]
  refine writeBufs_readByte_outside (hx.imp_right fun hx => ?_)
  unfold bufOffset at *
  omega

/-- With a table a pass that has a next state changes, beside memory and `CODE`, only the fault record and the draw
counter. -/
theorem runPass_frame (h : runPass bound transform s = .next u) :
    u = { s with mem := u.mem, faults := u.faults, draws := u.draws, code := .ok } := by
  rcases runPass_cases (bound := bound) (transform := transform) (s := s) with
    ⟨hn, -⟩ | ⟨-, -, -, u', h', hu⟩ | ⟨-, -, -, h'⟩
  · cases hn.symm.trans ht
  · cases h'.symm.trans h
    exact hu
  · cases h'.symm.trans h

/-- A pass on a coherent table whose transform keeps the number of words completes and writes every word of `BUF[0..n)`. -/
theorem runPass_completes (hc : tableCoherent t = true)
    (hlen : ∀ a : List Word, a.length = t.coeffCount.toNat → (transform t a).length = t.coeffCount.toNat) :
    ∃ u, runPass bound transform s = .next u ∧
      u = { s with mem := u.mem, faults := u.faults, draws := u.draws, code := .ok } ∧
      (∀ j < t.coeffCount.toNat, u.written j = true) ∧ sameOutsideBuffer t.coeffCount.toNat s u := by
  obtain ⟨u, hu, hwords⟩ := runPass_words (bound := bound) ht hc hlen
  refine ⟨u, hu, runPass_frame ht hu, fun j hj => ?_, runPass_sameOutsideBuffer ht (fun a ha => (hlen a ha).le) hu⟩
  have hlt : j < (transform t ((List.range t.coeffCount.toNat).map (passInput s))).length := by
    rw [hlen _ (by simp)]
    exact hj
  rw [State.written, hwords j hj, List.getElem?_eq_getElem hlt]
  rfl

end

theorem runPass_uninitialized_eq {bound : Table → Nat} {transform : Table → List Word → List Word} {s : State}
    (ht : s.tbl = none) : runPass bound transform s = .next { s with code := .notInitialized, err := true } :=
  (runPass_uninitialized ht).trans (raise_eq (by decide) s)

/-- Settles O36: both passes are `runPass`, and both transforms keep the number of words. -/
theorem passesComplete : Obligations.PassesComplete := by
  refine ⟨rfl, rfl, fun i hi s => ?_⟩
  simp only [List.mem_cons, List.not_mem_nil, or_false] at hi
  rcases hi with rfl | rfl
  · exact ⟨runPass_uninitialized_eq, fun t ht hc _ => runPass_completes ht hc fun _ => forwardPass_length hc⟩
  · exact ⟨runPass_uninitialized_eq, fun t ht hc hk => runPass_completes ht hc fun _ => inversePass_length hc hk⟩

end Sys2Proof.Machine

/-! PROOFS for 10_state.md and 30_encoding.md: which pieces of state a command may write (R22, R70, R84) and who writes
`ARG` (R21). -/

namespace Sys2Proof.Machine

/-! Commands. -/

/-- Settles O49: each effect of a command has only the pieces of its kind. -/
theorem commandsWriteOnlyTheirOwnState : Obligations.CommandsWriteOnlyTheirOwnState := by
  intro i s u h
  cases exec_effect h with
  | results r0 r1 hi =>
    simp only [List.mem_cons, List.not_mem_nil, or_false, not_or] at hi
    exact ⟨fun _ _ => rfl, by simp [hi]⟩
  | failure c _ hi => exact ⟨fun _ _ => rfl, by simp [hi]⟩
  | built t hi => subst hi; exact ⟨fun _ _ => rfl, rfl⟩
  | unbuilt c _ hi => subst hi; exact ⟨fun _ _ => rfl, rfl⟩
  | cleared hi => subst hi; exact ⟨fun _ _ => rfl, rfl⟩
  | passed t bound transform _ hi ht hc hrun hu =>
    refine ⟨by rw [ht]; exact runPass_sameOutsideBuffer ht (fun _ => pass_length_le hi hc) hrun, ?_⟩
    obtain ⟨_, _, _, rfl⟩ : ∃ m f d, u = { s with mem := m, faults := f, draws := d, code := .ok } := ⟨_, _, _, hu⟩
    rcases hi with ⟨rfl, -⟩ | ⟨rfl, -⟩ <;> rfl

/-- Settles O47: `RES` is written by the effect `results` alone, which completes with `OK`, is no pass's and not that of
TBL_BUILD or CLR_ERR, and keeps `RES[1]` but for the four commands with two results. -/
theorem resultsAreWrittenOnlyOnOk : Obligations.ResultsAreWrittenOnlyOnOk := by
  intro i s u h
  cases exec_effect h with
  | results r0 r1 hi hr1 => exact ⟨fun hor => hor.elim (absurd rfl) (absurd · hi), hr1⟩
  | failure | built | unbuilt | cleared => exact ⟨fun _ => ⟨rfl, rfl⟩, fun _ => rfl⟩
  | passed _ _ _ _ _ _ _ _ hu =>
    have h0 : u.res0 = s.res0 := (congrArg State.res0 hu :)
    have h1 : u.res1 = s.res1 := (congrArg State.res1 hu :)
    exact ⟨fun _ => ⟨h0, h1⟩, fun _ => h1⟩

/-- No command changes the parameters, the operands or the port. -/
theorem exec_frame {i : Instr} {s u : State} (h : exec i s = .next u) :
    u.params = s.params ∧ (∀ j, u.arg j = s.arg j) ∧ u.inbox = s.inbox ∧ u.replies = s.replies := by
  obtain ⟨-, hu⟩ := commandsWriteOnlyTheirOwnState i s u h
  rw [hu]
  exact ⟨rfl, fun _ => rfl, rfl, rfl⟩

/-- Settles O54: of the steps but a reset only the host's write of an operand register changes an operand, its own. -/
theorem onlyTheHostWritesOperands : Obligations.OnlyTheHostWritesOperands := by
  intro s u i h hne
  cases step_effect h with
  | reset rest hi => exact ⟨rest, .inl hi⟩
  | operand rest j v hi =>
    rw [State.reply_arg, State.setArg_arg] at hne ⊢
    by_cases hij : i = j
    · subst hij
      exact ⟨rest, .inr (by rw [if_pos rfl]; exact hi)⟩
    · rw [if_neg hij] at hne
      exact absurd rfl hne
  | command _ _ _ _ _ _ hx =>
    obtain ⟨-, harg, -⟩ := exec_frame hx
    exact absurd (harg i) hne
  | idle | read | illegal | buffer | ignored => exact absurd rfl hne

/-! The port and the parameters (R7, R61). -/

/-- Settles O55: each effect of a step keeps the parameters, takes the first event and adds at most its own reply. -/
theorem stepKeepsParametersAndPortOrder : Obligations.StepKeepsParametersAndPortOrder := by
  intro s u h
  cases step_effect h with
  | idle hi => exact ⟨rfl, by rw [hi]; rfl, .inl rfl⟩
  | reset rest hi => exact ⟨rfl, by rw [hi]; rfl, .inl rfl⟩
  | command rest v i _ hi _ hx =>
    obtain ⟨hp, -, hin, hrep⟩ := exec_frame hx
    exact ⟨hp, by rw [hin, hi]; rfl, .inr ⟨_, hrep⟩⟩
  | operand rest i v hi => exact ⟨by simp, by simp [hi], .inr ⟨.written, by simp⟩⟩
  | read rest _ _ _ hi | illegal rest _ _ hi | buffer rest _ _ hi | ignored rest _ _ _ _ hi =>
    exact ⟨rfl, by rw [hi]; rfl, .inr ⟨_, rfl⟩⟩

end Sys2Proof.Machine

/-! PROOFS for the whole machine: the invariant (R7, R36, R38, R173) and progress (R240). -/

namespace Sys2Proof.Machine

/-! The invariant. -/

/-- Every command keeps the invariant. -/
theorem exec_keeps_inv {i : Instr} {s u : State} (hI : Inv s) (h : exec i s = .next u) : Inv u := by
  obtain ⟨hp, hm, ht⟩ := hI
  cases exec_effect h with
  | results | failure | cleared => exact ⟨hp, hm, ht⟩
  | built t _ hr hb => exact ⟨hp, hm, tableInv_of_build hp hr hb⟩
  | unbuilt => exact ⟨hp, hm, tableInv_none _⟩
  | passed t bound transform _ hi hs hc hrun hu =>
    have hwritten : memoryInv s.params u.mem := by
      have hfit := tableInv_coeffCount_le hp (hs ▸ ht)
      have hlen := pass_length_le hi hc (a := (List.range t.coeffCount.toNat).map (passInput s)) (by simp)
      rw [mem_of_runPass_next hs hrun]
      exact writeBufs_memoryInv hm (by omega)
    rw [hu]
    exact ⟨hp, hwritten, ht⟩

/-- Settles O51: a reset and a write of a buffer word keep the memory's invariant, a command keeps all three parts, and no
other step changes the parameters, the memory or the table. -/
theorem stepKeepsTheInvariant : Obligations.StepKeepsTheInvariant := by
  rintro s u ⟨hp, hm, ht⟩ h
  cases step_effect h with
  | idle | read | illegal | ignored => exact ⟨hp, hm, ht⟩
  | reset => exact ⟨hp, memoryInv_nil _, tableInv_none _⟩
  | command rest _ _ _ _ _ hx =>
    exact exec_keeps_inv (s := { s with inbox := rest, replies := .written :: s.replies }) ⟨hp, hm, ht⟩ hx
  | operand rest i v => simpa [Inv] using And.intro hp ⟨hm, ht⟩
  | buffer rest j v _ hj => exact ⟨hp, memoryInv_setBufWord hm hj v, ht⟩

/-- Settles O50: the default parameters are legal, and no memory and no table need no more. -/
theorem invariantHoldsAtReset : Obligations.InvariantHoldsAtReset := ⟨by decide, memoryInv_nil _, tableInv_none _⟩

/-! Progress (R240). -/

section
variable {s : State}

/-- A pass stops on no coherent table. -/
theorem runPass_outcome (bound : Table → Nat) (transform : Table → List Word → List Word)
    (hc : ∀ t, s.tbl = some t → tableCoherent t = true) : ∃ u, runPass bound transform s = .next u := by
  rcases runPass_cases (bound := bound) (transform := transform) (s := s) with
    ⟨-, h⟩ | ⟨_, -, -, u, h, -⟩ | ⟨t, ht, hn, -⟩
  · exact ⟨_, h⟩
  · exact ⟨u, h⟩
  · cases hn.symm.trans (hc t ht)

/-- Nor does TBL_GET_ARRAY, since the array has an entry at every offset below the degree. -/
theorem getArray_outcome {array : Table → List Word}
    (hlen : ∀ t, s.tbl = some t → (array t).length = t.coeffCount.toNat) : ∃ u, getArray array s = .next u := by
  rcases getArray_cases array s with ⟨-, h⟩ | ⟨_, -, -, h⟩ | ⟨_, _, -, -, -, h⟩ | ⟨t, ht, hlt, hnone, -⟩
  · exact ⟨_, h⟩
  · exact ⟨_, h⟩
  · exact ⟨_, h⟩
  · exact absurd (List.getElem?_eq_none_iff.1 hnone) (by rw [hlen t ht]; omega)

end

theorem withinDomain_outcome (b : Bool) (v : Word) (s : State) : ∃ u, withinDomain b v s = .next u := by
  rcases withinDomain_cases b v s with ⟨-, h⟩ | ⟨-, h⟩ <;> exact ⟨_, h⟩

theorem withinDomainTwo_outcome (b : Bool) (vs : Word × Word) (s : State) : ∃ u, withinDomainTwo b vs s = .next u := by
  rcases withinDomainTwo_cases b vs s with ⟨-, h⟩ | ⟨-, h⟩ <;> exact ⟨_, h⟩

theorem execTblBuild_outcome (s : State) : ∃ u, execTblBuild s = .next u := by
  rcases execTblBuild_cases s with ⟨-, h⟩ | ⟨-, -, h⟩ | ⟨_, -, -, h⟩ <;> exact ⟨_, h⟩

/-- On a coherent table every command answers a next state. -/
theorem exec_outcome (i : Instr) {s : State} (hc : ∀ t, s.tbl = some t → tableCoherent t = true) :
    ∃ u, exec i s = .next u := by
  have harray {array : Table → List Word}
      (hlen : ∀ t, tableCoherent t = true → (array t).length = t.coeffCount.toNat) : ∃ u, getArray array s = .next u :=
    getArray_outcome fun t ht => hlen t (hc t ht)
  cases i with
  | tblBuild => exact execTblBuild_outcome s
  | nttFwd | nttInv => exact runPass_outcome _ _ hc
  | getRoot | getScaledRoot | getInvRoot | getScaledInvRoot | getInvRootDiv2 | getScaledInvRootDiv2 =>
    exact harray fun t ht => by simp [tableCoherent_spec ht]
  | mulMod | shoupRatio | div2Mod | bitReverse => exact withinDomain_outcome _ _ s
  | div128By64 | bflyInvFinal => exact withinDomainTwo_outcome _ _ s
  | clrErr | getInvDegree | getModulus | getCoeffCountPower | getCoeffCount | getIsInitialized | mulHi | shoupMul | bflyFwd
  | bflyInv => exact ⟨_, rfl⟩

/-- Settles O52: only a command could stop, and the invariant's table is coherent. -/
theorem everyStepHasAnOutcome : Obligations.EveryStepHasAnOutcome := by
  rintro s ⟨hp, -, ht⟩
  have hc (t : Table) (hs : s.tbl = some t) : tableCoherent t = true := tableInv_coherent hp (hs ▸ ht)
  rcases hi : s.inbox with _ | ⟨e, rest⟩
  · exact ⟨_, step_nil hi⟩
  rw [step_cons hi]
  cases e with
  | reset | read => exact ⟨_, rfl⟩
  | write addr size v =>
    by_cases hcmd : busTarget s.params addr size = .cmd
    · simp only [runEvent, if_pos hcmd]
      cases hd : decodeWord v with
      | ok i => rw [runCommandWord_of_decode hd]; exact exec_outcome i hc
      | error e => exact ⟨_, runCommandWord_of_reject hd _⟩
    · exact ⟨_, if_neg hcmd⟩

end Sys2Proof.Machine

/-! PROOFS for 60_exceptions.md: the fault record only grows, and nothing reads it (R41, R250). -/

namespace Sys2Proof.Machine

/-! The record only grows (R41). -/

/-- The record of `u` keeps every reason of that of `s`, and adds none in the two quiet modes. -/
def recordGrows (s u : State) : Prop :=
  (s.faults.unwrittenRead = true → u.faults.unwrittenRead = true) ∧
  (s.faults.inputOutOfRange = true → u.faults.inputOutOfRange = true) ∧
  (s.params.oorMode = .formula → s.params.bufUnwritten = .draw → u.faults = s.faults)

theorem recordGrows_of_eq {s u : State} (h : u.faults = s.faults) : recordGrows s u := by
  unfold recordGrows
  rw [h]
  exact ⟨id, id, fun _ _ => rfl⟩

theorem FaultRecord.eq_of_iff {f g : FaultRecord} (h1 : f.unwrittenRead = true ↔ g.unwrittenRead = true)
    (h2 : f.inputOutOfRange = true ↔ g.inputOutOfRange = true) : f = g :=
  congrArg₂ FaultRecord.mk (Bool.eq_iff_iff.2 h1) (Bool.eq_iff_iff.2 h2)

/-- R185, R209: a pass adds a reason only in the reason's own mode. -/
theorem runPass_recordGrows {bound : Table → Nat} {transform : Table → List Word → List Word} {s u : State} {t : Table}
    (ht : s.tbl = some t) (h : runPass bound transform s = .next u) : recordGrows s u := by
  obtain ⟨hrange, hunwritten, -⟩ := runPass_records ht h
  refine ⟨fun hs => hunwritten.2 (.inl hs), fun hs => hrange.2 (.inl hs), fun hformula hdraw => ?_⟩
  exact FaultRecord.eq_of_iff (by simp [hunwritten, hdraw]) (by simp [hrange, hformula])

theorem exec_recordGrows {i : Instr} {s u : State} (h : exec i s = .next u) : recordGrows s u := by
  cases exec_effect h with
  | passed _ _ _ _ _ ht _ hrun => exact runPass_recordGrows ht hrun
  | results | failure | built | unbuilt | cleared => exact recordGrows_of_eq rfl

/-- R57: a host read adds a reason only under `BUF_UNWRITTEN = fault`. -/
theorem hostRead_recordGrows (t : Target) (s : State) : recordGrows s (hostRead t s) := by
  obtain ⟨r, h | ⟨hb, h⟩ | ⟨-, h⟩⟩ := hostRead_cases t s <;> rw [h]
  · exact recordGrows_of_eq rfl
  · exact ⟨fun _ => rfl, id, fun _ hdraw => by cases hb.symm.trans hdraw⟩
  · exact recordGrows_of_eq rfl

/-- Settles O56: of the steps but a reset only a host read and a pass change the record. -/
theorem faultRecordOnlyGrows : Obligations.FaultRecordOnlyGrows := by
  intro s u h hreset
  cases step_effect h with
  | reset rest hi => exact absurd hi (hreset rest)
  | read rest addr size => exact hostRead_recordGrows (busTarget s.params addr size) { s with inbox := rest }
  | command rest _ _ _ _ _ hx => exact exec_recordGrows (s := { s with inbox := rest, replies := .written :: s.replies }) hx
  | operand rest i v => exact recordGrows_of_eq (State.setArg_faults i v { s with inbox := rest })
  | idle | illegal | buffer | ignored => exact recordGrows_of_eq rfl

/-! The record is inert (R250). -/

/-- On a state with another fault record the operation does the same and may leave another record (R250). -/
def inert (m : State → Result) : Prop :=
  ∀ (s u : State) (f : FaultRecord), m s = .next u → ∃ f', m { s with faults := f } = .next { u with faults := f' }

section
variable {s u : State} (f : FaultRecord)

theorem withinDomain_inert {b : Bool} {v : Word} (h : withinDomain b v s = .next u) :
    withinDomain b v { s with faults := f } = .next { u with faults := f } := by
  cases b <;> cases h <;> rfl

theorem withinDomainTwo_inert {b : Bool} {vs : Word × Word} (h : withinDomainTwo b vs s = .next u) :
    withinDomainTwo b vs { s with faults := f } = .next { u with faults := f } := by
  cases b <;> cases h <;> rfl

end

theorem getArray_inert (array : Table → List Word) : inert (getArray array) := by
  intro s u f h
  refine ⟨f, ?_⟩
  rcases getArray_cases array s with
    ⟨ht, h'⟩ | ⟨t, ht, hk, h'⟩ | ⟨t, v, ht, hk, hv, h'⟩ | ⟨-, -, -, -, h'⟩ <;> cases h'.symm.trans h
  · exact getArray_uninitialized (s := { s with faults := f }) ht
  · exact getArray_outOfRange (s := { s with faults := f }) ht hk
  · exact getArray_entry (s := { s with faults := f }) ht hk hv

theorem execTblBuild_inert : inert execTblBuild := by
  intro s u f h
  refine ⟨f, ?_⟩
  cases hd : degreeInRange s.params s.arg0.toNat with
  | false =>
    simp only [execTblBuild, State.arg_zero, hd, Bool.false_eq_true, if_false] at h ⊢
    cases h
    rfl
  | true =>
    cases hb : buildForDegree s.arg0.toNat s.arg1.toNat with
    | none | some t =>
      simp only [execTblBuild, State.arg_zero, State.arg_one, hd, hb, if_true] at h ⊢
      cases h
      rfl

/-- A pass reads the same words and takes the same draws whatever the record holds. -/
theorem runPass_inert (bound : Table → Nat) (transform : Table → List Word → List Word) :
    inert (runPass bound transform) := by
  intro s u f h
  rcases runPass_cases (bound := bound) (transform := transform) (s := s) with
    ⟨ht, -⟩ | ⟨t, ht, hc, -⟩ | ⟨-, -, -, h₀⟩
  · cases (runPass_uninitialized_eq ht).symm.trans h
    exact ⟨f, runPass_uninitialized_eq (s := { s with faults := f }) ht⟩
  · obtain ⟨u', h'⟩ : ∃ u', runPass bound transform { s with faults := f } = .next u' :=
      ⟨_, runPass_of_coherent (s := { s with faults := f }) ht hc⟩
    have hmem : u'.mem = u.mem := by
      rw [mem_of_runPass_next ht h, mem_of_runPass_next (s := { s with faults := f }) ht h']
      exact writeBufs_mem_congr (s := { s with faults := f }) (s' := s) rfl 0 _
    have hdraws : u'.draws = u.draws := by
      obtain ⟨-, -, hd⟩ := runPass_records ht h
      obtain ⟨-, -, hd'⟩ := runPass_records (s := { s with faults := f }) ht h'
      exact hd'.trans hd.symm
    refine ⟨u'.faults, h'.trans (congrArg _ ?_)⟩
    calc u' = { s with mem := u'.mem, faults := u'.faults, draws := u'.draws, code := .ok } :=
          runPass_frame (s := { s with faults := f }) ht h'
      _ = { s with mem := u.mem, faults := u'.faults, draws := u.draws, code := .ok } := by rw [hmem, hdraws]
      _ = { u with faults := u'.faults } := by rw [runPass_frame ht h]
  · cases h₀.symm.trans h

theorem exec_inert (i : Instr) : inert (exec i) := by
  intro s u f h
  cases i with
  | tblBuild => exact execTblBuild_inert s u f h
  | nttFwd | nttInv => exact runPass_inert _ _ s u f h
  | getRoot | getScaledRoot | getInvRoot | getScaledInvRoot | getInvRootDiv2 | getScaledInvRootDiv2 =>
    exact getArray_inert _ s u f h
  | mulMod | shoupRatio | div2Mod | bitReverse => exact ⟨f, withinDomain_inert f h⟩
  | div128By64 | bflyInvFinal => exact ⟨f, withinDomainTwo_inert f h⟩
  | clrErr | getInvDegree | getModulus | getCoeffCountPower | getCoeffCount | getIsInitialized | mulHi | shoupMul | bflyFwd
  | bflyInv => cases h; exact ⟨f, rfl⟩

theorem runCommandWord_inert (w : Word) : inert (runCommandWord w) := by
  intro s u f h
  cases hd : decodeWord w with
  | ok i =>
    rw [runCommandWord_of_decode hd] at h ⊢
    exact exec_inert i (s.reply .written) u f h
  | error e =>
    cases (runCommandWord_of_reject hd s).symm.trans h
    exact ⟨f, runCommandWord_of_reject hd _⟩

theorem readBuf_inert (j : Nat) (s : State) (f : FaultRecord) :
    ∃ f', readBuf j { s with faults := f } = ((readBuf j s).1, { (readBuf j s).2 with faults := f' }) := by
  unfold readBuf
  cases Memory.bufWord s.mem j with
  | some w => exact ⟨f, rfl⟩
  | none => cases s.params.bufUnwritten <;> exact ⟨_, rfl⟩

theorem hostRead_inert (t : Target) (s : State) (f : FaultRecord) :
    ∃ f', hostRead t { s with faults := f } = { hostRead t s with faults := f' } := by
  cases t with
  | buf j =>
    obtain ⟨f', h⟩ := readBuf_inert j s f
    exact ⟨f', by simp only [hostRead, h]; rfl⟩
  | res i => fin_cases i <;> exact ⟨f, rfl⟩
  | _ => exact ⟨f, rfl⟩

theorem hostWrite_inert (t : Target) (v : Word) (s : State) (f : FaultRecord) :
    hostWrite t v { s with faults := f } = { hostWrite t v s with faults := f } := by
  cases t with
  | arg i => fin_cases i <;> rfl
  | _ => rfl

theorem runEvent_inert (e : HostEvent) : inert (runEvent e) := by
  intro s u f h
  cases e with
  | reset => cases h; exact ⟨FaultRecord.empty, rfl⟩
  | read addr size =>
    cases h
    obtain ⟨f', h'⟩ := hostRead_inert (busTarget s.params addr size) s f
    exact ⟨f', congrArg _ h'⟩
  | write addr size v =>
    by_cases hcmd : busTarget s.params addr size = .cmd
    · simp only [runEvent, if_pos hcmd] at h ⊢
      exact runCommandWord_inert v s u f h
    · simp only [runEvent, if_neg hcmd] at h ⊢
      cases h
      exact ⟨f, congrArg _ (hostWrite_inert _ v s f)⟩

/-- Settles O57: the idle step keeps any record, and no event reads it. -/
theorem faultRecordIsInert : Obligations.FaultRecordIsInert := by
  intro s u f h
  by_cases hnil : s.inbox = []
  · cases (step_nil hnil).symm.trans h
    exact ⟨f, step_nil (s := { s with faults := f }) hnil⟩
  · obtain ⟨e, rest, hi⟩ := List.exists_cons_of_ne_nil hnil
    rw [step_cons hi] at h
    rw [step_cons (s := { s with faults := f }) hi]
    exact runEvent_inert e { s with inbox := rest } u f h

end Sys2Proof.Machine
